-- ==== Sys2Proof/Word.lean ====
section
/-! DEFINITION. The words of the hardware: one name per width of 00_scope.md R7. Every quantity is unsigned (R8). -/

namespace Sys2Proof

/-- A command word, CMD_W = 16 bits (30_encoding.md R55). -/
abbrev CmdWord := BitVec 16

/-- A byte: an element of the output stream (20_memory.md R41). -/
abbrev Byte := BitVec 8

/-- A symbol, "a byte value (0–255)", SYM_W = 8 bits (00_scope.md R7, R12). -/
abbrev Symbol := BitVec 8

/-- A node id, NODE_W = 9 bits; 511 names no node (10_state.md R29). -/
abbrev NodeId := BitVec 9

/-- A frequency: FREQ[s], TOTAL and NODE[n].F, FREQ_W = 32 bits. -/
abbrev Freq := BitVec 32

/-- The data of a response, DATA_W = 32 bits (30_encoding.md R61). -/
abbrev Data := BitVec 32

/-- The status of a response, 4 bits (30_encoding.md R61). -/
abbrev Status := BitVec 4

/-- One bit of a code, of the decoder's buffer, or an edge label: false is 0, true is 1.
A code is a sequence (00_scope.md R9), never a number. -/
abbrev Bit := Bool

end Sys2Proof
end

