-- ==== Sys2Proof/Config.lean ====
section
/-! DEFINITION. The parameters of the hardware (00_scope.md R7) and the model's one free value. -/

namespace Sys2Proof

/-- ALPHABET: the number of symbol values. -/
abbrev Config.alphabet : Nat := 256

/-- FREQ_W: the bits in a frequency counter, in TOTAL and in a node's frequency. -/
abbrev Config.freqW : Nat := 32

/-- FREQ_MAX = 2^32 − 1: the largest value of TOTAL. -/
abbrev Config.freqMax : Freq := 0xFFFFFFFF#32

/-- NNODE: the entries in the node memory. -/
abbrev Config.nNode : Nat := 511

/-- FIRST_INTERNAL: the id of the first internal node. -/
abbrev Config.firstInternal : NodeId := 256#9

/-- The id that names no node (10_state.md R29). -/
abbrev Config.noNode : NodeId := 511#9

/-- QCAP: the entries in the priority queue. -/
abbrev Config.queueCap : Nat := 256

/-- MAXLEN: the largest code length in bits, also the capacity of the decoder's buffer. -/
abbrev Config.maxLen : Nat := 255

/-- CHAR0: the byte of the character '0'. -/
abbrev Config.char0 : Byte := 0x30#8

/-- CHAR1: the byte of the character '1'. -/
abbrev Config.char1 : Byte := 0x31#8

/-- FREE VALUE (log 5). What the storage of NODE[n].F holds behind an entry with V = 0: 10_state.md R38
gives it no value, and no run reaches a state in which an operation reads it (R39 item 7). -/
opaque Config.staleFreq : NodeId → Freq

end Sys2Proof
end

