-- ==== Sys2Proof/Syntax.lean ====
section
/-! DEFINITION. The command set: 15 commands (30_encoding.md R58), their formats (R56), and the lines of the
assembler text form (R64, R65). -/

namespace Sys2Proof

/-- The three formats of a command word (30_encoding.md R56): no operand, a byte operand, a node operand. -/
inductive Format where
  | z
  | b
  | n
  deriving DecidableEq, Repr

/-- The 15 mnemonics of the opcode map (30_encoding.md R58). -/
inductive Mnemonic where
  | clr
  | acc
  | load
  | merge
  | build
  | gen
  | enc
  | dec
  | decend
  | rdreg
  | rdfreq
  | rdq
  | rdnode
  | rdnfrq
  | rdcode
  deriving DecidableEq, Repr

/-- A command, one constructor per row of the opcode table. The operand is the field of the word as it
stands (30_encoding.md R57). -/
inductive Instr where
  /-- End the current run and start a new one (R120). -/
  | clr
  /-- Count one input byte (R70). -/
  | acc (d : Symbol)
  /-- Fill the queue with one leaf per occurring symbol (R79). -/
  | load
  /-- Perform one merge (R86). -/
  | merge
  /-- Run the builder to the end (R87). -/
  | build
  /-- Generate the code table (R97). -/
  | gen
  /-- Encode one byte (R105). -/
  | enc (d : Symbol)
  /-- Take one bit character (R111). -/
  | dec (d : Byte)
  /-- Declare the encoded sequence exhausted (R112). -/
  | decend
  /-- Read a register by number (R121). -/
  | rdreg (d : BitVec 8)
  /-- Read one counter (R71). -/
  | rdfreq (d : Symbol)
  /-- Read one queue position (R80). -/
  | rdq (d : BitVec 8)
  /-- Read a node record (R88). -/
  | rdnode (n : NodeId)
  /-- Read a node's frequency (R89). -/
  | rdnfrq (n : NodeId)
  /-- Read one code as characters (R98). -/
  | rdcode (d : Symbol)
  deriving DecidableEq, Repr

/-- The mnemonic of a command. -/
def Instr.mnemonic : Instr → Mnemonic
  | .clr => .clr
  | .acc _ => .acc
  | .load => .load
  | .merge => .merge
  | .build => .build
  | .gen => .gen
  | .enc _ => .enc
  | .dec _ => .dec
  | .decend => .decend
  | .rdreg _ => .rdreg
  | .rdfreq _ => .rdfreq
  | .rdq _ => .rdq
  | .rdnode _ => .rdnode
  | .rdnfrq _ => .rdnfrq
  | .rdcode _ => .rdcode

/-- The format of a mnemonic (30_encoding.md R56). -/
def Mnemonic.format : Mnemonic → Format
  | .clr => .z
  | .acc => .b
  | .load => .z
  | .merge => .z
  | .build => .z
  | .gen => .z
  | .enc => .b
  | .dec => .b
  | .decend => .z
  | .rdreg => .b
  | .rdfreq => .b
  | .rdq => .b
  | .rdnode => .n
  | .rdnfrq => .n
  | .rdcode => .b

/-- One line of assembler text (30_encoding.md R64, R65): a command with its operand, if one was written, or
a pseudo-instruction. The operand is a number not yet checked against its field. -/
inductive AsmLine where
  | command (m : Mnemonic) (operand : Option Nat)
  | accs (text : List Byte)
  | encs (text : List Byte)
  | decs (text : List Byte)
  | table
  | rdstat
  deriving DecidableEq, Repr

end Sys2Proof
end

