-- ==== Sys2Proof/Decode.lean ====
section
/-! DEFINITION. Decoding and encoding of command words (30_encoding.md R55 to R60). Decoding is total on the
65536 words; a word that is no command is refused by name (steps 1 and 2 of R59). -/

namespace Sys2Proof

/-- Why a word is no command (30_encoding.md R59). -/
inductive DecodeError where
  /-- Step 1: OP = 0. -/
  | reservedOpcode
  /-- Step 2: a reserved bit is not zero. -/
  | reservedBits
  deriving DecidableEq, Repr

/-- OP = w[15:12] (30_encoding.md R55). -/
def opField (w : CmdWord) : BitVec 4 := w.extractLsb' 12 4

/-- d = w[7:0] (30_encoding.md R57). -/
def byteField (w : CmdWord) : BitVec 8 := w.extractLsb' 0 8

/-- n = w[8:0] (30_encoding.md R57). -/
def nodeField (w : CmdWord) : NodeId := w.extractLsb' 0 9

/-- Format Z: w[11:0] is reserved (30_encoding.md R56, R59 step 2). -/
def decodeZ (w : CmdWord) (i : Instr) : Except DecodeError Instr :=
  if w.extractLsb' 0 12 = 0#12 then .ok i else .error .reservedBits

/-- Format B: w[11:8] is reserved. -/
def decodeB (w : CmdWord) (mk : BitVec 8 → Instr) : Except DecodeError Instr :=
  if w.extractLsb' 8 4 = 0#4 then .ok (mk (byteField w)) else .error .reservedBits

/-- Format N: w[11:9] is reserved. -/
def decodeN (w : CmdWord) (mk : NodeId → Instr) : Except DecodeError Instr :=
  if w.extractLsb' 9 3 = 0#3 then .ok (mk (nodeField w)) else .error .reservedBits

/-- Steps 1 and 2 of 30_encoding.md R59, on the opcode map of R58. -/
def decode (w : CmdWord) : Except DecodeError Instr :=
  match (opField w).toNat with
  | 0x1 => decodeZ w .clr
  | 0x2 => decodeB w .acc
  | 0x3 => decodeZ w .load
  | 0x4 => decodeZ w .merge
  | 0x5 => decodeZ w .build
  | 0x6 => decodeZ w .gen
  | 0x7 => decodeB w .enc
  | 0x8 => decodeB w .dec
  | 0x9 => decodeZ w .decend
  | 0xA => decodeB w .rdreg
  | 0xB => decodeB w .rdfreq
  | 0xC => decodeB w .rdq
  | 0xD => decodeN w .rdnode
  | 0xE => decodeN w .rdnfrq
  | 0xF => decodeB w .rdcode
  | _ => .error .reservedOpcode

/-- The word of a command without operand: OP << 12 (30_encoding.md R56, R64). -/
def wordZ (op : BitVec 4) : CmdWord := op.setWidth 16 <<< 12

/-- The word of a command with a byte operand: OP << 12 | d. -/
def wordB (op : BitVec 4) (d : BitVec 8) : CmdWord := op.setWidth 16 <<< 12 ||| d.setWidth 16

/-- The word of a command with a node operand: OP << 12 | n. -/
def wordN (op : BitVec 4) (n : NodeId) : CmdWord := op.setWidth 16 <<< 12 ||| n.setWidth 16

/-- The word of a command (30_encoding.md R58): the opcode, zeros in the reserved bits, the operand. -/
def encode : Instr → CmdWord
  | .clr => wordZ 0x1#4
  | .acc d => wordB 0x2#4 d
  | .load => wordZ 0x3#4
  | .merge => wordZ 0x4#4
  | .build => wordZ 0x5#4
  | .gen => wordZ 0x6#4
  | .enc d => wordB 0x7#4 d
  | .dec d => wordB 0x8#4 d
  | .decend => wordZ 0x9#4
  | .rdreg d => wordB 0xA#4 d
  | .rdfreq d => wordB 0xB#4 d
  | .rdq d => wordB 0xC#4 d
  | .rdnode n => wordN 0xD#4 n
  | .rdnfrq n => wordN 0xE#4 n
  | .rdcode d => wordB 0xF#4 d

/-- The command word whose nbits lowest bits are those of w and whose other bits are 0. Every command is one
16-bit word that crosses the interface whole, so there is no byte order (20_memory.md R43). -/
def tableWord (nbits w : Nat) : CmdWord := BitVec.ofNat 16 (w % 2 ^ nbits)

/-- The command this decoder reads from a word numbered as spec/opcode_table.json numbers it. -/
def decodeTableWord (nbits w : Nat) : Option Instr :=
  match decode (tableWord nbits w) with
  | .ok i => some i
  | .error _ => none

end Sys2Proof
end

