-- ==== Sys2Proof/Machine/State.lean ====
section
/-! DEFINITION. The state: every element of 10_state.md R20 in Engine, and beside it the streams that join the
engine to its host (20_memory.md R41). Plain data throughout. -/

namespace Sys2Proof.Machine

/-- The values of PHASE (10_state.md R23). -/
inductive Phase where
  | accum
  | queued
  | coded
  | fault
  deriving DecidableEq, Repr

/-- The error kinds (60_exceptions.md R131). An error is answered and recorded; it does not stop the machine. -/
inductive ErrKind where
  | emptyAlphabet
  | emptyStructure
  | malformedTree
  | unknownSymbol
  | invalidEncoding
  | illegalCommand
  | counterOverflow
  deriving DecidableEq, Repr

/-- A valid node record (10_state.md R28; V = 1 is said by the entry being there). A flag and the field it
guards are one Option: HL, L; HR, R; HASLBL, LBL (R38: behind a clear flag there is no value). -/
structure Node where
  /-- F: the "sum of its leaves' frequencies". -/
  freq : Freq
  /-- HL and L. -/
  left : Option NodeId
  /-- HR and R. -/
  right : Option NodeId
  /-- HASLBL and LBL. -/
  label : Option Bit
  deriving DecidableEq, Repr

/-- CODE: 256 entries, each a sequence of bits whose length is LEN; the empty sequence is "no entry"
(10_state.md R30). -/
abbrev CodeTable := Vector (List Bit) 256

/-- The engine: "exactly the following elements; nothing else is state" (10_state.md R20). -/
structure Engine where
  /-- FREQ (R21). -/
  freq : Vector Freq 256
  /-- TOTAL (R22). -/
  total : Freq
  /-- Q[0..QSIZE−1]; its length is QSIZE (R26, log 3). -/
  queue : List NodeId
  /-- NODE; none is V = 0 (R28, log 4). -/
  node : Vector (Option Node) 511
  /-- NEXT (R27). -/
  next : NodeId
  /-- CODE (R30). -/
  code : CodeTable
  /-- BUF, the oldest bit first; its length is BUFLEN (R31). -/
  buf : List Bit
  /-- PHASE (R23). -/
  phase : Phase
  /-- ERR; none is 0 (R24). -/
  err : Option ErrKind
  /-- ERRCMD (R25). -/
  errCmd : CmdWord
  deriving DecidableEq, Repr

/-- A response (30_encoding.md R61). -/
structure Response where
  status : Status
  data : Data
  deriving DecidableEq, Repr

/-- What the engine puts on its two outgoing channels: an output element or a response. -/
inductive Event where
  | out (b : Byte)
  | rsp (r : Response)
  deriving DecidableEq, Repr

/-- The engine and the streams between it and its host. -/
structure State where
  engine : Engine
  /-- The command words the host presents and the engine has not taken, the next one first (log 1). -/
  cmdStream : List CmdWord
  /-- Everything the engine has sent since the run began, oldest first (20_memory.md R52, log 2). -/
  sent : List Event
  deriving DecidableEq, Repr

/-- What stops the model. Both stops are in states no run reaches (10_state.md R39 items 3 and 5), where the
spec's operation would write an entry that does not exist (log 6). -/
inductive Fault where
  /-- Raised by LOAD when Q would hold more than 256 ids: insert's precondition QSIZE < 256 (41_priority_queue.md
  R76) would fail. Safe: the hardware cannot be in such a state. -/
  | queueFull
  /-- Raised by MERGE and BUILD when a merge would write NODE[511], which names no node (10_state.md R29).
  Safe: the hardware cannot be in such a state. -/
  | nodeStoreFull
  deriving DecidableEq, Repr

/-- What the model has no meaning for. -/
inductive Refusal where
  /-- Raised by exec for a command without a meaning yet; no arm does. Safe. -/
  | notModelled (mnemonic : String)
  deriving DecidableEq, Repr

/-- The engine after hardware reset and after CLR (10_state.md R40). -/
def Engine.reset : Engine where
  freq := Vector.replicate 256 0#32
  total := 0#32
  queue := []
  node := Vector.replicate 511 none
  next := Config.firstInternal
  code := Vector.replicate 256 []
  buf := []
  phase := .accum
  err := none
  errCmd := 0#16

/-- The machine right after reset: the engine of R40, no command word presented and nothing sent. -/
def State.reset : State where
  engine := Engine.reset
  cmdStream := []
  sent := []

end Sys2Proof.Machine
end

