-- ==== Sys2Proof/Machine/Flags.lean ====
section
/-! DEFINITION. The numeric codes of PHASE and of the error kinds, and the two status views CFG and STATUS. The
hardware has no condition codes (10_state.md R36); these are all its status indications. -/

namespace Sys2Proof.Machine

/-- The 2-bit value of PHASE (10_state.md R23). -/
def Phase.code : Phase → BitVec 2
  | .accum => 0#2
  | .queued => 1#2
  | .coded => 2#2
  | .fault => 3#2

/-- The code of an error kind, in ERR and in the response's status (60_exceptions.md R131). -/
def ErrKind.code : ErrKind → Status
  | .emptyAlphabet => 1#4
  | .emptyStructure => 2#4
  | .malformedTree => 3#4
  | .unknownSymbol => 4#4
  | .invalidEncoding => 5#4
  | .illegalCommand => 6#4
  | .counterOverflow => 7#4

/-- The 4-bit value of ERR: the code, or 0 when no error was raised (10_state.md R24). -/
def Engine.errCode (e : Engine) : BitVec 4 :=
  match e.err with
  | some k => k.code
  | none => 0#4

/-- CFG, the constant register: MAXLEN in bits 31:24, FREQ_W in 23:16, ALPHABET in 15:0 (10_state.md R32). -/
def cfgRegister : Data :=
  BitVec.ofNat 32 Config.maxLen <<< 24 ||| BitVec.ofNat 32 Config.freqW <<< 16 ||| BitVec.ofNat 32 Config.alphabet

/-- STATUS, the view of PHASE in bits 1:0 and ERR in bits 7:4; its other bits are 0 (10_state.md R34). -/
def Engine.statusRegister (e : Engine) : Data :=
  e.phase.code.setWidth 32 ||| e.errCode.setWidth 32 <<< 4

end Sys2Proof.Machine
end

