-- ==== Sys2Proof/Machine/Operands.lean ====
section
/-! DEFINITION. What an operand names (30_encoding.md R57): a symbol and its leaf, a bit character, a register
number, a node id; and which operands name nothing (R59 step 5). -/

namespace Sys2Proof.Machine

/-- The 256 symbols in ascending order: the loop "for s in 0..255" (00_scope.md R10). -/
def allSymbols : List Symbol := (List.range 256).map (BitVec.ofNat 8)

/-- The id of the leaf of symbol s, s itself (10_state.md R29). -/
def leafId (s : Symbol) : NodeId := s.setWidth 9

/-- "is a leaf" is the test n < 256 (10_state.md R29). -/
def isLeaf (n : NodeId) : Bool := decide (n < Config.firstInternal)

/-- A leaf's symbol is n[7:0] (10_state.md R29). -/
def symbolOf (n : NodeId) : Symbol := n.setWidth 8

/-- char(b) = 0x30 + b (20_memory.md R45). -/
def bitChar (b : Bit) : Byte := if b then Config.char1 else Config.char0

/-- bit(c), for c in {0x30, 0x31}; no other byte is a bit character (20_memory.md R45, 45_decoder.md R115). -/
def bitOfChar (c : Byte) : Option Bit :=
  if c = Config.char0 then some false
  else if c = Config.char1 then some true
  else none

/-- Step 5 of 30_encoding.md R59: RDREG names registers 0 to 6, and node id 511 names no node. -/
def operandInRange : Instr → Bool
  | .clr => true
  | .acc _ => true
  | .load => true
  | .merge => true
  | .build => true
  | .gen => true
  | .enc _ => true
  | .dec _ => true
  | .decend => true
  | .rdreg d => decide (d ≤ 6#8)
  | .rdfreq _ => true
  | .rdq _ => true
  | .rdnode n => decide (n ≠ Config.noNode)
  | .rdnfrq n => decide (n ≠ Config.noNode)
  | .rdcode _ => true

end Sys2Proof.Machine
end

