-- ==== Sys2Proof/Machine/Ops.lean ====
section
/-! DEFINITION. The operations every command shares: reading and writing one entry of each space (20_memory.md
R41), the order of checks (30_encoding.md R59), raising an error (60_exceptions.md R130), completing, taking a
command word, and hardware reset. -/

namespace Sys2Proof.Machine

/-! ## One entry of one space -/

/-- FREQ[s]. -/
def Engine.freqOf (e : Engine) (s : Symbol) : Freq := e.freq[s.toNat]'s.isLt

/-- FREQ[s] <- v. -/
def Engine.setFreq (e : Engine) (s : Symbol) (v : Freq) : Engine :=
  { e with freq := e.freq.set s.toNat v s.isLt }

/-- NODE[n], none when V = 0; id 511 names no entry and is none too (10_state.md R28, R29). -/
def Engine.nodeAt (e : Engine) (n : NodeId) : Option Node := e.node[n.toNat]?.join

/-- NODE[n] <- the valid record r; no entry is written for id 511. -/
def Engine.setNode (e : Engine) (n : NodeId) (r : Node) : Engine :=
  { e with node := e.node.setIfInBounds n.toNat (some r) }

/-- NODE[n].F; behind V = 0 it is the free value of log 5. -/
def Engine.nodeFreq (e : Engine) (n : NodeId) : Freq :=
  match e.nodeAt n with
  | some r => r.freq
  | none => Config.staleFreq n

/-- NODE[n].HASLBL <- 1 and NODE[n].LBL <- b. The fields of an invalid entry are no state (10_state.md R38). -/
def Engine.labelNode (e : Engine) (n : NodeId) (b : Bit) : Engine :=
  match e.nodeAt n with
  | some r => e.setNode n { r with label := some b }
  | none => e

/-- CODE[s]: its BITS, whose length is LEN. -/
def Engine.codeOf (e : Engine) (s : Symbol) : List Bit := e.code[s.toNat]'s.isLt

/-- QSIZE, "number of nodes currently held": peek_size (41_priority_queue.md R78). -/
def Engine.qsize (e : Engine) : Nat := e.queue.length

/-- BUFLEN (10_state.md R31). -/
def Engine.bufLen (e : Engine) : Nat := e.buf.length

/-! ## Raising and completing -/

/-- The state an error of kind k raised by the word w leaves (60_exceptions.md R130): PHASE, ERR and ERRCMD are
written when the engine is not already in FAULT, and nothing else ever. -/
def Engine.raise (e : Engine) (k : ErrKind) (w : CmdWord) : Engine :=
  if e.phase = .fault then e
  else { e with phase := .fault, err := some k, errCmd := w }

/-- Raise k for the word w: the engine of R130, one response with the code and data 0, no output. -/
def State.raise (s : State) (k : ErrKind) (w : CmdWord) : State :=
  { s with engine := s.engine.raise k w, sent := s.sent ++ [.rsp ⟨k.code, 0#32⟩] }

/-- Complete a command: its output elements in order, then its response with status 0 (20_memory.md R52,
30_encoding.md R61). -/
def State.complete (s : State) (e : Engine) (d : Data) (out : List Byte) : State :=
  { s with engine := e, sent := s.sent ++ (out.map Event.out ++ [.rsp ⟨0#4, d⟩]) }

/-- How a command's own rule ends (00_scope.md R10). -/
inductive Effect where
  /-- ok(d), with the engine after all the command's writes and the elements it emitted. -/
  | ok (e : Engine) (d : Data) (out : List Byte)
  /-- raise k: nothing the command computed is kept (60_exceptions.md R143). -/
  | raise (k : ErrKind)
  /-- The model stops: only in states no run reaches (log 6). -/
  | stuck (f : Fault)
  deriving DecidableEq, Repr

/-! ## The order of checks -/

/-- The read-back commands (20_memory.md R48). -/
def isReadBack : Instr → Bool
  | .clr => false
  | .acc _ => false
  | .load => false
  | .merge => false
  | .build => false
  | .gen => false
  | .enc _ => false
  | .dec _ => false
  | .decend => false
  | .rdreg _ => true
  | .rdfreq _ => true
  | .rdq _ => true
  | .rdnode _ => true
  | .rdnfrq _ => true
  | .rdcode _ => true

/-- Which command is legal in which phase (46_system.md R123); the column FAULT is step 3's. -/
def legalIn (i : Instr) (p : Phase) : Bool :=
  match i with
  | .clr => true
  | .acc _ => p == .accum
  | .load => p == .accum
  | .merge => p == .queued
  | .build => p == .queued
  | .gen => p == .queued
  | .enc _ => p == .coded
  | .dec _ => p == .coded
  | .decend => p == .coded
  | .rdreg _ => true
  | .rdfreq _ => true
  | .rdq _ => true
  | .rdnode _ => true
  | .rdnfrq _ => true
  | .rdcode _ => true

/-- Steps 3, 4 and 5 of 30_encoding.md R59, the first that raises ending the command. -/
def checks (i : Instr) (p : Phase) : Option ErrKind :=
  if p = .fault ∧ i ≠ .clr ∧ isReadBack i = false then some .illegalCommand
  else if legalIn i p = false then some .illegalCommand
  else if operandInRange i = false then some .illegalCommand
  else none

/-- Perform the command i: the checks, then its own rule, `own`; then complete or raise. The word an error
records is the command's (10_state.md R25, log 7). -/
def perform (i : Instr) (own : Engine → Effect) (s : State) : Host.Outcome State Fault Refusal :=
  match checks i s.engine.phase with
  | some k => .next (s.raise k (encode i))
  | none =>
    match own s.engine with
    | .ok e d out => .next (s.complete e d out)
    | .raise k => .next (s.raise k (encode i))
    | .stuck f => .fault f

/-! ## The command stream and reset -/

/-- Take the next command word, if the host presents one. -/
def State.takeCommand (s : State) : Option (CmdWord × State) :=
  match s.cmdStream with
  | [] => none
  | w :: rest => some (w, { s with cmdStream := rest })

/-- A word that is no command raises IllegalCommand at step 1 or 2 of 30_encoding.md R59, in every phase. -/
def State.rejectWord (s : State) (w : CmdWord) : State := s.raise .illegalCommand w

/-- The host presents the word w as the next one the engine takes. -/
def State.present (s : State) (w : CmdWord) : State := { s with cmdStream := w :: s.cmdStream }

/-- Hardware reset, rst_n held low, between two commands (70_reset_and_hazards.md R160, R161): the engine is that
of R40; what was sent stays sent. It is no part of step. -/
def State.hardwareReset (s : State) : State := { s with engine := Engine.reset }

end Sys2Proof.Machine
end

