-- ==== Sys2Proof/Machine/CodeTable.lean ====
section
/-! DEFINITION. code_table_rom: the traversal, and the commands GEN and RDCODE (43_code_table.md). -/

namespace Sys2Proof.Machine

/-- T, 256 entries, every LEN = 0 (R97). -/
def emptyTable : CodeTable := Vector.replicate 256 []

/-- T[n] <- the code `path`, for a leaf n. -/
def CodeTable.record (t : CodeTable) (n : NodeId) (path : List Bit) : CodeTable :=
  t.set (symbolOf n).toNat path (symbolOf n).isLt

/-- walk(n, path) (R95), filling t; none is MalformedTree. The fuel bounds the depth; a model "may give it fuel
511 and treat exhaustion as MalformedTree" (R95, log 9). -/
def Engine.walk (e : Engine) : Nat → NodeId → List Bit → CodeTable → Option CodeTable
  | 0, _, _, _ => none
  | fuel + 1, n, path, t =>
    match e.nodeAt n with
    | none => none
    | some r =>
      if isLeaf n then some (t.record n path)
      else
        match r.left, r.right with
        | some l, some r' =>
          match Engine.walk e fuel l (path ++ [false]) t with
          | none => none
          | some t' => Engine.walk e fuel r' (path ++ [true]) t'
        | _, _ => none

/-- The table GEN makes from the root (R97): the single code "0" for a root that is a leaf (R96), else the walk. -/
def Engine.tableFrom (e : Engine) (root : NodeId) : Option CodeTable :=
  if isLeaf root then some (emptyTable.record root [false])
  else e.walk Config.nNode root [] emptyTable

/-- The number of s with T[s].LEN > 0 (R97). -/
def CodeTable.used (t : CodeTable) : Nat :=
  t.toList.countP (fun c => decide (0 < c.length))

/-- GEN's own rule (R97). -/
def genEffect (e : Engine) : Effect :=
  match e.queue with
  | [] => .raise .emptyAlphabet
  | [root] =>
    match e.tableFrom root with
    | some t => .ok { e with code := t, phase := .coded } (BitVec.ofNat 32 t.used) []
    | none => .raise .malformedTree
  | _ :: _ :: _ => .raise .illegalCommand

/-- GEN: generate the code table from the finished tree (R97). -/
def execGen (s : State) : Host.Outcome State Fault Refusal :=
  perform .gen genEffect s

/-- RDCODE d: read one code, as characters (R98). -/
def execRdcode (d : Symbol) (s : State) : Host.Outcome State Fault Refusal :=
  perform (.rdcode d)
    (fun e => .ok e (BitVec.ofNat 32 (e.codeOf d).length) ((e.codeOf d).map bitChar)) s

end Sys2Proof.Machine
end

