-- ==== Sys2Proof/Machine/Decoder.lean ====
section
/-! DEFINITION. huffman_decoder: match, and the commands DEC and DECEND (45_decoder.md). -/

namespace Sys2Proof.Machine

/-- match(b) (R110): the smallest symbol whose code is exactly b; "The empty sequence matches nothing". -/
def Engine.matchCode (e : Engine) (b : List Bit) : Option Symbol :=
  if b = [] then none
  else (e.code.toList.findIdx? (fun c => decide (c = b))).map (BitVec.ofNat 8)

/-- DEC's step for the bit x with room in the buffer (R111): on a match emit the symbol and empty the buffer,
otherwise keep the bit. -/
def decodeBit (x : Bit) (e : Engine) : Effect :=
  match e.matchCode (e.buf ++ [x]) with
  | some s => .ok { e with buf := [] } 1#32 [s]
  | none => .ok { e with buf := e.buf ++ [x] } 0#32 []

/-- DEC's own rule (R111): the character test, the buffer-full test, then the bit. -/
def decEffect (d : Byte) (e : Engine) : Effect :=
  match bitOfChar d with
  | none => .raise .invalidEncoding
  | some x => if e.bufLen = Config.maxLen then .raise .invalidEncoding else decodeBit x e

/-- DEC d: take one bit character of the encoded sequence (R111). -/
def execDec (d : Byte) (s : State) : Host.Outcome State Fault Refusal :=
  perform (.dec d) (decEffect d) s

/-- DECEND's own rule (R112). -/
def decendEffect (e : Engine) : Effect :=
  if e.bufLen = 0 then .ok e 0#32 [] else .raise .invalidEncoding

/-- DECEND: declare the encoded sequence exhausted (R112). -/
def execDecend (s : State) : Host.Outcome State Fault Refusal :=
  perform .decend decendEffect s

end Sys2Proof.Machine
end

