-- ==== Sys2Proof/Machine/Encoder.lean ====
section
/-! DEFINITION. huffman_encoder: ENC (44_encoder.md). The encoder has no state (R107). -/

namespace Sys2Proof.Machine

/-- ENC's own rule (R105). -/
def encEffect (d : Symbol) (e : Engine) : Effect :=
  if (e.codeOf d).length = 0 then .raise .unknownSymbol
  else .ok e (BitVec.ofNat 32 (e.codeOf d).length) ((e.codeOf d).map bitChar)

/-- ENC d: encode one byte (R105). -/
def execEnc (d : Symbol) (s : State) : Host.Outcome State Fault Refusal :=
  perform (.enc d) (encEffect d) s

end Sys2Proof.Machine
end

