-- ==== Sys2Proof/Machine/FrequencyAccum.lean ====
section
/-! DEFINITION. huffman_frequency_accum: ACC and RDFREQ (40_frequency_accum.md). -/

namespace Sys2Proof.Machine

/-- FREQ[d] <- FREQ[d] + 1 and TOTAL <- TOTAL + 1 (R70). -/
def Engine.countSymbol (e : Engine) (d : Symbol) : Engine :=
  { e.setFreq d (e.freqOf d + 1#32) with total := e.total + 1#32 }

/-- ACC's own rule (R70): one test on TOTAL guards both counters (R72). -/
def accEffect (d : Symbol) (e : Engine) : Effect :=
  if e.total = Config.freqMax then .raise .counterOverflow
  else .ok (e.countSymbol d) ((e.countSymbol d).freqOf d) []

/-- ACC d: count one input byte (R70). -/
def execAcc (d : Symbol) (s : State) : Host.Outcome State Fault Refusal :=
  perform (.acc d) (accEffect d) s

/-- RDFREQ d: read one counter (R71). -/
def execRdfreq (d : Symbol) (s : State) : Host.Outcome State Fault Refusal :=
  perform (.rdfreq d) (fun e => .ok e (e.freqOf d) []) s

end Sys2Proof.Machine
end

