-- ==== Sys2Proof/Machine/PriorityQueue.lean ====
section
/-! DEFINITION. priority_queue_sorter: insert and extract_min, and the commands LOAD and RDQ
(41_priority_queue.md). -/

namespace Sys2Proof.Machine

/-- Where insert puts a node of frequency f (R76): the number of entries of Q whose frequency is strictly less. -/
def Engine.insertPos (e : Engine) (f : Freq) : Nat :=
  e.queue.countP (fun m => decide (e.nodeFreq m < f))

/-- insert(n) (R76): the node stands before every entry of equal frequency (R75). -/
def Engine.insert (e : Engine) (n : NodeId) : Engine :=
  { e with
    queue := e.queue.take (e.insertPos (e.nodeFreq n)) ++ n :: e.queue.drop (e.insertPos (e.nodeFreq n)) }

/-- extract_min() (R77): the first entry and the engine without it; it "fails with EmptyStructure if none
remain". -/
def Engine.extractMin (e : Engine) : Except ErrKind (NodeId × Engine) :=
  match e.queue with
  | [] => .error .emptyStructure
  | n :: rest => .ok (n, { e with queue := rest })

/-- The record of a leaf of frequency f, still in the queue (R79). -/
def leafNode (f : Freq) : Node where
  freq := f
  left := none
  right := none
  label := none

/-- The symbols with FREQ[s] > 0, in ascending order: those LOAD's scan stops at (R79). -/
def Engine.occurring (e : Engine) : List Symbol :=
  (allSymbols.zip e.freq.toList).filterMap (fun (s, f) => if 0#32 < f then some s else none)

/-- One symbol of LOAD's loop (R79): write its leaf and insert it. -/
def Engine.loadSymbol (e : Engine) (s : Symbol) : Engine :=
  (e.setNode (leafId s) (leafNode (e.freqOf s))).insert (leafId s)

/-- LOAD's loop (R79). FREQ does not change in it, so the symbols it stops at are known at its start. -/
def Engine.loadLeaves (e : Engine) : Engine :=
  e.occurring.foldl Engine.loadSymbol e

/-- LOAD's own rule (R79). Q is empty whenever a run sends LOAD (10_state.md R39 item 3); where it is not and the
leaves do not fit, the model stops (log 6). -/
def loadEffect (e : Engine) : Effect :=
  if Config.queueCap < e.qsize + e.occurring.length then .stuck .queueFull
  else .ok { e.loadLeaves with phase := .queued } (BitVec.ofNat 32 e.loadLeaves.qsize) []

/-- LOAD: freeze the frequency table and fill the queue with one leaf per symbol that occurs (R79). -/
def execLoad (s : State) : Host.Outcome State Fault Refusal :=
  perform .load loadEffect s

/-- RDQ's data (R80): bit 31 and the node id when position d is in use, else 0. -/
def Engine.queueWord (e : Engine) (d : BitVec 8) : Data :=
  match e.queue[d.toNat]? with
  | some n => 0x80000000#32 ||| n.setWidth 32
  | none => 0#32

/-- RDQ d: read one queue position (R80). -/
def execRdq (d : BitVec 8) (s : State) : Host.Outcome State Fault Refusal :=
  perform (.rdq d) (fun e => .ok e (e.queueWord d) []) s

end Sys2Proof.Machine
end

