-- ==== Sys2Proof/Machine/Sequencer.lean ====
section
/-! DEFINITION. The command sequencer: CLR and RDREG (46_system.md). -/

namespace Sys2Proof.Machine

/-- CLR: every state element to its reset value (R120, 10_state.md R40). -/
def execClr (s : State) : Host.Outcome State Fault Refusal :=
  perform .clr (fun _ => .ok Engine.reset 0#32 []) s

/-- The registers RDREG reads, by number (10_state.md R33); unused high bits read as 0. Numbers 7 to 255 name
none. -/
def Engine.regValue (e : Engine) (d : BitVec 8) : Option Data :=
  match d.toNat with
  | 0 => some cfgRegister
  | 1 => some e.statusRegister
  | 2 => some e.total
  | 3 => some (BitVec.ofNat 32 e.qsize)
  | 4 => some (e.next.setWidth 32)
  | 5 => some (BitVec.ofNat 32 e.bufLen)
  | 6 => some (e.errCmd.setWidth 32)
  | _ => none

/-- RDREG's own rule (R121). -/
def rdregEffect (d : BitVec 8) (e : Engine) : Effect :=
  match e.regValue d with
  | some v => .ok e v []
  | none => .raise .illegalCommand

/-- RDREG d: read a control or status register by number (R121). -/
def execRdreg (d : BitVec 8) (s : State) : Host.Outcome State Fault Refusal :=
  perform (.rdreg d) (rdregEffect d) s

end Sys2Proof.Machine
end

