-- ==== Sys2Proof/Machine/TreeBuilder.lean ====
section
/-! DEFINITION. huffman_tree_builder: merge_step, and the commands MERGE, BUILD, RDNODE, RDNFRQ
(42_tree_builder.md). -/

namespace Sys2Proof.Machine

/-- The record a merge of a (left) and b (right) creates (R85). -/
def Engine.mergedNode (e : Engine) (a b : NodeId) : Node where
  freq := e.nodeFreq a + e.nodeFreq b
  left := some a
  right := some b
  label := none

/-- merge_step() after its two extractions (R85): label the children, write NODE[NEXT], advance NEXT, insert. -/
def Engine.joinNodes (e : Engine) (a b : NodeId) : Engine :=
  let labelled := (e.labelNode a false).labelNode b true
  let created := labelled.setNode e.next (labelled.mergedNode a b)
  Engine.insert { created with next := e.next + 1#9 } e.next

/-- merge_step(), one turn of the loop (R85); it fails where an extraction does. -/
def Engine.mergeStep (e : Engine) : Except ErrKind Engine :=
  match e.extractMin with
  | .error k => .error k
  | .ok (a, e1) =>
    match e1.extractMin with
    | .error k => .error k
    | .ok (b, e2) => .ok (e2.joinNodes a b)

/-- The loop "while QSIZE > 1: merge_step()" (R87), with at most `turns` turns. -/
def Engine.buildLoop : Nat → Engine → Except ErrKind Engine
  | 0, e => .ok e
  | turns + 1, e =>
    if 1 < e.qsize then
      match e.mergeStep with
      | .error k => .error k
      | .ok e' => Engine.buildLoop turns e'
    else .ok e

/-- MERGE's own rule (R86). NEXT is at most 510 whenever a run merges (10_state.md R39 item 5); at 511 there is no
entry to write and the model stops (log 6). -/
def mergeEffect (e : Engine) : Effect :=
  if e.qsize = 0 then .raise .emptyAlphabet
  else if e.qsize = 1 then .raise .emptyStructure
  else if e.next = Config.noNode then .stuck .nodeStoreFull
  else
    match e.mergeStep with
    | .ok e' => .ok e' (BitVec.ofNat 32 e'.qsize) []
    | .error k => .raise k

/-- MERGE: perform one merge (R86). -/
def execMerge (s : State) : Host.Outcome State Fault Refusal :=
  perform .merge mergeEffect s

/-- BUILD's own rule (R87): QSIZE − 1 turns, which take the ids NEXT to NEXT + QSIZE − 2. -/
def buildEffect (e : Engine) : Effect :=
  if e.qsize = 0 then .raise .emptyAlphabet
  else if 1 < e.qsize ∧ Config.nNode < e.next.toNat + (e.qsize - 1) then .stuck .nodeStoreFull
  else
    match Engine.buildLoop (e.qsize - 1) e with
    | .ok e' => .ok e' (BitVec.ofNat 32 e'.qsize) []
    | .error k => .raise k

/-- BUILD: run the builder to the end (R87). -/
def execBuild (s : State) : Host.Outcome State Fault Refusal :=
  perform .build buildEffect s

/-- RDNODE's data for a valid record (R88): V in bit 0, HL in 1, HR in 2, HASLBL in 3, LBL in 4, L in 13:5, R in
22:14, the other bits 0; a field behind a clear flag reads 0. -/
def Node.pack (r : Node) : Data :=
  1#32 |||
  (BitVec.ofBool r.left.isSome).setWidth 32 <<< 1 |||
  (BitVec.ofBool r.right.isSome).setWidth 32 <<< 2 |||
  (BitVec.ofBool r.label.isSome).setWidth 32 <<< 3 |||
  (BitVec.ofBool (r.label.getD false)).setWidth 32 <<< 4 |||
  (r.left.getD 0#9).setWidth 32 <<< 5 |||
  (r.right.getD 0#9).setWidth 32 <<< 14

/-- RDNODE's data (R88): 0 for an invalid entry. -/
def Engine.nodeWord (e : Engine) (n : NodeId) : Data :=
  match e.nodeAt n with
  | some r => r.pack
  | none => 0#32

/-- RDNFRQ's data (R89): 0 for an invalid entry. -/
def Engine.nodeFreqWord (e : Engine) (n : NodeId) : Data :=
  match e.nodeAt n with
  | some r => r.freq
  | none => 0#32

/-- RDNODE n: read a node record (R88); n = 511 raised before (30_encoding.md R59 step 5). -/
def execRdnode (n : NodeId) (s : State) : Host.Outcome State Fault Refusal :=
  perform (.rdnode n) (fun e => .ok e (e.nodeWord n) []) s

/-- RDNFRQ n: read a node's frequency (R89). -/
def execRdnfrq (n : NodeId) (s : State) : Host.Outcome State Fault Refusal :=
  perform (.rdnfrq n) (fun e => .ok e (e.nodeFreqWord n) []) s

end Sys2Proof.Machine
end

