-- ==== Sys2Proof/Machine/Dispatch.lean ====
section
/-! DEFINITION. One arm per command. -/

namespace Sys2Proof.Machine

/-- The meaning of each command. -/
def exec (i : Instr) (s : State) : Host.Outcome State Fault Refusal :=
  match i with
  | .clr => Sys2Proof.Machine.execClr s
  | .acc d => Sys2Proof.Machine.execAcc d s
  | .load => Sys2Proof.Machine.execLoad s
  | .merge => Sys2Proof.Machine.execMerge s
  | .build => Sys2Proof.Machine.execBuild s
  | .gen => Sys2Proof.Machine.execGen s
  | .enc d => Sys2Proof.Machine.execEnc d s
  | .dec d => Sys2Proof.Machine.execDec d s
  | .decend => Sys2Proof.Machine.execDecend s
  | .rdreg d => Sys2Proof.Machine.execRdreg d s
  | .rdfreq d => Sys2Proof.Machine.execRdfreq d s
  | .rdq d => Sys2Proof.Machine.execRdq d s
  | .rdnode n => Sys2Proof.Machine.execRdnode n s
  | .rdnfrq n => Sys2Proof.Machine.execRdnfrq n s
  | .rdcode d => Sys2Proof.Machine.execRdcode d s

end Sys2Proof.Machine
end

