-- ==== Sys2Proof/Machine/Step.lean ====
section
/-! DEFINITION. One step: the engine takes the next command word, decodes it and performs it (00_scope.md R3). -/

namespace Sys2Proof.Machine

/-- One step. With no word presented the engine is idle and holds its state (R3, 60_exceptions.md R153, log 1). -/
def step (s : State) : Host.Outcome State Fault Refusal :=
  match s.takeCommand with
  | none => .next s
  | some (w, s') =>
    match decode w with
    | .ok i => exec i s'
    | .error _ => .next (s'.rejectWord w)

/-- s with the word of spec/opcode_table.json's numbering presented as the next command word (log 1). -/
def State.withFetchWord (s : State) (nbits w : Nat) : State := s.present (tableWord nbits w)

end Sys2Proof.Machine
end

