-- ==== Sys2Proof/WellFormed.lean ====
section
/-! DEFINITION. What a well-formed command word is (30_encoding.md R58: by match and mask), and what a
well-formed assembler line is (R64). A term of Instr is well formed by its type: its operand has exactly the
bits of its field, so every Instr has a word. -/

namespace Sys2Proof

/-- One row of the opcode map (30_encoding.md R58). -/
structure OpcodeRow where
  mnemonic : Mnemonic
  matchBits : CmdWord
  mask : CmdWord
  deriving DecidableEq, Repr

/-- The opcode map (30_encoding.md R58), row for row. -/
def opcodeMap : List OpcodeRow :=
  [⟨.clr, 0x1000#16, 0xFFFF#16⟩,
   ⟨.acc, 0x2000#16, 0xFF00#16⟩,
   ⟨.load, 0x3000#16, 0xFFFF#16⟩,
   ⟨.merge, 0x4000#16, 0xFFFF#16⟩,
   ⟨.build, 0x5000#16, 0xFFFF#16⟩,
   ⟨.gen, 0x6000#16, 0xFFFF#16⟩,
   ⟨.enc, 0x7000#16, 0xFF00#16⟩,
   ⟨.dec, 0x8000#16, 0xFF00#16⟩,
   ⟨.decend, 0x9000#16, 0xFFFF#16⟩,
   ⟨.rdreg, 0xA000#16, 0xFF00#16⟩,
   ⟨.rdfreq, 0xB000#16, 0xFF00#16⟩,
   ⟨.rdq, 0xC000#16, 0xFF00#16⟩,
   ⟨.rdnode, 0xD000#16, 0xFE00#16⟩,
   ⟨.rdnfrq, 0xE000#16, 0xFE00#16⟩,
   ⟨.rdcode, 0xF000#16, 0xFF00#16⟩]

/-- "a word w is a well-formed instance of the row exactly when w & mask = match" (30_encoding.md R58). -/
def OpcodeRow.holds (row : OpcodeRow) (w : CmdWord) : Bool :=
  w &&& row.mask == row.matchBits

/-- A well-formed command word: an instance of some row. -/
def wellFormedWord (w : CmdWord) : Bool :=
  opcodeMap.any (·.holds w)

/-- The number of values an operand field holds: none for format Z, 8 bits for B, 9 bits for N. -/
def Format.operandBound : Format → Option Nat
  | .z => none
  | .b => some 256
  | .n => some 512

/-- An assembler line is well formed when its operand is there exactly where the format has one, and fits the
field: "An operand that does not fit the format's field … is an assembly error" (30_encoding.md R64). -/
def AsmLine.wellFormed : AsmLine → Bool
  | .command m operand =>
    match m.format.operandBound, operand with
    | none, none => true
    | some bound, some v => decide (v < bound)
    | none, some _ => false
    | some _, none => false
  | .accs _ => true
  | .encs _ => true
  | .decs _ => true
  | .table => true
  | .rdstat => true

end Sys2Proof
end

