-- ==== Sys2Proof/Machine/Assembler.lean ====
section
/-! DEFINITION. The assembler text form and its pseudo-instructions (30_encoding.md R64, R65): a tool of the host,
no part of the engine. Text is a list of characters; none is an assembly error. -/

namespace Sys2Proof.Machine

/-- The name a mnemonic has in the text, in capitals (R64). -/
def mnemonicName : Mnemonic → List Char
  | .clr => ['C', 'L', 'R']
  | .acc => ['A', 'C', 'C']
  | .load => ['L', 'O', 'A', 'D']
  | .merge => ['M', 'E', 'R', 'G', 'E']
  | .build => ['B', 'U', 'I', 'L', 'D']
  | .gen => ['G', 'E', 'N']
  | .enc => ['E', 'N', 'C']
  | .dec => ['D', 'E', 'C']
  | .decend => ['D', 'E', 'C', 'E', 'N', 'D']
  | .rdreg => ['R', 'D', 'R', 'E', 'G']
  | .rdfreq => ['R', 'D', 'F', 'R', 'E', 'Q']
  | .rdq => ['R', 'D', 'Q']
  | .rdnode => ['R', 'D', 'N', 'O', 'D', 'E']
  | .rdnfrq => ['R', 'D', 'N', 'F', 'R', 'Q']
  | .rdcode => ['R', 'D', 'C', 'O', 'D', 'E']

/-- OP of a mnemonic (30_encoding.md R58). -/
def opcodeOf : Mnemonic → Nat
  | .clr => 0x1
  | .acc => 0x2
  | .load => 0x3
  | .merge => 0x4
  | .build => 0x5
  | .gen => 0x6
  | .enc => 0x7
  | .dec => 0x8
  | .decend => 0x9
  | .rdreg => 0xA
  | .rdfreq => 0xB
  | .rdq => 0xC
  | .rdnode => 0xD
  | .rdnfrq => 0xE
  | .rdcode => 0xF

/-- The mnemonics, in the order of the opcode map. -/
def allMnemonics : List Mnemonic :=
  [.clr, .acc, .load, .merge, .build, .gen, .enc, .dec, .decend, .rdreg, .rdfreq, .rdq, .rdnode, .rdnfrq, .rdcode]

/-- The words of a line: "The assembled word is OP << 12 | operand" (R64); a pseudo-instruction "expands … to a
fixed sequence of commands" (R65). -/
def asmWords (line : AsmLine) : Option (List CmdWord) :=
  if line.wellFormed then
    match line with
    | .command m operand => some [BitVec.ofNat 16 (opcodeOf m <<< 12 ||| operand.getD 0)]
    | .accs text => some (text.map (fun b => encode (.acc b)))
    | .encs text => some (text.map (fun b => encode (.enc b)))
    | .decs text => some (text.map (fun b => encode (.dec b)))
    | .table => some [encode .load, encode .build, encode .gen]
    | .rdstat => some [encode (.rdreg 1#8)]
  else none

/-! ## Reading the text -/

/-- Drop blanks: spaces, tabs and carriage returns (DESIGN CHOICE, log 14). -/
def skipBlanks : List Char → List Char
  | [] => []
  | c :: rest => if c = ' ' ∨ c = '\t' ∨ c = '\r' then skipBlanks rest else c :: rest

/-- Nothing is left but a comment: "A semicolon starts a comment that runs to the end of the line". -/
def atEnd (text : List Char) : Bool :=
  match skipBlanks text with
  | [] => true
  | c :: _ => c == ';'

/-- The value of a character as a byte. -/
def byteOfChar (c : Char) : Option Byte :=
  if c.toNat < 256 then some (BitVec.ofNat 8 c.toNat) else none

/-- The value of a digit in the base 10 or 16. A hexadecimal digit may be a capital or a small letter, in a numeral
and in \xHH: R64 and R65 do not say (DESIGN CHOICE, log 14). -/
def digitValue (base : Nat) (c : Char) : Option Nat :=
  let v :=
    if '0'.toNat ≤ c.toNat ∧ c.toNat ≤ '9'.toNat then c.toNat - '0'.toNat
    else if 'A'.toNat ≤ c.toNat ∧ c.toNat ≤ 'F'.toNat then c.toNat - 'A'.toNat + 10
    else if 'a'.toNat ≤ c.toNat ∧ c.toNat ≤ 'f'.toNat then c.toNat - 'a'.toNat + 10
    else 99
  if v < base then some v else none

/-- A run of digits, the value so far in `acc`. -/
def digitsValue (base : Nat) : Nat → List Char → Option Nat
  | acc, [] => some acc
  | acc, c :: rest =>
    match digitValue base c with
    | some v => digitsValue base (acc * base + v) rest
    | none => none

/-- A decimal or hexadecimal numeral (R64). The x of 0x is a small letter, and leading zeros are allowed
(DESIGN CHOICE, log 14). -/
def numeralValue : List Char → Option Nat
  | [] => none
  | '0' :: 'x' :: d :: rest => digitsValue 16 0 (d :: rest)
  | c :: rest => digitsValue 10 0 (c :: rest)

/-- The body of a string and what follows its closing quote: \xHH is the byte HH, "every other character stands
for its own byte value" (R65). What a quote, a backslash without \xHH and a character above 255 are is a DESIGN CHOICE
(log 14). -/
def stringBody : List Char → Option (List Byte × List Char)
  | [] => none
  | '"' :: rest => some ([], rest)
  | '\\' :: 'x' :: h :: l :: rest =>
    match digitValue 16 h, digitValue 16 l with
    | some hv, some lv => (stringBody rest).map (fun (bs, r) => (BitVec.ofNat 8 (hv * 16 + lv) :: bs, r))
    | _, _ => (stringBody ('x' :: h :: l :: rest)).map (fun (bs, r) => (0x5C#8 :: bs, r))
  | c :: rest =>
    match byteOfChar c with
    | some b => (stringBody rest).map (fun (bs, r) => (b :: bs, r))
    | none => none

/-- The letters a line begins with, and the rest: a line's name is the longest run of capitals it begins with
(DESIGN CHOICE, log 14). -/
def leadingName : List Char → List Char × List Char
  | [] => ([], [])
  | c :: rest =>
    if 'A'.toNat ≤ c.toNat ∧ c.toNat ≤ 'Z'.toNat then
      let (name, after) := leadingName rest
      (c :: name, after)
    else ([], c :: rest)

/-- The characters of a numeral, and the rest. -/
def leadingNumeral : List Char → List Char × List Char
  | [] => ([], [])
  | c :: rest =>
    if (digitValue 16 c).isSome ∨ c = 'x' then
      let (num, after) := leadingNumeral rest
      (c :: num, after)
    else ([], c :: rest)

/-- A command's operand, if there is one, with nothing but blanks or a comment after it (R64, log 14). -/
def readOperand (text : List Char) : Option (Option Nat) :=
  if atEnd text then some none
  else
    match skipBlanks text with
    | '\'' :: c :: '\'' :: rest =>
      if atEnd rest then (byteOfChar c).map (fun b => some b.toNat) else none
    | other =>
      if atEnd (leadingNumeral other).2 then (numeralValue (leadingNumeral other).1).map some else none

/-- A pseudo-instruction's string, with nothing but blanks or a comment after it (R65, log 14). -/
def readString (text : List Char) : Option (List Byte) :=
  match skipBlanks text with
  | '"' :: rest =>
    match stringBody rest with
    | some (bytes, after) => if atEnd after then some bytes else none
    | none => none
  | _ => none

/-- A line that is not blank: its name, then its operand. R64 says "a mnemonic … then … one operand" and not whether
a blank must separate them; here none need (DESIGN CHOICE, log 14). -/
def readNamed (name text : List Char) : Option AsmLine :=
  match allMnemonics.find? (fun m => mnemonicName m == name) with
  | some m => (readOperand text).map (.command m)
  | none =>
    if name = ['A', 'C', 'C', 'S'] then (readString text).map .accs
    else if name = ['E', 'N', 'C', 'S'] then (readString text).map .encs
    else if name = ['D', 'E', 'C', 'S'] then (readString text).map .decs
    else if name = ['T', 'A', 'B', 'L', 'E'] ∧ atEnd text then some .table
    else if name = ['R', 'D', 'S', 'T', 'A', 'T'] ∧ atEnd text then some .rdstat
    else none

/-- One line of text and its words; "Blank lines are ignored" (R64). Blanks may stand before the mnemonic
(DESIGN CHOICE, log 14). -/
def assembleLine (text : List Char) : Option (List CmdWord) :=
  if atEnd text then some []
  else
    match readNamed (leadingName (skipBlanks text)).1 (leadingName (skipBlanks text)).2 with
    | some line => asmWords line
    | none => none

/-- The lines of a text. -/
def splitLines : List Char → List (List Char)
  | [] => [[]]
  | c :: rest =>
    if c = '\n' then [] :: splitLines rest
    else
      match splitLines rest with
      | [] => [[c]]
      | line :: more => (c :: line) :: more

/-- The words of a program, one command per line (R64). One line in error and there are none (DESIGN CHOICE,
log 14). -/
def assemble (text : List Char) : Option (List CmdWord) :=
  (splitLines text).foldr
    (fun line words => (assembleLine line).bind (fun ws => words.map (ws ++ ·))) (some [])

end Sys2Proof.Machine
end

