-- ==== Sys2Proof/Safety.lean ====
section
/-! DEFINITION. What a sound state is: the invariants of 10_state.md R39 and 41_priority_queue.md R82, item by
item; and the words the claims use for how a command ends. -/

namespace Sys2Proof.Machine

/-! ## How a command ended -/

/-- From s to t one command completed: it sent its output elements in order and then one response with status 0,
and took nothing more from the command stream (30_encoding.md R61, 20_memory.md R52). -/
def Completed (s t : State) (d : Data) (out : List Byte) : Prop :=
  t.cmdStream = s.cmdStream ∧ t.sent = s.sent ++ (out.map Event.out ++ [.rsp ⟨0#4, d⟩])

/-- From s to t one command raised k, recorded with the word w (60_exceptions.md R130): one response with the
code and data 0, no output; outside FAULT the engine changes in PHASE, ERR and ERRCMD only, in FAULT not at all. -/
def Raised (s t : State) (k : ErrKind) (w : CmdWord) : Prop :=
  t.cmdStream = s.cmdStream ∧ t.sent = s.sent ++ [.rsp ⟨k.code, 0#32⟩] ∧
  (s.engine.phase = .fault → t.engine = s.engine) ∧
  (s.engine.phase ≠ .fault → t.engine = { s.engine with phase := .fault, err := some k, errCmd := w })

/-- The elements of the output stream sent so far (20_memory.md R41). -/
def State.outStream (s : State) : List Byte :=
  s.sent.filterMap (fun | .out b => some b | .rsp _ => none)

/-- The responses sent so far (20_memory.md R41). -/
def State.rspStream (s : State) : List Response :=
  s.sent.filterMap (fun | .out _ => none | .rsp r => some r)

/-! ## The tree as a reader walks it -/

/-- The node reached from n by a sequence of edge labels: left on 0, right on 1 (43_code_table.md R95). -/
def Engine.follow (e : Engine) : NodeId → List Bit → Option NodeId
  | n, [] => some n
  | n, b :: rest =>
    match e.nodeAt n with
    | none => none
    | some r =>
      match (if b then r.right else r.left) with
      | none => none
      | some child => Engine.follow e child rest

/-- The ids given out to internal nodes so far, 256 to NEXT − 1 (10_state.md R27). -/
def Engine.internalIds (e : Engine) : List NodeId :=
  (List.range (e.next.toNat - 256)).map (fun k => BitVec.ofNat 9 (256 + k))

/-- The L and R of the node n. -/
def Engine.childrenOf (e : Engine) (n : NodeId) : List NodeId :=
  match e.nodeAt n with
  | none => []
  | some r => r.left.toList ++ r.right.toList

/-- n0, the number of distinct symbols counted (10_state.md R39). -/
def Engine.distinct (e : Engine) : Nat :=
  e.freq.toList.countP (fun f => decide (0#32 < f))

/-! ## The items of R39 -/

/-- Item 1: TOTAL = FREQ[0] + … + FREQ[255], as numbers. -/
def Engine.TotalIsSum (e : Engine) : Prop :=
  e.total.toNat = (e.freq.toList.map BitVec.toNat).sum

/-- Item 2: ERR = 0 exactly when PHASE ≠ FAULT, and ERRCMD = 0 when ERR = 0. -/
def Engine.ErrorRecorded (e : Engine) : Prop :=
  (e.err = none ↔ e.phase ≠ .fault) ∧ (e.err = none → e.errCmd = 0#16)

/-- Item 3, until LOAD has run. -/
def Engine.NotLoaded (e : Engine) : Prop :=
  e.queue = [] ∧ e.next = 256#9 ∧ e.node = Vector.replicate 511 none ∧
  e.code = Vector.replicate 256 [] ∧ e.buf = []

/-- Item 4: the leaf of s is valid exactly when FREQ[s] > 0, and then it carries that frequency and no child. -/
def Engine.LeavesMatch (e : Engine) : Prop :=
  (∀ s : Symbol, 0#32 < e.freqOf s →
    ∃ r ∈ e.nodeAt (leafId s), r.freq = e.freqOf s ∧ r.left = none ∧ r.right = none) ∧
  ∀ s : Symbol, e.freqOf s = 0#32 → e.nodeAt (leafId s) = none

/-- Item 5: QSIZE + (NEXT − 256) = n0, and QSIZE ≥ 1 when n0 ≥ 1. -/
def Engine.CountsMatch (e : Engine) : Prop :=
  256 ≤ e.next.toNat ∧ e.qsize + (e.next.toNat - 256) = e.distinct ∧ (1 ≤ e.distinct → 1 ≤ e.qsize)

/-- Item 6 for one internal id n < NEXT. -/
def Engine.InternalOk (e : Engine) (n : NodeId) : Prop :=
  ∃ r ∈ e.nodeAt n, ∃ a ∈ r.left, ∃ b ∈ r.right,
    a < n ∧ b < n ∧ a ≠ b ∧
    (e.nodeAt a).bind Node.label = some false ∧ (e.nodeAt b).bind Node.label = some true ∧
    r.freq.toNat = (e.nodeFreq a).toNat + (e.nodeFreq b).toNat

/-- Item 6: the internal ids below NEXT are whole, those from NEXT on are not valid. -/
def Engine.InternalsMatch (e : Engine) : Prop :=
  (∀ n ∈ e.internalIds, e.InternalOk n) ∧ ∀ n : NodeId, e.next ≤ n → e.nodeAt n = none

/-- The ids in Q and the children of the internal nodes, together. -/
def Engine.placed (e : Engine) : List NodeId :=
  e.queue ++ e.internalIds.flatMap e.childrenOf

/-- Item 7: the entries of Q are valid and unlabelled; every valid node is in Q or the child of exactly one
internal node, never both. -/
def Engine.TreeShape (e : Engine) : Prop :=
  (∀ n ∈ e.queue, (e.nodeAt n).map Node.label = some none) ∧ e.placed.Nodup ∧
  ∀ n : NodeId, (e.nodeAt n).isSome ↔ n ∈ e.placed

/-- m stands before n in the closed form of the order: F ascending, then id descending (41_priority_queue.md R82). -/
def Engine.before (e : Engine) (m n : NodeId) : Prop :=
  e.nodeFreq m < e.nodeFreq n ∨ (e.nodeFreq m = e.nodeFreq n ∧ n < m)

/-- Item 8, with R82: Q is sorted, its frequencies sum to TOTAL, and every valid node has 0 < F ≤ TOTAL. -/
def Engine.QueueSorted (e : Engine) : Prop :=
  e.queue.Pairwise e.before ∧ (e.queue.map (fun n => (e.nodeFreq n).toNat)).sum = e.total.toNat ∧
  ∀ n : NodeId, ∀ r ∈ e.nodeAt n, 0#32 < r.freq ∧ r.freq ≤ e.total

/-- Items 4 to 8, once LOAD has run. -/
def Engine.TreeInv (e : Engine) : Prop :=
  e.LeavesMatch ∧ e.CountsMatch ∧ e.InternalsMatch ∧ e.TreeShape ∧ e.QueueSorted

/-- No code of a symbol is a first part of another symbol's code (43_code_table.md R99 item b). -/
def Engine.CodesPrefixFree (e : Engine) : Prop :=
  ∀ s s' : Symbol, s ≠ s' → e.codeOf s ≠ [] → e.codeOf s' ≠ [] → ¬ e.codeOf s <+: e.codeOf s'

/-- Item 9: one node is left in Q, CODE is the table of its tree, exactly the symbols counted have a code, the
codes are prefix-free and at most 255 bits long. -/
def Engine.TableInv (e : Engine) : Prop :=
  e.qsize = 1 ∧ (∀ root ∈ e.queue, e.tableFrom root = some e.code) ∧
  (∀ s : Symbol, e.codeOf s ≠ [] ↔ 0#32 < e.freqOf s) ∧ e.CodesPrefixFree ∧
  ∀ s : Symbol, (e.codeOf s).length ≤ 255

/-- Item 10: BUF is unmatched. No code is BUF or a first part of BUF, since a match empties it at once
(45_decoder.md R111), and it holds at most 255 bits. -/
def Engine.BufferUnmatched (e : Engine) : Prop :=
  e.buf.length ≤ 255 ∧ ∀ s : Symbol, e.codeOf s ≠ [] → ¬ e.codeOf s <+: e.buf

/-- What a run that has come as far as phase p has made; there is nothing between CODED and FAULT. -/
def Engine.StageInv (e : Engine) : Phase → Prop
  | .accum => e.NotLoaded
  | .queued => e.TreeInv ∧ e.code = Vector.replicate 256 [] ∧ e.buf = []
  | .coded => e.TreeInv ∧ e.TableInv ∧ e.BufferUnmatched
  | .fault => False

/-- The invariant of every state a run reaches (10_state.md R39, R82). In FAULT the engine is frozen in what an
earlier phase made. -/
def Engine.Inv (e : Engine) : Prop :=
  e.TotalIsSum ∧ e.ErrorRecorded ∧
  (e.StageInv e.phase ∨
    (e.phase = .fault ∧ (e.StageInv .accum ∨ e.StageInv .queued ∨ e.StageInv .coded)))

/-- A sound state: its engine meets the invariant. The streams are the host's and meet none. -/
def State.Inv (s : State) : Prop := s.engine.Inv

end Sys2Proof.Machine
end

