-- ==== Sys2Proof/Certificates/Slice0/Obligations.lean ====
section
/-! DEFINITION. The statements for the provers. Each docstring names the rules of spec/ it formalises. `Completed`,
`Raised` and `Engine.Inv` are defined in Safety.lean. -/

open Sys2Proof Sys2Proof.Machine

/-! ## Encoding -/

/-- Decoding the word of a command gives the command back, with every operand at every value (30_encoding.md R57,
R58, R59). -/
def Obligations.DecodeInvertsEncode : Prop :=
  ∀ i : Instr, decode (encode i) = .ok i

/-- A word that decodes is the word of the command it decodes to, so no bit of it is dropped, and ERRCMD, written
from the command, is the command word itself (30_encoding.md R59, 10_state.md R25; log 7). -/
def Obligations.EncodeInvertsDecode : Prop :=
  ∀ (w : CmdWord) (i : Instr), decode w = .ok i → encode i = w

/-- Match and mask of the opcode map say exactly which words decode and to which mnemonic; each word selects at
most one row, and a word of no row is refused (30_encoding.md R58, R59). -/
def Obligations.DecodeFollowsOpcodeMap : Prop :=
  (∀ (w : CmdWord), ∀ row ∈ opcodeMap,
    (w &&& row.mask = row.matchBits ↔ ∃ i, decode w = .ok i ∧ i.mnemonic = row.mnemonic)) ∧
  (∀ (w : CmdWord), ∀ row ∈ opcodeMap, ∀ row' ∈ opcodeMap,
    w &&& row.mask = row.matchBits → w &&& row'.mask = row'.matchBits → row = row') ∧
  (∀ w : CmdWord, (∀ row ∈ opcodeMap, w &&& row.mask ≠ row.matchBits) ↔ ∃ x, decode w = .error x)

/-- A few words written out from the formats and the opcode map decode to the commands they stand for
(30_encoding.md R56, R58, R64). -/
def Obligations.WordsDecodeAsWritten : Prop :=
  decode 0b0001000000000000#16 = .ok .clr ∧ decode 0b0010000001100001#16 = .ok (.acc 0x61#8) ∧
  decode 0b0011000000000000#16 = .ok .load ∧ decode 0b0110000000000000#16 = .ok .gen ∧
  decode 0b0111000001111010#16 = .ok (.enc 0x7A#8) ∧ decode 0b1000000000110001#16 = .ok (.dec 0x31#8) ∧
  decode 0b1010000000000001#16 = .ok (.rdreg 1#8) ∧ decode 0b1101000100000000#16 = .ok (.rdnode 256#9) ∧
  decode 0b0000000000000000#16 = .error .reservedOpcode ∧
  decode 0b0001000000000001#16 = .error .reservedBits ∧ decode 0b1101001000000000#16 = .error .reservedBits

/-- Opcode 0 is reserved: every word with w[15:12] = 0, the all-zero word among them, raises IllegalCommand in
every phase, recorded with the word (46_system.md R122). -/
def Obligations.ReservedOpcodeRaises : Prop :=
  (∀ (s : State) (w : CmdWord), w.extractLsb' 12 4 = 0#4 →
    decode w = .error .reservedOpcode ∧
    ∃ t, step (s.present w) = .next t ∧ Raised s t .illegalCommand w) ∧
  ∃ t, step (State.reset.present 0x0000#16) = .next t ∧ t.sent = [.rsp ⟨6#4, 0#32⟩] ∧
    t.engine.phase = .fault ∧ t.engine.err = some .illegalCommand ∧ t.engine.errCmd = 0x0000#16

/-- A bit set in the reserved part of the word raises IllegalCommand in every phase and acts in no other way: bits
11:0 for format Z, 11:8 for format B, 11:9 for format N (30_encoding.md R56, R59 step 2, R60). -/
def Obligations.ReservedBitsRaise : Prop :=
  ∀ (s : State) (w : CmdWord),
    ((w.extractLsb' 12 4 ∈ [0x1#4, 0x3#4, 0x4#4, 0x5#4, 0x6#4, 0x9#4] ∧ w.extractLsb' 0 12 ≠ 0#12) ∨
     (w.extractLsb' 12 4 ∈ [0x2#4, 0x7#4, 0x8#4, 0xA#4, 0xB#4, 0xC#4, 0xF#4] ∧ w.extractLsb' 8 4 ≠ 0#4) ∨
     (w.extractLsb' 12 4 ∈ [0xD#4, 0xE#4] ∧ w.extractLsb' 9 3 ≠ 0#3)) →
    ∃ t, step (s.present w) = .next t ∧ Raised s t .illegalCommand w

/-- When the word the host presents next decodes to a command, the step takes that word and is the command's
meaning on the state without it; with no word presented the step changes nothing, since the engine never acts on its
own (00_scope.md R3, 30_encoding.md R59; that there is a step with no word at all is the model's choice, log 1). -/
def Obligations.StepRunsDecodedCommand : Prop :=
  (∀ (s : State) (w : CmdWord) (rest : List CmdWord) (i : Instr),
    s.cmdStream = w :: rest → decode w = .ok i → step s = exec i { s with cmdStream := rest }) ∧
  ∀ s : State, s.cmdStream = [] → step s = .next s

/-! ## Reset, CLR and the registers -/

/-- The value of every element after hardware reset and after CLR, element by element (10_state.md R40). -/
def Obligations.ResetAndClrValues : Prop :=
  (∀ e : Engine,
    (e = State.reset.engine ∨ (∃ s : State, e = s.hardwareReset.engine) ∨
      ∃ s t : State, exec .clr s = .next t ∧ e = t.engine) →
    (∀ x, e.freqOf x = 0#32) ∧ e.total = 0#32 ∧ e.phase = .accum ∧ e.phase.code = 0#2 ∧ e.err = none ∧
    e.errCode = 0#4 ∧ e.errCmd = 0#16 ∧ e.qsize = 0 ∧ e.next = 256#9 ∧ (∀ n, e.nodeAt n = none) ∧
    (∀ x, (e.codeOf x).length = 0) ∧ e.bufLen = 0 ∧ e.buf = [] ∧ cfgRegister = 0xFF200100#32 ∧
    e.statusRegister = 0#32)

/-- CLR completes in every state, answers 0, emits nothing, and leaves exactly the engine hardware reset leaves
(46_system.md R120, 70_reset_and_hazards.md R160). -/
def Obligations.ClrStartsNewRun : Prop :=
  encode .clr = 0x1000#16 ∧
  ∀ s : State, ∃ t, exec .clr s = .next t ∧ Completed s t 0#32 [] ∧ t.engine = s.hardwareReset.engine ∧
    t.engine = State.reset.engine

/-- STATUS, register 1: PHASE in bits 1:0, ERR in bits 7:4, the other bits 0; the values after reset, after LOAD
and GEN without error, and after EmptyAlphabet and InvalidEncoding (10_state.md R34). -/
def Obligations.StatusShowsPhaseAndErr : Prop :=
  (∀ s : State, ∃ t, exec (.rdreg 1#8) s = .next t ∧ t.engine = s.engine ∧ ∃ v, Completed s t v [] ∧
    v.extractLsb' 0 2 = s.engine.phase.code ∧ v.extractLsb' 2 2 = 0#2 ∧ v.extractLsb' 4 4 = s.engine.errCode ∧
    v.extractLsb' 8 24 = 0#24) ∧
  (∀ e : Engine, e.err = none → e.phase = .accum → e.statusRegister = 0x00#32) ∧
  (∀ e : Engine, e.err = none → e.phase = .queued → e.statusRegister = 0x01#32) ∧
  (∀ e : Engine, e.err = none → e.phase = .coded → e.statusRegister = 0x02#32) ∧
  (∀ e : Engine, e.err = some .emptyAlphabet → e.phase = .fault → e.statusRegister = 0x13#32) ∧
  ∀ e : Engine, e.err = some .invalidEncoding → e.phase = .fault → e.statusRegister = 0x53#32

/-- RDREG answers registers 0 to 6 in every phase and changes nothing; CFG holds ALPHABET, FREQ_W and MAXLEN; any
other number raises IllegalCommand (46_system.md R121, 10_state.md R32, R33). -/
def Obligations.RdregReadsRegister : Prop :=
  (∀ d : BitVec 8, encode (.rdreg d) = 0xA000#16 ||| d.setWidth 16) ∧
  cfgRegister.extractLsb' 0 16 = 256#16 ∧ cfgRegister.extractLsb' 16 8 = 32#8 ∧
  cfgRegister.extractLsb' 24 8 = 255#8 ∧
  (∀ (s : State) (d : BitVec 8) (v : Data),
    (d, v) ∈ [(0#8, 0xFF200100#32), (1#8, s.engine.statusRegister), (2#8, s.engine.total),
      (3#8, BitVec.ofNat 32 s.engine.queue.length), (4#8, s.engine.next.setWidth 32),
      (5#8, BitVec.ofNat 32 s.engine.buf.length), (6#8, s.engine.errCmd.setWidth 32)] →
    ∃ t, exec (.rdreg d) s = .next t ∧ Completed s t v [] ∧ t.engine = s.engine) ∧
  ∀ (s : State) (d : BitVec 8), 6#8 < d →
    ∃ t, exec (.rdreg d) s = .next t ∧ Raised s t .illegalCommand (0xA000#16 ||| d.setWidth 16)

/-! ## The frequency accumulator -/

/-- ACC d in phase ACCUM with TOTAL below its largest value adds 1 to FREQ[d] and to TOTAL, answers the new count
and emits nothing; every other counter and every other element is unchanged (40_frequency_accum.md R70). -/
def Obligations.AccCountsOneByte : Prop :=
  (∀ d : Symbol, encode (.acc d) = 0x2000#16 ||| d.setWidth 16) ∧
  ∀ (d : Symbol) (s : State), s.engine.phase = .accum → s.engine.total ≠ 0xFFFFFFFF#32 →
    ∃ t, exec (.acc d) s = .next t ∧ Completed s t (s.engine.freqOf d + 1#32) [] ∧
      t.engine.freqOf d = s.engine.freqOf d + 1#32 ∧
      (∀ x, x ≠ d → t.engine.freqOf x = s.engine.freqOf x) ∧ t.engine.total = s.engine.total + 1#32 ∧
      t.engine = { s.engine with freq := t.engine.freq, total := t.engine.total }

/-- No counter wraps and none saturates: with TOTAL the sum of the counters, ACC at TOTAL = 2^32 − 1 raises
CounterOverflow, code 7, and counts nothing; below it both counts rise by exactly 1 as numbers, and one test on
TOTAL is enough for both (40_frequency_accum.md R72). -/
def Obligations.CountersAreExact : Prop :=
  ∀ (d : Symbol) (s : State), s.engine.phase = .accum → s.engine.TotalIsSum →
    (s.engine.total.toNat = 2 ^ 32 - 1 →
      ∃ t, exec (.acc d) s = .next t ∧ Raised s t .counterOverflow (0x2000#16 ||| d.setWidth 16) ∧
        t.sent = s.sent ++ [.rsp ⟨7#4, 0#32⟩] ∧ t.engine.freq = s.engine.freq ∧
        t.engine.total = s.engine.total ∧ t.engine.phase = .fault) ∧
    (s.engine.total.toNat ≠ 2 ^ 32 - 1 →
      (s.engine.freqOf d).toNat ≤ s.engine.total.toNat ∧ s.engine.total.toNat ≤ 2 ^ 32 - 2 ∧
      ∃ t, exec (.acc d) s = .next t ∧ Completed s t (t.engine.freqOf d) [] ∧
        (t.engine.freqOf d).toNat = (s.engine.freqOf d).toNat + 1 ∧
        t.engine.total.toNat = s.engine.total.toNat + 1)

/-- RDFREQ d answers FREQ[d] in every phase and changes nothing; after CLR it answers 0
(40_frequency_accum.md R71). -/
def Obligations.RdfreqReadsCounter : Prop :=
  (∀ d : Symbol, encode (.rdfreq d) = 0xB000#16 ||| d.setWidth 16) ∧
  (∀ (d : Symbol) (s : State), ∃ t, exec (.rdfreq d) s = .next t ∧ Completed s t (s.engine.freqOf d) [] ∧
    t.engine = s.engine) ∧
  ∀ (d : Symbol) (s t : State), exec .clr s = .next t →
    ∃ u, exec (.rdfreq d) t = .next u ∧ Completed t u 0#32 []

/-- The counts depend on how often each byte was sent, not on the order: after the ACC commands of a list of bytes,
each counter has risen by the number of times its byte stands in the list, and any reordering of the list leaves the
same engine (40_frequency_accum.md R70, 10_state.md R21). -/
def Obligations.CountingIsOrderFree : Prop :=
  ∀ (s : State) (bytes bytes' : List Byte), bytes.Perm bytes' → s.engine.phase = .accum → s.engine.TotalIsSum →
    s.engine.total.toNat + bytes.length ≤ 2 ^ 32 - 1 →
    ∃ t t' : State,
      Host.Core.run core bytes.length { s with cmdStream := bytes.map (fun b => encode (.acc b)) } = .next t ∧
      Host.Core.run core bytes'.length { s with cmdStream := bytes'.map (fun b => encode (.acc b)) } = .next t' ∧
      t.engine = t'.engine ∧ t.engine.phase = .accum ∧
      ∀ x : Symbol, (t.engine.freqOf x).toNat = (s.engine.freqOf x).toNat + bytes.count x

/-! ## The priority queue -/

/-- insert(n) in a sorted queue: the node goes to position p, the number of entries of strictly smaller frequency;
every entry before it is smaller and every entry from it on is not, so it stands before all its equals; the queue
stays sorted and no other element changes (41_priority_queue.md R75, R76). -/
def Obligations.InsertKeepsOrderNewestFirst : Prop :=
  ∀ (e : Engine) (n : NodeId), e.queue.Pairwise (fun a b => e.nodeFreq a ≤ e.nodeFreq b) →
    ∃ p, p = e.queue.countP (fun m => decide (e.nodeFreq m < e.nodeFreq n)) ∧ p ≤ e.queue.length ∧
      (∀ m ∈ e.queue.take p, e.nodeFreq m < e.nodeFreq n) ∧
      (∀ m ∈ e.queue.drop p, e.nodeFreq n ≤ e.nodeFreq m) ∧
      e.insert n = { e with queue := e.queue.take p ++ n :: e.queue.drop p } ∧
      (e.insert n).queue.Pairwise (fun a b => e.nodeFreq a ≤ e.nodeFreq b)

/-- extract_min() fails with EmptyStructure on an empty queue; else it returns Q[0], a node of smallest frequency in
a sorted queue, and leaves the rest in order (41_priority_queue.md R77). -/
def Obligations.ExtractMinTakesFirst : Prop :=
  (∀ e : Engine, e.queue = [] → e.extractMin = .error .emptyStructure) ∧
  ∀ (e : Engine) (n : NodeId) (rest : List NodeId), e.queue = n :: rest →
    e.extractMin = .ok (n, { e with queue := rest }) ∧
    (e.queue.Pairwise (fun a b => e.nodeFreq a ≤ e.nodeFreq b) → ∀ m ∈ rest, e.nodeFreq n ≤ e.nodeFreq m)

/-- LOAD in phase ACCUM makes one leaf per symbol that occurs, with that symbol's frequency, and a queue of exactly
those leaves in ascending frequency and, among equals, descending symbol; it answers their number, goes to QUEUED,
and changes no other element (41_priority_queue.md R79). -/
def Obligations.LoadFillsQueue : Prop :=
  encode .load = 0x3000#16 ∧
  ∀ s : State, s.engine.Inv → s.engine.phase = .accum →
    ∃ t, exec .load s = .next t ∧ Completed s t (BitVec.ofNat 32 s.engine.distinct) [] ∧
      t.engine.phase = .queued ∧ t.engine.queue.length = s.engine.distinct ∧
      (∀ n, n ∈ t.engine.queue ↔ ∃ x, n = leafId x ∧ 0#32 < s.engine.freqOf x) ∧
      t.engine.queue.Pairwise (fun a b => t.engine.nodeFreq a < t.engine.nodeFreq b ∨
        (t.engine.nodeFreq a = t.engine.nodeFreq b ∧ b < a)) ∧
      (∀ x : Symbol, t.engine.nodeAt (leafId x) =
        if 0#32 < s.engine.freqOf x then some ⟨s.engine.freqOf x, none, none, none⟩ else none) ∧
      (∀ n : NodeId, 256#9 ≤ n → t.engine.nodeAt n = none) ∧
      t.engine = { s.engine with phase := .queued, queue := t.engine.queue, node := t.engine.node }

/-- peek_size is QSIZE: RDREG 3 reads it, and LOAD, MERGE and BUILD answer it when they complete
(41_priority_queue.md R78). -/
def Obligations.PeekSizeIsAnswered : Prop :=
  (∀ s : State, ∃ t, exec (.rdreg 3#8) s = .next t ∧
    Completed s t (BitVec.ofNat 32 s.engine.queue.length) [] ∧ t.engine = s.engine) ∧
  ∀ (i : Instr) (s t : State) (d : Data) (out : List Byte), i ∈ [.load, .merge, .build] →
    exec i s = .next t → Completed s t d out → d = BitVec.ofNat 32 t.engine.queue.length ∧ out = []

/-- RDQ d answers bit 31 and the node id at position d when d < QSIZE, else 0, in every phase, and extracts
nothing (41_priority_queue.md R80). -/
def Obligations.RdqReadsPosition : Prop :=
  (∀ d : BitVec 8, encode (.rdq d) = 0xC000#16 ||| d.setWidth 16) ∧
  ∀ (d : BitVec 8) (s : State), ∃ t v, exec (.rdq d) s = .next t ∧ Completed s t v [] ∧ t.engine = s.engine ∧
    (∀ h : d.toNat < s.engine.queue.length,
      v.extractLsb' 31 1 = 1#1 ∧ v.extractLsb' 9 22 = 0#22 ∧ v.extractLsb' 0 9 = s.engine.queue[d.toNat]'h) ∧
    (s.engine.queue.length ≤ d.toNat → v = 0#32)

/-- The order has a closed form: in a sound state with leaves loaded Q is sorted by the pair (F ascending, id
descending), so two such engines with the same nodes whose queues have the same members have the same queue
(41_priority_queue.md R82). -/
def Obligations.QueueOrderHasClosedForm : Prop :=
  (∀ e : Engine, e.Inv → e.queue.Pairwise (fun a b => e.nodeFreq a < e.nodeFreq b ∨
    (e.nodeFreq a = e.nodeFreq b ∧ b < a))) ∧
  ∀ e e' : Engine, e.Inv → e'.Inv → e.node = e'.node → (∀ n, n ∈ e.queue ↔ n ∈ e'.queue) → e.queue = e'.queue

/-! ## The tree builder -/

/-- MERGE in phase QUEUED with Q = a, b, … makes node NEXT of children (a, b), with the sum of their frequencies and
no label, labels a 0 and b 1, advances NEXT by 1, puts NEXT before every node of equal frequency, lowers QSIZE by 1
and answers it; no other entry and no other element changes (42_tree_builder.md R85, R86). -/
def Obligations.MergeJoinsTwoSmallest : Prop :=
  encode .merge = 0x4000#16 ∧
  ∀ (s : State) (a b : NodeId) (rest : List NodeId), s.engine.Inv → s.engine.phase = .queued →
    s.engine.queue = a :: b :: rest →
    ∃ t ra rb, exec .merge s = .next t ∧ Completed s t (BitVec.ofNat 32 (rest.length + 1)) [] ∧
      s.engine.nodeAt a = some ra ∧ s.engine.nodeAt b = some rb ∧
      t.engine.nodeAt a = some { ra with label := some false } ∧
      t.engine.nodeAt b = some { rb with label := some true } ∧
      t.engine.nodeAt s.engine.next = some ⟨ra.freq + rb.freq, some a, some b, none⟩ ∧
      (ra.freq + rb.freq).toNat = ra.freq.toNat + rb.freq.toNat ∧
      (∀ n, n ≠ a → n ≠ b → n ≠ s.engine.next → t.engine.nodeAt n = s.engine.nodeAt n) ∧
      t.engine.next.toNat = s.engine.next.toNat + 1 ∧
      (∃ before after, rest = before ++ after ∧ t.engine.queue = before ++ s.engine.next :: after ∧
        (∀ m ∈ before, s.engine.nodeFreq m < ra.freq + rb.freq) ∧
        ∀ m ∈ after, ra.freq + rb.freq ≤ s.engine.nodeFreq m) ∧
      t.engine = { s.engine with queue := t.engine.queue, node := t.engine.node, next := t.engine.next }

/-- The builder on fewer than two nodes: with an empty queue MERGE and BUILD raise EmptyAlphabet; with one node left
MERGE raises EmptyStructure, and BUILD completes, answers 1 and changes nothing; nothing is extracted in any of them
(42_tree_builder.md R86, R87, R90, 60_exceptions.md R132, R133). -/
def Obligations.BuilderOnFewNodes : Prop :=
  ∀ s : State, s.engine.phase = .queued →
    (s.engine.queue = [] → (∃ t, exec .merge s = .next t ∧ Raised s t .emptyAlphabet 0x4000#16) ∧
      ∃ t, exec .build s = .next t ∧ Raised s t .emptyAlphabet 0x5000#16) ∧
    ∀ root, s.engine.queue = [root] →
      (∃ t, exec .merge s = .next t ∧ Raised s t .emptyStructure 0x4000#16) ∧
      ∃ t, exec .build s = .next t ∧ Completed s t 1#32 [] ∧ t.engine = s.engine

/-- BUILD in phase QUEUED with at least one node runs the loop to its end: one node, the root, is left in Q, NEXT
has risen by QSIZE − 1, the answer is 1, and every element but Q, NODE and NEXT is unchanged. In NODE the entries below
the old NEXT keep their frequency and children, a label once written stays, the entries from the old NEXT to the new one
are whole internal nodes, those past it are invalid, and the root alone of the valid nodes has no label
(42_tree_builder.md R87, R91). -/
def Obligations.BuildFinishesTree : Prop :=
  encode .build = 0x5000#16 ∧
  ∀ s : State, s.engine.Inv → s.engine.phase = .queued → s.engine.queue ≠ [] →
    ∃ t root, exec .build s = .next t ∧ Completed s t 1#32 [] ∧ t.engine.queue = [root] ∧
      t.engine.next.toNat = s.engine.next.toNat + (s.engine.queue.length - 1) ∧
      (∀ n : NodeId, n < s.engine.next → (t.engine.nodeAt n).map (fun r => (r.freq, r.left, r.right)) =
        (s.engine.nodeAt n).map (fun r => (r.freq, r.left, r.right))) ∧
      (∀ (n : NodeId) (b : Bit), (s.engine.nodeAt n).bind Node.label = some b →
        (t.engine.nodeAt n).bind Node.label = some b) ∧
      (∀ n : NodeId, s.engine.next ≤ n → n < t.engine.next → t.engine.InternalOk n) ∧
      (∀ n : NodeId, t.engine.next ≤ n → t.engine.nodeAt n = none) ∧
      (∀ n : NodeId, (t.engine.nodeAt n).map Node.label = some none ↔ n = root) ∧
      t.engine = { s.engine with queue := [root], node := t.engine.node, next := t.engine.next }

/-- BUILD is the same as MERGE until one node is left: where a MERGE completes, BUILD after it reaches the engine
that BUILD alone reaches (42_tree_builder.md R87). -/
def Obligations.BuildIsRepeatedMerge : Prop :=
  ∀ s t : State, s.engine.Inv → exec .merge s = .next t → t.engine.phase = .queued →
    ∃ u v : State, exec .build s = .next u ∧ exec .build t = .next v ∧ u.engine = v.engine ∧
      Completed s u 1#32 [] ∧ Completed t v 1#32 []

/-- The finished tree: with one node left in Q, the root carries no label and its frequency is TOTAL; with two or
more symbols it is the node NEXT − 1; every valid node is reached from it by left and right
(42_tree_builder.md R91). -/
def Obligations.FinishedTreeHasAllNodes : Prop :=
  ∀ (e : Engine) (root : NodeId), e.Inv → e.phase = .queued ∨ e.phase = .coded → e.queue = [root] →
    e.nodeFreq root = e.total ∧ (e.nodeAt root).map Node.label = some none ∧
    (2 ≤ e.distinct → root.toNat + 1 = e.next.toNat ∧ root.toNat = 256 + e.distinct - 2) ∧
    ∀ n, (e.nodeAt n).isSome = true ↔ ∃ path, e.follow root path = some n

/-- RDNODE n answers the record packed as R88 lays it out, 0 for an invalid entry, in every phase, and changes
nothing; n = 511 raises IllegalCommand (42_tree_builder.md R88). -/
def Obligations.RdnodePacksRecord : Prop :=
  (∀ n : NodeId, encode (.rdnode n) = 0xD000#16 ||| n.setWidth 16) ∧
  (∀ (n : NodeId) (s : State), n ≠ 511#9 → ∃ t v, exec (.rdnode n) s = .next t ∧ Completed s t v [] ∧
    t.engine = s.engine ∧ (s.engine.nodeAt n = none → v = 0#32) ∧
    ∀ r, s.engine.nodeAt n = some r →
      v.extractLsb' 0 1 = 1#1 ∧ v.extractLsb' 1 1 = BitVec.ofBool r.left.isSome ∧
      v.extractLsb' 2 1 = BitVec.ofBool r.right.isSome ∧ v.extractLsb' 3 1 = BitVec.ofBool r.label.isSome ∧
      v.extractLsb' 4 1 = BitVec.ofBool (r.label.getD false) ∧ v.extractLsb' 5 9 = r.left.getD 0#9 ∧
      v.extractLsb' 14 9 = r.right.getD 0#9 ∧ v.extractLsb' 23 9 = 0#9) ∧
  ∀ s : State, ∃ t, exec (.rdnode 511#9) s = .next t ∧ Raised s t .illegalCommand 0xD1FF#16

/-- RDNFRQ n answers NODE[n].F, 0 for an invalid entry, in every phase, and changes nothing; n = 511 raises
IllegalCommand; in a sound state a valid node's answer is never 0 (42_tree_builder.md R89). -/
def Obligations.RdnfrqReadsFrequency : Prop :=
  (∀ n : NodeId, encode (.rdnfrq n) = 0xE000#16 ||| n.setWidth 16) ∧
  (∀ (n : NodeId) (s : State), n ≠ 511#9 → ∃ t v, exec (.rdnfrq n) s = .next t ∧ Completed s t v [] ∧
    t.engine = s.engine ∧ (s.engine.nodeAt n = none → v = 0#32) ∧
    (∀ r, s.engine.nodeAt n = some r → v = r.freq) ∧
    (s.engine.Inv → (v = 0#32 ↔ s.engine.nodeAt n = none))) ∧
  ∀ s : State, ∃ t, exec (.rdnfrq 511#9) s = .next t ∧ Raised s t .illegalCommand 0xE1FF#16

/-! ## The code table -/

/-- GEN in phase QUEUED with the finished tree gives exactly the symbols counted a code and goes to CODED. With one
symbol the code is "0"; with more, a symbol's code is the path from the root to its leaf, 0 for left and 1 for right.
It answers the number of codes and changes no other element (43_code_table.md R95, R96, R97). -/
def Obligations.GenWritesTreePaths : Prop :=
  encode .gen = 0x6000#16 ∧
  ∀ (s : State) (root : NodeId), s.engine.Inv → s.engine.phase = .queued → s.engine.queue = [root] →
    ∃ t, exec .gen s = .next t ∧ Completed s t (BitVec.ofNat 32 s.engine.distinct) [] ∧
      (∀ x : Symbol, t.engine.codeOf x ≠ [] ↔ 0#32 < s.engine.freqOf x) ∧
      (∀ x : Symbol, root = leafId x → t.engine.codeOf x = [false]) ∧
      (256#9 ≤ root → ∀ x : Symbol, 0#32 < s.engine.freqOf x →
        s.engine.follow root (t.engine.codeOf x) = some (leafId x)) ∧
      t.engine = { s.engine with code := t.engine.code, phase := .coded }

/-- The table GEN writes: every counted symbol has one code and no other symbol has any, no code is a first part of
another symbol's, and a code is at most n0 − 1 bits long for n0 ≥ 2 symbols and 1 bit for one
(43_code_table.md R99 items a, b, c, f). -/
def Obligations.CodesArePrefixFreeAndShort : Prop :=
  ∀ s t : State, s.engine.Inv → exec .gen s = .next t → t.engine.phase = .coded →
    (∀ x : Symbol, t.engine.codeOf x ≠ [] ↔ 0#32 < t.engine.freqOf x) ∧
    (∀ x y : Symbol, x ≠ y → t.engine.codeOf x ≠ [] → t.engine.codeOf y ≠ [] →
      ¬ t.engine.codeOf x <+: t.engine.codeOf y) ∧
    (2 ≤ t.engine.distinct → ∀ x : Symbol, (t.engine.codeOf x).length ≤ t.engine.distinct - 1) ∧
    (t.engine.distinct = 1 → ∀ x : Symbol, t.engine.codeOf x ≠ [] → t.engine.codeOf x = [false])

/-- GEN refuses a tree that is not finished: an empty queue raises EmptyAlphabet, two or more nodes IllegalCommand;
CODE is not written (43_code_table.md R97, 60_exceptions.md R132, R138). -/
def Obligations.GenRefusesUnfinishedTree : Prop :=
  ∀ s : State, s.engine.phase = .queued →
    (s.engine.queue = [] → ∃ t, exec .gen s = .next t ∧ Raised s t .emptyAlphabet 0x6000#16) ∧
    (2 ≤ s.engine.queue.length → ∃ t, exec .gen s = .next t ∧ Raised s t .illegalCommand 0x6000#16)

/-- The traversal's check is there: a root that is no leaf and is invalid, or lacks a child, raises MalformedTree,
and CODE is not written (43_code_table.md R95, 60_exceptions.md R134). -/
def Obligations.GenReportsMalformedRoot : Prop :=
  ∀ (s : State) (root : NodeId), s.engine.phase = .queued → s.engine.queue = [root] → 256#9 ≤ root →
    (s.engine.nodeAt root = none ∨ ∃ r, s.engine.nodeAt root = some r ∧ (r.left = none ∨ r.right = none)) →
    ∃ t, exec .gen s = .next t ∧ Raised s t .malformedTree 0x6000#16

/-- MalformedTree is unreachable: in no sound state does GEN raise it (60_exceptions.md R134). -/
def Obligations.GenNeverFindsMalformedTree : Prop :=
  ∀ s t : State, s.engine.Inv → exec .gen s = .next t → ¬ Raised s t .malformedTree 0x6000#16

/-- RDCODE d emits the characters of CODE[d], the bit nearest the root first, and answers its length, in every
phase; without an entry it emits nothing and answers 0; it changes nothing (43_code_table.md R98). -/
def Obligations.RdcodeEmitsCode : Prop :=
  (∀ d : Symbol, encode (.rdcode d) = 0xF000#16 ||| d.setWidth 16) ∧
  (∀ (d : Symbol) (s : State), ∃ t, exec (.rdcode d) s = .next t ∧ t.engine = s.engine ∧
    Completed s t (BitVec.ofNat 32 (s.engine.codeOf d).length)
      ((s.engine.codeOf d).map (fun b => if b then 0x31#8 else 0x30#8))) ∧
  ∀ (d : Symbol) (s : State), s.engine.Inv → s.engine.phase = .accum ∨ s.engine.phase = .queued →
    ∃ t, exec (.rdcode d) s = .next t ∧ Completed s t 0#32 []

/-- Of two counted symbols the more frequent never has the longer code: in every state in phase CODED that any command
words lead to from a sound state in ACCUM, however the tree was finished, by MERGE, by BUILD or by both
(43_code_table.md R99 item d). -/
def Obligations.FrequentSymbolsHaveShorterCodes : Prop :=
  ∀ (s v : State) (words : List CmdWord), s.engine.Inv → s.engine.phase = .accum →
    Host.Core.run core words.length { s with cmdStream := words } = .next v → v.engine.phase = .coded →
    ∀ x y : Symbol, 0#32 < v.engine.freqOf y → v.engine.freqOf y < v.engine.freqOf x →
      (v.engine.codeOf x).length ≤ (v.engine.codeOf y).length

/-! ## The encoder and the decoder -/

/-- ENC d in phase CODED emits the characters of CODE[d] and answers its length, changing nothing; without an entry
it raises UnknownSymbol, recorded with 0x7000 | d; in any other phase it raises IllegalCommand
(44_encoder.md R105). -/
def Obligations.EncEmitsCode : Prop :=
  (∀ d : Symbol, encode (.enc d) = 0x7000#16 ||| d.setWidth 16) ∧
  (∀ (d : Symbol) (s : State), s.engine.phase = .coded → s.engine.codeOf d ≠ [] →
    ∃ t, exec (.enc d) s = .next t ∧ t.engine = s.engine ∧
      Completed s t (BitVec.ofNat 32 (s.engine.codeOf d).length)
        ((s.engine.codeOf d).map (fun b => if b then 0x31#8 else 0x30#8))) ∧
  (∀ (d : Symbol) (s : State), s.engine.phase = .coded → s.engine.codeOf d = [] →
    ∃ t, exec (.enc d) s = .next t ∧ Raised s t .unknownSymbol (0x7000#16 ||| d.setWidth 16)) ∧
  ∀ (d : Symbol) (s : State), s.engine.phase ≠ .coded →
    ∃ t, exec (.enc d) s = .next t ∧ Raised s t .illegalCommand (0x7000#16 ||| d.setWidth 16)

/-- The encoder has no state: in phase CODED what ENC emits and answers depends only on its operand and on that
operand's code, whatever else two engines hold, and ENC writes nothing (44_encoder.md R107). -/
def Obligations.EncoderIsStateless : Prop :=
  ∀ (d : Symbol) (s s' t t' : State), s.engine.phase = .coded → s'.engine.phase = .coded →
    s.engine.codeOf d = s'.engine.codeOf d → exec (.enc d) s = .next t → exec (.enc d) s' = .next t' →
    (∃ evs, t.sent = s.sent ++ evs ∧ t'.sent = s'.sent ++ evs) ∧ t.engine.buf = s.engine.buf ∧
    t.engine.code = s.engine.code ∧ (s.engine.codeOf d ≠ [] → t.engine = s.engine)

/-- DEC of a bit character in phase CODED, with room in the buffer, appends the bit. Where the buffer is then the
code of a symbol, the smallest such symbol is emitted, the buffer is emptied and the answer is 1; where it is no
code, the bit is kept and the answer is 0. No other element changes (45_decoder.md R110, R111). -/
def Obligations.DecTakesOneBit : Prop :=
  (∀ d : Byte, encode (.dec d) = 0x8000#16 ||| d.setWidth 16) ∧
  ∀ (s : State) (d : Byte) (bit : Bit), (d, bit) ∈ [(0x30#8, false), (0x31#8, true)] →
    s.engine.phase = .coded → s.engine.buf.length ≠ 255 →
    (∀ x : Symbol, s.engine.codeOf x = s.engine.buf ++ [bit] →
      (∀ y : Symbol, y < x → s.engine.codeOf y ≠ s.engine.buf ++ [bit]) →
      ∃ t, exec (.dec d) s = .next t ∧ Completed s t 1#32 [x] ∧ t.engine = { s.engine with buf := [] }) ∧
    ((∀ x : Symbol, s.engine.codeOf x ≠ s.engine.buf ++ [bit]) →
      ∃ t, exec (.dec d) s = .next t ∧ Completed s t 0#32 [] ∧
        t.engine = { s.engine with buf := s.engine.buf ++ [bit] })

/-- DEC of a byte that is no bit character raises InvalidEncoding, and so does any DEC of a bit character when the
buffer holds 255 bits; the buffer stays as it was (45_decoder.md R111, R114, R115). -/
def Obligations.DecRefusesBadCharacterAndFullBuffer : Prop :=
  ∀ (d : Byte) (s : State), s.engine.phase = .coded →
    ((d ≠ 0x30#8 ∧ d ≠ 0x31#8) ∨ s.engine.buf.length = 255) →
    ∃ t, exec (.dec d) s = .next t ∧ Raised s t .invalidEncoding (0x8000#16 ||| d.setWidth 16) ∧
      t.engine.buf = s.engine.buf

/-- DECEND in phase CODED completes with answer 0 and changes nothing when BUF is empty; bits left over raise
InvalidEncoding, recorded with 0x9000; in any other phase it raises IllegalCommand (45_decoder.md R112). -/
def Obligations.DecendEndsSequence : Prop :=
  encode .decend = 0x9000#16 ∧
  (∀ s : State, s.engine.phase = .coded → s.engine.buf = [] →
    ∃ t, exec .decend s = .next t ∧ Completed s t 0#32 [] ∧ t.engine = s.engine) ∧
  (∀ s : State, s.engine.phase = .coded → s.engine.buf ≠ [] →
    ∃ t, exec .decend s = .next t ∧ Raised s t .invalidEncoding 0x9000#16 ∧
      t.sent = s.sent ++ [.rsp ⟨5#4, 0#32⟩]) ∧
  ∀ s : State, s.engine.phase ≠ .coded →
    ∃ t, exec .decend s = .next t ∧ Raised s t .illegalCommand 0x9000#16

/-- Decoding undoes encoding: in a sound CODED state with an empty buffer, the bit characters of the codes of any
list of coded bytes, sent by DEC one by one and followed by DECEND, emit exactly those bytes in order, raise nothing,
and leave the engine as it was (45_decoder.md R113). -/
def Obligations.DecodingUndoesEncoding : Prop :=
  ∀ (s : State) (bytes : List Byte), s.engine.Inv → s.engine.phase = .coded → s.engine.buf = [] →
    (∀ b ∈ bytes, s.engine.codeOf b ≠ []) →
    ∀ bits : List Bit, bits = bytes.flatMap s.engine.codeOf →
    ∃ t, Host.Core.run core (bits.length + 1)
        { s with cmdStream := bits.map (fun b => encode (.dec (if b then 0x31#8 else 0x30#8))) ++ [encode .decend] }
        = .next t ∧
      t.engine = s.engine ∧ t.cmdStream = [] ∧
      ∃ evs, t.sent = s.sent ++ evs ∧ evs.filterMap (fun | .out b => some b | .rsp _ => none) = bytes ∧
        ∀ r, .rsp r ∈ evs → r.status = 0#4

/-- Every non-empty input of at most 2^32 − 1 bytes gets its table: from the reset engine, one ACC per byte, LOAD,
BUILD and GEN raise nothing and reach phase CODED with an empty buffer, and exactly the bytes of the input have a
code (45_decoder.md R113, 70_reset_and_hazards.md R163, 46_system.md R124). -/
def Obligations.EveryInputGetsItsTable : Prop :=
  ∀ (s : State) (bytes : List Byte), s.engine = Engine.reset → bytes ≠ [] → bytes.length ≤ 2 ^ 32 - 1 →
    ∃ t, Host.Core.run core (bytes.length + 3)
        { s with cmdStream := bytes.map (fun b => encode (.acc b)) ++ [encode .load, encode .build, encode .gen] }
        = .next t ∧
      t.engine.phase = .coded ∧ t.engine.buf = [] ∧ t.engine.Inv ∧
      (∀ b : Byte, t.engine.codeOf b ≠ [] ↔ b ∈ bytes) ∧
      ∃ evs, t.sent = s.sent ++ evs ∧ ∀ r, .rsp r ∈ evs → r.status = 0#4

/-- With two or more symbols the tree is full: every sequence of 255 bits has exactly one code as its first part, so
in a sound state the buffer never fills (43_code_table.md R99 item g, 45_decoder.md R114). -/
def Obligations.FullTreeMatchesEverySequence : Prop :=
  ∀ e : Engine, e.Inv → e.phase = .coded → 2 ≤ e.distinct →
    (∀ bits : List Bit, bits.length = 255 →
      ∃ x : Symbol, (e.codeOf x ≠ [] ∧ e.codeOf x <+: bits) ∧
        ∀ y : Symbol, e.codeOf y ≠ [] → e.codeOf y <+: bits → y = x) ∧
    e.buf.length < 255

/-! ## The whole machine -/

/-- The phase table: a command out of its phase raises IllegalCommand, in FAULT without a change (46_system.md
R123, 60_exceptions.md R138). -/
def Obligations.OutOfPhaseCommandsRaise : Prop :=
  ∀ (i : Instr) (s : State),
    ((s.engine.phase ≠ .accum ∧ (i = .load ∨ ∃ d, i = .acc d)) ∨
     (s.engine.phase ≠ .queued ∧ i ∈ [.merge, .build, .gen]) ∨
     (s.engine.phase ≠ .coded ∧ (i = .decend ∨ (∃ d, i = .enc d) ∨ ∃ d, i = .dec d))) →
    ∃ t, exec i s = .next t ∧ Raised s t .illegalCommand (encode i)

/-- PHASE moves only forward: a command leaves it alone, or raises an error and leaves FAULT, or is the LOAD that leaves ACCUM
for QUEUED, the GEN that leaves QUEUED for CODED, or a CLR (10_state.md R23, 46_system.md R123). -/
def Obligations.PhaseMovesOnlyForward : Prop :=
  ∀ (i : Instr) (s t : State), exec i s = .next t →
    t.engine.phase = s.engine.phase ∨
    (t.engine.phase = .fault ∧ ∃ k, Raised s t k (encode i)) ∨ (i = .clr ∧ t.engine.phase = .accum) ∨
    (i = .load ∧ s.engine.phase = .accum ∧ t.engine.phase = .queued) ∨
    (i = .gen ∧ s.engine.phase = .queued ∧ t.engine.phase = .coded)

/-- Every word, legal or not, is answered by exactly one response, after its output elements: either status 0, or the
code of one error kind with data 0 and no output, and then the engine changes as raise says and in no other way, the
error recorded with the word. In a sound state no word goes unanswered (30_encoding.md R61, 60_exceptions.md R130,
R143). -/
def Obligations.EveryWordHasOneResponse : Prop :=
  (∀ (s t : State) (w : CmdWord), step (s.present w) = .next t →
    (∃ d out, Completed s t d out) ∨
    ∃ k, Raised s t k w ∧ k.code ≠ 0#4 ∧ t.engine.freq = s.engine.freq ∧ t.engine.total = s.engine.total ∧
      t.engine.queue = s.engine.queue ∧ t.engine.node = s.engine.node ∧ t.engine.next = s.engine.next ∧
      t.engine.code = s.engine.code ∧ t.engine.buf = s.engine.buf) ∧
  ∀ (s : State) (w : CmdWord), s.engine.Inv → ∃ t, step (s.present w) = .next t

/-- The codes of the error kinds; of each kind, which well-formed commands can raise it, and the condition they raise it
on; a kind other than IllegalCommand only by a command in its phase; the statuses 8 to 15 never
(60_exceptions.md R131 to R138). -/
def Obligations.ErrorKindsHaveTheirCauses : Prop :=
  (ErrKind.emptyAlphabet.code = 1#4 ∧ ErrKind.emptyStructure.code = 2#4 ∧ ErrKind.malformedTree.code = 3#4 ∧
    ErrKind.unknownSymbol.code = 4#4 ∧ ErrKind.invalidEncoding.code = 5#4 ∧ ErrKind.illegalCommand.code = 6#4 ∧
    ErrKind.counterOverflow.code = 7#4) ∧
  ∀ (i : Instr) (s t : State) (r : Response), exec i s = .next t → t.sent.getLast? = some (.rsp r) →
    r.status ≤ 7#4 ∧
    (r.status = 1#4 → i ∈ [.merge, .build, .gen] ∧ s.engine.queue = []) ∧
    (r.status = 2#4 → i = .merge ∧ s.engine.queue.length = 1) ∧
    (r.status = 3#4 → i = .gen ∧ ∃ root, s.engine.queue = [root] ∧ s.engine.tableFrom root = none) ∧
    (r.status = 4#4 → ∃ d, i = .enc d ∧ s.engine.codeOf d = []) ∧
    (r.status = 5#4 → (i = .decend ∧ s.engine.buf ≠ []) ∨
      ∃ d, i = .dec d ∧ ((d ≠ 0x30#8 ∧ d ≠ 0x31#8) ∨ s.engine.buf.length = 255)) ∧
    (r.status = 6#4 → legalIn i s.engine.phase = false ∨ operandInRange i = false ∨
      (i = .gen ∧ 2 ≤ s.engine.queue.length)) ∧
    (r.status = 7#4 → ∃ d, i = .acc d ∧ s.engine.total = 0xFFFFFFFF#32) ∧
    (r.status ≠ 0#4 → r.status ≠ 6#4 → legalIn i s.engine.phase = true)

/-- Errors are terminal: in FAULT no word but CLR changes any element, no output of the encoder or the decoder is
produced, and what was sent stays sent (60_exceptions.md R142). -/
def Obligations.FaultIsTerminal : Prop :=
  ∀ (s t : State) (w : CmdWord), s.engine.phase = .fault → w ≠ 0x1000#16 → step (s.present w) = .next t →
    t.engine = s.engine ∧ ∃ evs, t.sent = s.sent ++ evs ∧
      ((∃ b, .out b ∈ evs) → ∃ d, decode w = .ok (.rdcode d))

/-- In FAULT every word is answered: CLR is performed; a well-formed read-back whose operand is in range answers from
the frozen engine, STATUS and ERRCMD apart what the engine before the error answers; every other word answers status 6
and data 0 with no output; nothing but CLR changes anything (60_exceptions.md R144). -/
def Obligations.FaultStillAnswers : Prop :=
  ∀ s : State, s.engine.phase = .fault →
    (∃ t, step (s.present 0x1000#16) = .next t ∧ Completed s t 0#32 [] ∧ t.engine = Engine.reset) ∧
    (∀ (w : CmdWord) (i : Instr), decode w = .ok i → isReadBack i = true → operandInRange i = true →
      ∃ t d out, step (s.present w) = .next t ∧ Completed s t d out ∧ t.engine = s.engine ∧
        ∀ u : State, i ≠ .rdreg 1#8 → i ≠ .rdreg 6#8 →
          { u.engine with phase := .fault, err := s.engine.err, errCmd := s.engine.errCmd } = s.engine →
          ∃ v, exec i u = .next v ∧ Completed u v d out) ∧
    ∀ w : CmdWord, w ≠ 0x1000#16 →
      (∀ i, decode w = .ok i → isReadBack i = false ∨ operandInRange i = false) →
      ∃ t, step (s.present w) = .next t ∧ t.sent = s.sent ++ [.rsp ⟨6#4, 0#32⟩] ∧ t.engine = s.engine

/-- The only ways out of FAULT are CLR and hardware reset; both put the reset state, with nothing kept of the failed
run; a second error in FAULT is not recorded (60_exceptions.md R145). -/
def Obligations.OnlyClrLeavesFault : Prop :=
  (∀ (s t : State) (w : CmdWord), s.engine.phase = .fault → step (s.present w) = .next t →
    t.engine.phase ≠ .fault → w = 0x1000#16 ∧ t.engine = Engine.reset) ∧
  (∀ s : State, s.hardwareReset.engine = Engine.reset) ∧
  ∀ (s t : State) (w : CmdWord) (r : Response), s.engine.phase = .fault → step (s.present w) = .next t →
    t.sent = s.sent ++ [.rsp r] → r.status ≠ 0#4 →
    t.engine.err = s.engine.err ∧ t.engine.errCmd = s.engine.errCmd

/-- No command hangs: in every sound state every word is answered, and in every state at all CLR is accepted
(60_exceptions.md R146). -/
def Obligations.EveryWordIsAnswered : Prop :=
  (∀ (s : State) (w : CmdWord), s.engine.Inv →
    ∃ t r, step (s.present w) = .next t ∧ t.sent.getLast? = some (.rsp r) ∧ t.cmdStream = s.cmdStream) ∧
  ∀ s : State, ∃ t, step (s.present 0x1000#16) = .next t ∧ Completed s t 0#32 []

/-- Where the model stops at all: never by refusing, and by a fault only when LOAD would overfill Q or a merge would
write NODE[511]; no sound state is such (the model's own stops, log 6; 10_state.md R29, R39,
41_priority_queue.md R76). -/
def Obligations.StopsOnlyAtMissingEntries : Prop :=
  (∀ (i : Instr) (s : State) (r : Refusal), exec i s ≠ .refused r) ∧
  (∀ (i : Instr) (s : State) (f : Fault), exec i s = .fault f ↔
    (i = .load ∧ s.engine.phase = .accum ∧ 256 < s.engine.queue.length + s.engine.distinct ∧ f = .queueFull) ∨
    (i = .merge ∧ s.engine.phase = .queued ∧ 2 ≤ s.engine.queue.length ∧ s.engine.next = 511#9 ∧
      f = .nodeStoreFull) ∨
    (i = .build ∧ s.engine.phase = .queued ∧ 2 ≤ s.engine.queue.length ∧
      511 < s.engine.next.toNat + (s.engine.queue.length - 1) ∧ f = .nodeStoreFull)) ∧
  ∀ (i : Instr) (s : State) (f : Fault), s.engine.Inv → exec i s ≠ .fault f

/-- A read-back command changes no state when it completes, and may be repeated with the same answer and output; it
raises only IllegalCommand, and, its word being well formed, only for an operand out of range, and in FAULT changes
nothing then either (20_memory.md R48). -/
def Obligations.ReadBacksChangeNothing : Prop :=
  ∀ (i : Instr) (s : State),
    ((∃ d, i = .rdreg d) ∨ (∃ d, i = .rdfreq d) ∨ (∃ d, i = .rdq d) ∨ (∃ n, i = .rdnode n) ∨
      (∃ n, i = .rdnfrq n) ∨ ∃ d, i = .rdcode d) →
    ∃ t, exec i s = .next t ∧
      ((∃ d out, Completed s t d out ∧ t.engine = s.engine ∧ ∃ u, exec i t = .next u ∧ Completed t u d out ∧
        u.engine = s.engine) ∨
       (Raised s t .illegalCommand (encode i) ∧ (s.engine.phase = .fault → t.engine = s.engine) ∧
        ((∃ d, i = .rdreg d ∧ 6#8 < d) ∨ i = .rdnode 511#9 ∨ i = .rdnfrq 511#9)))

/-- For ENC, DEC and RDCODE the data answered is the number of output elements the command produced, and no other
command produces any (20_memory.md R52, 30_encoding.md R62). -/
def Obligations.OutputCountIsAnswered : Prop :=
  ∀ (i : Instr) (s t : State) (d : Data) (out : List Byte), s.engine.Inv → exec i s = .next t →
    Completed s t d out →
    (((∃ x, i = .enc x) ∨ (∃ x, i = .dec x) ∨ ∃ x, i = .rdcode x) → d.toNat = out.length) ∧
    (out ≠ [] → (∃ x, i = .enc x) ∨ (∃ x, i = .dec x) ∨ ∃ x, i = .rdcode x)

/-- Which command may write which space, and in which phase: FREQ and TOTAL only ACC in ACCUM; Q and NODE only LOAD in
ACCUM, MERGE and BUILD in QUEUED; NEXT only MERGE and BUILD in QUEUED; CODE only GEN in QUEUED, on the way to CODED; BUF
only DEC in CODED; CLR aside (20_memory.md R41, 10_state.md R21, R27, 43_code_table.md R100). -/
def Obligations.SpacesHaveTheirWriters : Prop :=
  ∀ (i : Instr) (s t : State), exec i s = .next t → i ≠ .clr →
    (t.engine.freq ≠ s.engine.freq ∨ t.engine.total ≠ s.engine.total →
      (∃ d, i = .acc d) ∧ s.engine.phase = .accum) ∧
    (t.engine.queue ≠ s.engine.queue ∨ t.engine.node ≠ s.engine.node →
      (i = .load ∧ s.engine.phase = .accum) ∨ (i ∈ [.merge, .build] ∧ s.engine.phase = .queued)) ∧
    (t.engine.next ≠ s.engine.next → i ∈ [.merge, .build] ∧ s.engine.phase = .queued) ∧
    (t.engine.code ≠ s.engine.code → i = .gen ∧ s.engine.phase = .queued ∧ t.engine.phase = .coded) ∧
    (t.engine.buf ≠ s.engine.buf → (∃ d, i = .dec d) ∧ s.engine.phase = .coded)

/-! ## Invariants -/

/-- The reset state meets the invariant of R39 (10_state.md R39, R40). -/
def Obligations.ResetIsSound : Prop :=
  State.reset.Inv

/-- ERR = 0 exactly when PHASE ≠ FAULT, and ERRCMD = 0 when ERR = 0: every step keeps it, from every state that
meets it (10_state.md R24, R25, R39 item 2). -/
def Obligations.StepKeepsErrorRecord : Prop :=
  ∀ s t : State, s.engine.ErrorRecorded → step s = .next t → t.engine.ErrorRecorded

/-- TOTAL is the sum of the 256 counters: every step keeps it, from every state that meets it (10_state.md R22,
R39 item 1). -/
def Obligations.StepKeepsTotalTheSum : Prop :=
  ∀ s t : State, s.engine.TotalIsSum → step s = .next t → t.engine.TotalIsSum

/-- The invariant of R39, items 1 to 10, with the closed form of R82: every step keeps it, from every state that
meets it (10_state.md R39, 41_priority_queue.md R82). -/
def Obligations.StepKeepsSoundness : Prop :=
  ∀ s t : State, s.Inv → step s = .next t → t.Inv

/-! ## The assembler -/

/-- A line of a mnemonic and an operand that fits assembles to OP << 12 | operand, the word of the command; an
operand that does not fit, is missing or is one too many is an assembly error; the five pseudo-instructions expand to
their sequences (30_encoding.md R64, R65). -/
def Obligations.LinesAssembleToTheirWords : Prop :=
  (∀ (m : Mnemonic) (v : Nat),
    (m.format = .b → v ≤ 255 → ∃ w i, asmWords (.command m (some v)) = some [w] ∧ decode w = .ok i ∧
      i.mnemonic = m ∧ w.extractLsb' 0 12 = BitVec.ofNat 12 v) ∧
    (m.format = .n → v ≤ 511 → ∃ w i, asmWords (.command m (some v)) = some [w] ∧ decode w = .ok i ∧
      i.mnemonic = m ∧ w.extractLsb' 0 12 = BitVec.ofNat 12 v) ∧
    (m.format = .z → ∃ w i, asmWords (.command m none) = some [w] ∧ decode w = .ok i ∧ i.mnemonic = m) ∧
    (m.format = .b → 255 < v → asmWords (.command m (some v)) = none) ∧
    (m.format = .n → 511 < v → asmWords (.command m (some v)) = none) ∧
    (m.format = .z → asmWords (.command m (some v)) = none) ∧
    (m.format ≠ .z → asmWords (.command m none) = none)) ∧
  (∀ text : List Byte,
    asmWords (.accs text) = some (text.map (fun b => 0x2000#16 ||| b.setWidth 16)) ∧
    asmWords (.encs text) = some (text.map (fun b => 0x7000#16 ||| b.setWidth 16)) ∧
    asmWords (.decs text) = some (text.map (fun b => 0x8000#16 ||| b.setWidth 16))) ∧
  asmWords .table = some [0x3000#16, 0x5000#16, 0x6000#16] ∧ asmWords .rdstat = some [0xA001#16]
end

