-- ==== Sys2Proof/Laws/State.lean ====
section
/-! SUPPORT. The state's small lemmas: one per field per update, true by rfl, and what reading one entry gives
after writing one. Later proofs cite these and unfold no record. -/

namespace Sys2Proof.Machine

/-! ## Fields of an engine after one update -/

@[simp] theorem setFreq_total (e : Engine) (s : Symbol) (v : Freq) : (e.setFreq s v).total = e.total := rfl
@[simp] theorem setFreq_queue (e : Engine) (s : Symbol) (v : Freq) : (e.setFreq s v).queue = e.queue := rfl
@[simp] theorem setFreq_node (e : Engine) (s : Symbol) (v : Freq) : (e.setFreq s v).node = e.node := rfl
@[simp] theorem setFreq_next (e : Engine) (s : Symbol) (v : Freq) : (e.setFreq s v).next = e.next := rfl
@[simp] theorem setFreq_code (e : Engine) (s : Symbol) (v : Freq) : (e.setFreq s v).code = e.code := rfl
@[simp] theorem setFreq_buf (e : Engine) (s : Symbol) (v : Freq) : (e.setFreq s v).buf = e.buf := rfl
@[simp] theorem setFreq_phase (e : Engine) (s : Symbol) (v : Freq) : (e.setFreq s v).phase = e.phase := rfl
@[simp] theorem setFreq_err (e : Engine) (s : Symbol) (v : Freq) : (e.setFreq s v).err = e.err := rfl
@[simp] theorem setFreq_errCmd (e : Engine) (s : Symbol) (v : Freq) : (e.setFreq s v).errCmd = e.errCmd := rfl

@[simp] theorem setNode_freq (e : Engine) (n : NodeId) (r : Node) : (e.setNode n r).freq = e.freq := rfl
@[simp] theorem setNode_total (e : Engine) (n : NodeId) (r : Node) : (e.setNode n r).total = e.total := rfl
@[simp] theorem setNode_queue (e : Engine) (n : NodeId) (r : Node) : (e.setNode n r).queue = e.queue := rfl
@[simp] theorem setNode_next (e : Engine) (n : NodeId) (r : Node) : (e.setNode n r).next = e.next := rfl
@[simp] theorem setNode_code (e : Engine) (n : NodeId) (r : Node) : (e.setNode n r).code = e.code := rfl
@[simp] theorem setNode_buf (e : Engine) (n : NodeId) (r : Node) : (e.setNode n r).buf = e.buf := rfl
@[simp] theorem setNode_phase (e : Engine) (n : NodeId) (r : Node) : (e.setNode n r).phase = e.phase := rfl
@[simp] theorem setNode_err (e : Engine) (n : NodeId) (r : Node) : (e.setNode n r).err = e.err := rfl
@[simp] theorem setNode_errCmd (e : Engine) (n : NodeId) (r : Node) : (e.setNode n r).errCmd = e.errCmd := rfl

@[simp] theorem insert_freq (e : Engine) (n : NodeId) : (e.insert n).freq = e.freq := rfl
@[simp] theorem insert_total (e : Engine) (n : NodeId) : (e.insert n).total = e.total := rfl
@[simp] theorem insert_node (e : Engine) (n : NodeId) : (e.insert n).node = e.node := rfl
@[simp] theorem insert_next (e : Engine) (n : NodeId) : (e.insert n).next = e.next := rfl
@[simp] theorem insert_code (e : Engine) (n : NodeId) : (e.insert n).code = e.code := rfl
@[simp] theorem insert_buf (e : Engine) (n : NodeId) : (e.insert n).buf = e.buf := rfl
@[simp] theorem insert_phase (e : Engine) (n : NodeId) : (e.insert n).phase = e.phase := rfl
@[simp] theorem insert_err (e : Engine) (n : NodeId) : (e.insert n).err = e.err := rfl
@[simp] theorem insert_errCmd (e : Engine) (n : NodeId) : (e.insert n).errCmd = e.errCmd := rfl

@[simp] theorem labelNode_freq (e : Engine) (n : NodeId) (b : Bit) : (e.labelNode n b).freq = e.freq := by
  unfold Engine.labelNode; split <;> rfl
@[simp] theorem labelNode_total (e : Engine) (n : NodeId) (b : Bit) : (e.labelNode n b).total = e.total := by
  unfold Engine.labelNode; split <;> rfl
@[simp] theorem labelNode_queue (e : Engine) (n : NodeId) (b : Bit) : (e.labelNode n b).queue = e.queue := by
  unfold Engine.labelNode; split <;> rfl
@[simp] theorem labelNode_next (e : Engine) (n : NodeId) (b : Bit) : (e.labelNode n b).next = e.next := by
  unfold Engine.labelNode; split <;> rfl
@[simp] theorem labelNode_code (e : Engine) (n : NodeId) (b : Bit) : (e.labelNode n b).code = e.code := by
  unfold Engine.labelNode; split <;> rfl
@[simp] theorem labelNode_buf (e : Engine) (n : NodeId) (b : Bit) : (e.labelNode n b).buf = e.buf := by
  unfold Engine.labelNode; split <;> rfl
@[simp] theorem labelNode_phase (e : Engine) (n : NodeId) (b : Bit) : (e.labelNode n b).phase = e.phase := by
  unfold Engine.labelNode; split <;> rfl
@[simp] theorem labelNode_err (e : Engine) (n : NodeId) (b : Bit) : (e.labelNode n b).err = e.err := by
  unfold Engine.labelNode; split <;> rfl
@[simp] theorem labelNode_errCmd (e : Engine) (n : NodeId) (b : Bit) : (e.labelNode n b).errCmd = e.errCmd := by
  unfold Engine.labelNode; split <;> rfl

@[simp] theorem countSymbol_total (e : Engine) (d : Symbol) : (e.countSymbol d).total = e.total + 1#32 := rfl
@[simp] theorem countSymbol_queue (e : Engine) (d : Symbol) : (e.countSymbol d).queue = e.queue := rfl
@[simp] theorem countSymbol_node (e : Engine) (d : Symbol) : (e.countSymbol d).node = e.node := rfl
@[simp] theorem countSymbol_next (e : Engine) (d : Symbol) : (e.countSymbol d).next = e.next := rfl
@[simp] theorem countSymbol_code (e : Engine) (d : Symbol) : (e.countSymbol d).code = e.code := rfl
@[simp] theorem countSymbol_buf (e : Engine) (d : Symbol) : (e.countSymbol d).buf = e.buf := rfl
@[simp] theorem countSymbol_phase (e : Engine) (d : Symbol) : (e.countSymbol d).phase = e.phase := rfl
@[simp] theorem countSymbol_err (e : Engine) (d : Symbol) : (e.countSymbol d).err = e.err := rfl
@[simp] theorem countSymbol_errCmd (e : Engine) (d : Symbol) : (e.countSymbol d).errCmd = e.errCmd := rfl

/-! ## Fields of a state after one update -/

@[simp] theorem complete_engine (s : State) (e : Engine) (d : Data) (out : List Byte) :
    (s.complete e d out).engine = e := rfl
@[simp] theorem complete_cmdStream (s : State) (e : Engine) (d : Data) (out : List Byte) :
    (s.complete e d out).cmdStream = s.cmdStream := rfl
@[simp] theorem complete_sent (s : State) (e : Engine) (d : Data) (out : List Byte) :
    (s.complete e d out).sent = s.sent ++ (out.map Event.out ++ [.rsp ⟨0#4, d⟩]) := rfl

@[simp] theorem raise_engine (s : State) (k : ErrKind) (w : CmdWord) :
    (s.raise k w).engine = s.engine.raise k w := rfl
@[simp] theorem raise_cmdStream (s : State) (k : ErrKind) (w : CmdWord) :
    (s.raise k w).cmdStream = s.cmdStream := rfl
@[simp] theorem raise_sent (s : State) (k : ErrKind) (w : CmdWord) :
    (s.raise k w).sent = s.sent ++ [.rsp ⟨k.code, 0#32⟩] := rfl

@[simp] theorem present_engine (s : State) (w : CmdWord) : (s.present w).engine = s.engine := rfl
@[simp] theorem present_cmdStream (s : State) (w : CmdWord) : (s.present w).cmdStream = w :: s.cmdStream := rfl
@[simp] theorem present_sent (s : State) (w : CmdWord) : (s.present w).sent = s.sent := rfl

@[simp] theorem hardwareReset_engine (s : State) : s.hardwareReset.engine = Engine.reset := rfl
@[simp] theorem hardwareReset_cmdStream (s : State) : s.hardwareReset.cmdStream = s.cmdStream := rfl
@[simp] theorem hardwareReset_sent (s : State) : s.hardwareReset.sent = s.sent := rfl

@[simp] theorem takeCommand_present (s : State) (w : CmdWord) : (s.present w).takeCommand = some (w, s) := rfl

/-! ## Reading one entry after writing one -/

theorem freqOf_setFreq (e : Engine) (s s' : Symbol) (v : Freq) :
    (e.setFreq s v).freqOf s' = if s = s' then v else e.freqOf s' := by
  simp only [Engine.freqOf, Engine.setFreq, Vector.getElem_set, BitVec.toNat_inj]

@[simp] theorem freqOf_setFreq_same (e : Engine) (s : Symbol) (v : Freq) : (e.setFreq s v).freqOf s = v := by
  simp [freqOf_setFreq]

theorem freqOf_setFreq_other (e : Engine) {s s' : Symbol} (v : Freq) (h : s ≠ s') :
    (e.setFreq s v).freqOf s' = e.freqOf s' := by
  simp [freqOf_setFreq, h]

/-- Engines with the same FREQ array read the same. -/
theorem freqOf_congr {e e' : Engine} (h : e.freq = e'.freq) (s : Symbol) : e.freqOf s = e'.freqOf s := by
  simp [Engine.freqOf, h]

theorem countSymbol_freqOf (e : Engine) (d s : Symbol) :
    (e.countSymbol d).freqOf s = if d = s then e.freqOf d + 1#32 else e.freqOf s :=
  freqOf_setFreq e d s _

/-- Id 511 names no node (10_state.md R29). -/
@[simp] theorem nodeAt_noNode (e : Engine) : e.nodeAt 511#9 = none := by
  simp [Engine.nodeAt]

theorem nodeAt_setNode (e : Engine) {n : NodeId} (n' : NodeId) (r : Node) (hn : n ≠ 511#9) :
    (e.setNode n r).nodeAt n' = if n = n' then some r else e.nodeAt n' := by
  have hlt : n.toNat < 511 := by
    have h1 := n.isLt
    have h2 : n.toNat ≠ 511 := fun h => hn (BitVec.eq_of_toNat_eq h)
    omega
  simp only [Engine.nodeAt, Engine.setNode, Vector.getElem?_setIfInBounds, BitVec.toNat_inj, hlt]
  split <;> simp

@[simp] theorem nodeAt_setNode_same (e : Engine) {n : NodeId} (r : Node) (hn : n ≠ 511#9) :
    (e.setNode n r).nodeAt n = some r := by
  simp [nodeAt_setNode, hn]

/-- Writing one entry leaves every other entry alone, id 511 included. -/
theorem nodeAt_setNode_other (e : Engine) {n n' : NodeId} (r : Node) (h : n ≠ n') :
    (e.setNode n r).nodeAt n' = e.nodeAt n' := by
  have h' : n.toNat ≠ n'.toNat := fun hh => h (BitVec.eq_of_toNat_eq hh)
  simp [Engine.nodeAt, Engine.setNode, h']

theorem nodeAt_congr {e e' : Engine} (h : e.node = e'.node) (n : NodeId) : e.nodeAt n = e'.nodeAt n := by
  simp [Engine.nodeAt, h]

theorem nodeFreq_congr {e e' : Engine} (h : e.node = e'.node) (n : NodeId) : e.nodeFreq n = e'.nodeFreq n := by
  simp [Engine.nodeFreq, nodeAt_congr h]

/-- A valid node's frequency is its record's; the free value of log 5 is not read. -/
theorem nodeFreq_of_nodeAt {e : Engine} {n : NodeId} {r : Node} (h : e.nodeAt n = some r) :
    e.nodeFreq n = r.freq := by
  simp [Engine.nodeFreq, h]

theorem nodeAt_labelNode (e : Engine) (n n' : NodeId) (b : Bit) :
    (e.labelNode n b).nodeAt n' =
      if n = n' then (e.nodeAt n').map (fun r => { r with label := some b }) else e.nodeAt n' := by
  unfold Engine.labelNode
  split
  next r hr =>
    have hn : n ≠ 511#9 := by rintro rfl; simp at hr
    rw [nodeAt_setNode _ _ _ hn]
    split <;> simp_all
  next hr => split <;> simp_all

/-- A label changes no frequency. -/
@[simp] theorem nodeFreq_labelNode (e : Engine) (n n' : NodeId) (b : Bit) :
    (e.labelNode n b).nodeFreq n' = e.nodeFreq n' := by
  simp only [Engine.nodeFreq, nodeAt_labelNode]
  by_cases h : n = n'
  · subst h; cases e.nodeAt n <;> simp
  · simp [h]

theorem codeOf_congr {e e' : Engine} (h : e.code = e'.code) (s : Symbol) : e.codeOf s = e'.codeOf s := by
  simp [Engine.codeOf, h]

/-! ## The reset state, entry by entry -/

@[simp] theorem reset_freqOf (s : Symbol) : Engine.reset.freqOf s = 0#32 := by
  simp [Engine.freqOf, Engine.reset]

@[simp] theorem reset_nodeAt (n : NodeId) : Engine.reset.nodeAt n = none := by
  simp only [Engine.nodeAt, Engine.reset, Vector.getElem?_replicate]
  split <;> rfl

@[simp] theorem reset_codeOf (s : Symbol) : Engine.reset.codeOf s = [] := by
  simp [Engine.codeOf, Engine.reset]

end Sys2Proof.Machine
end

