-- ==== Sys2Proof/Laws/Ops.lean ====
section
/-! SUPPORT. What the shared operations can do, said once: raising, the checks, `perform`, `exec` and `step`. -/

namespace Sys2Proof.Machine

/-! ## Raising (60_exceptions.md R130) -/

theorem raise_of_fault {e : Engine} (h : e.phase = .fault) (k : ErrKind) (w : CmdWord) : e.raise k w = e := by
  simp [Engine.raise, h]

theorem raise_of_not_fault {e : Engine} (h : e.phase ≠ .fault) (k : ErrKind) (w : CmdWord) :
    e.raise k w = { e with phase := .fault, err := some k, errCmd := w } := by
  simp [Engine.raise, h]

/-- Whatever was before, the engine is in FAULT after a raise. -/
@[simp] theorem raise_phase (e : Engine) (k : ErrKind) (w : CmdWord) : (e.raise k w).phase = .fault := by
  unfold Engine.raise; split <;> simp_all

@[simp] theorem raise_freq (e : Engine) (k : ErrKind) (w : CmdWord) : (e.raise k w).freq = e.freq := by
  unfold Engine.raise; split <;> rfl
@[simp] theorem raise_total (e : Engine) (k : ErrKind) (w : CmdWord) : (e.raise k w).total = e.total := by
  unfold Engine.raise; split <;> rfl
@[simp] theorem raise_queue (e : Engine) (k : ErrKind) (w : CmdWord) : (e.raise k w).queue = e.queue := by
  unfold Engine.raise; split <;> rfl
@[simp] theorem raise_node (e : Engine) (k : ErrKind) (w : CmdWord) : (e.raise k w).node = e.node := by
  unfold Engine.raise; split <;> rfl
@[simp] theorem raise_next (e : Engine) (k : ErrKind) (w : CmdWord) : (e.raise k w).next = e.next := by
  unfold Engine.raise; split <;> rfl
@[simp] theorem raise_code (e : Engine) (k : ErrKind) (w : CmdWord) : (e.raise k w).code = e.code := by
  unfold Engine.raise; split <;> rfl
@[simp] theorem raise_buf (e : Engine) (k : ErrKind) (w : CmdWord) : (e.raise k w).buf = e.buf := by
  unfold Engine.raise; split <;> rfl

theorem raised_raise (s : State) (k : ErrKind) (w : CmdWord) : Raised s (s.raise k w) k w := by
  refine ⟨rfl, rfl, fun h => ?_, fun h => ?_⟩
  · simp [raise_of_fault h]
  · simp [raise_of_not_fault h]

theorem completed_complete (s : State) (e : Engine) (d : Data) (out : List Byte) :
    Completed s (s.complete e d out) d out := ⟨rfl, rfl⟩

/-! ## The checks (30_encoding.md R59 steps 3 to 5) -/

/-- The checks raise nothing but IllegalCommand. -/
theorem checks_eq_some {i : Instr} {p : Phase} {k : ErrKind} (h : checks i p = some k) : k = .illegalCommand := by
  unfold checks at h
  grind

/-- The checks pass exactly for a command legal in the phase whose operand names something: step 3 refuses
nothing that step 4 would let through. -/
theorem checks_eq_none_iff (i : Instr) (p : Phase) :
    checks i p = none ↔ legalIn i p = true ∧ operandInRange i = true := by
  unfold checks
  cases i <;> cases p <;> simp [legalIn, isReadBack, operandInRange]

/-! ## A command's own rule, and exec as `perform` of it -/

/-- The command's own rule, step 6 of 30_encoding.md R59. -/
def ownEffect : Instr → Engine → Effect
  | .clr => fun _ => .ok Engine.reset 0#32 []
  | .acc d => accEffect d
  | .load => loadEffect
  | .merge => mergeEffect
  | .build => buildEffect
  | .gen => genEffect
  | .enc d => encEffect d
  | .dec d => decEffect d
  | .decend => decendEffect
  | .rdreg d => rdregEffect d
  | .rdfreq d => fun e => .ok e (e.freqOf d) []
  | .rdq d => fun e => .ok e (e.queueWord d) []
  | .rdnode n => fun e => .ok e (e.nodeWord n) []
  | .rdnfrq n => fun e => .ok e (e.nodeFreqWord n) []
  | .rdcode d => fun e => .ok e (BitVec.ofNat 32 (e.codeOf d).length) ((e.codeOf d).map bitChar)

theorem exec_eq_perform (i : Instr) (s : State) : exec i s = perform i (ownEffect i) s := by
  cases i <;> rfl

theorem perform_of_checks {i : Instr} {s : State} {k : ErrKind} (own : Engine → Effect)
    (h : checks i s.engine.phase = some k) : perform i own s = .next (s.raise k (encode i)) := by
  simp [perform, h]

theorem perform_ok {i : Instr} {s : State} {own : Engine → Effect} {e : Engine} {d : Data} {out : List Byte}
    (h : checks i s.engine.phase = none) (ho : own s.engine = .ok e d out) :
    perform i own s = .next (s.complete e d out) := by
  simp [perform, h, ho]

theorem perform_raise {i : Instr} {s : State} {own : Engine → Effect} {k : ErrKind}
    (h : checks i s.engine.phase = none) (ho : own s.engine = .raise k) :
    perform i own s = .next (s.raise k (encode i)) := by
  simp [perform, h, ho]

/-- Everything `perform` can do when it answers a next state. -/
theorem perform_next {i : Instr} {own : Engine → Effect} {s t : State} (h : perform i own s = .next t) :
    (checks i s.engine.phase = some .illegalCommand ∧ t = s.raise .illegalCommand (encode i)) ∨
    (checks i s.engine.phase = none ∧ ∃ k, own s.engine = .raise k ∧ t = s.raise k (encode i)) ∨
    (checks i s.engine.phase = none ∧ ∃ e d out, own s.engine = .ok e d out ∧ t = s.complete e d out) := by
  unfold perform at h
  split at h
  next k hk =>
    obtain rfl := checks_eq_some hk
    exact .inl ⟨hk, by simpa using h.symm⟩
  next hk =>
    split at h
    next e d out ho => exact .inr (.inr ⟨hk, e, d, out, ho, by simpa using h.symm⟩)
    next k ho => exact .inr (.inl ⟨hk, k, ho, by simpa using h.symm⟩)
    next f ho => simp at h

/-- Everything a command can do when it answers a next state. -/
theorem exec_next {i : Instr} {s t : State} (h : exec i s = .next t) :
    (checks i s.engine.phase = some .illegalCommand ∧ t = s.raise .illegalCommand (encode i)) ∨
    (checks i s.engine.phase = none ∧ ∃ k, ownEffect i s.engine = .raise k ∧ t = s.raise k (encode i)) ∨
    (checks i s.engine.phase = none ∧ ∃ e d out, ownEffect i s.engine = .ok e d out ∧ t = s.complete e d out) := by
  rw [exec_eq_perform] at h
  exact perform_next h

/-- No command is refused, and it faults only where its own rule is stuck. -/
theorem exec_not_next {i : Instr} {s : State} (h : ∀ t, exec i s ≠ .next t) :
    checks i s.engine.phase = none ∧ ∃ f, ownEffect i s.engine = .stuck f ∧ exec i s = .fault f := by
  rw [exec_eq_perform] at h ⊢
  unfold perform at h ⊢
  split
  next k hk => simp [hk] at h
  next hk =>
    split
    next e d out ho => simp [hk, ho] at h
    next k ho => simp [hk, ho] at h
    next f ho => exact ⟨hk, f, ho, rfl⟩

/-! ## The step -/

theorem step_present_ok {s : State} {w : CmdWord} {i : Instr} (h : decode w = .ok i) :
    step (s.present w) = exec i s := by
  simp [step, h]

theorem step_present_error {s : State} {w : CmdWord} {x : DecodeError} (h : decode w = .error x) :
    step (s.present w) = .next (s.raise .illegalCommand w) := by
  simp [step, h, State.rejectWord]

/-- A state that presents a word is another state with that word presented. -/
theorem eq_present {s : State} {w : CmdWord} {rest : List CmdWord} (h : s.cmdStream = w :: rest) :
    s = ({ s with cmdStream := rest } : State).present w := by
  cases s; simp_all [State.present]

theorem step_idle {s : State} (h : s.cmdStream = []) : step s = .next s := by
  simp [step, State.takeCommand, h]

/-- Everything a step can do when it answers a next state. -/
theorem step_next {s t : State} (h : step s = .next t) :
    (s.cmdStream = [] ∧ t = s) ∨
    (∃ (w : CmdWord) (s' : State), s = s'.present w ∧ (∃ x, decode w = .error x) ∧ t = s'.raise .illegalCommand w) ∨
    (∃ (w : CmdWord) (s' : State) (i : Instr), s = s'.present w ∧ decode w = .ok i ∧ exec i s' = .next t) := by
  cases hc : s.cmdStream with
  | nil =>
    rw [step_idle hc] at h
    exact .inl ⟨rfl, by simpa using h.symm⟩
  | cons w rest =>
    have hs := eq_present hc
    rw [hs] at h
    cases hd : decode w with
    | error x =>
      rw [step_present_error hd] at h
      exact .inr (.inl ⟨w, _, hs, ⟨x, hd⟩, by simpa using h.symm⟩)
    | ok i =>
      rw [step_present_ok hd] at h
      exact .inr (.inr ⟨w, _, i, hs, hd, h⟩)

end Sys2Proof.Machine
end

