-- ==== Sys2Proof/Laws/Queue.lean ====
section
/-! SUPPORT. The priority queue: where insert puts a node, what extract_min takes, what LOAD's loop writes
(41_priority_queue.md R75 to R79). -/

namespace Sys2Proof.Machine

/-! ## insert (R76) -/

theorem insert_queue (e : Engine) (n : NodeId) :
    (e.insert n).queue =
      e.queue.take (e.insertPos (e.nodeFreq n)) ++ n :: e.queue.drop (e.insertPos (e.nodeFreq n)) := rfl

/-- insert adds the node and keeps every other entry. -/
theorem insert_queue_perm (e : Engine) (n : NodeId) : (e.insert n).queue.Perm (n :: e.queue) := by
  rw [insert_queue]
  exact List.perm_middle.trans (by rw [List.take_append_drop])

@[simp] theorem insert_qsize (e : Engine) (n : NodeId) : (e.insert n).qsize = e.qsize + 1 := by
  simpa [Engine.qsize] using (insert_queue_perm e n).length_eq

theorem mem_insert_queue {e : Engine} {n m : NodeId} : m ∈ (e.insert n).queue ↔ m = n ∨ m ∈ e.queue := by
  simpa using (insert_queue_perm e n).mem_iff

@[simp] theorem insert_freqOf (e : Engine) (n : NodeId) (s : Symbol) : (e.insert n).freqOf s = e.freqOf s :=
  freqOf_congr rfl s

@[simp] theorem insert_nodeAt (e : Engine) (n m : NodeId) : (e.insert n).nodeAt m = e.nodeAt m :=
  nodeAt_congr rfl m

@[simp] theorem insert_nodeFreq (e : Engine) (n m : NodeId) : (e.insert n).nodeFreq m = e.nodeFreq m :=
  nodeFreq_congr rfl m

/-- In a list sorted by f, the entries with f < v are exactly the first ones, as many as there are. -/
theorem take_countP_lt {α : Type} (f : α → Freq) (v : Freq) :
    ∀ {l : List α}, l.Pairwise (fun a b => f a ≤ f b) →
      (∀ a ∈ l.take (l.countP (fun a => decide (f a < v))), f a < v) ∧
      ∀ a ∈ l.drop (l.countP (fun a => decide (f a < v))), v ≤ f a
  | [], _ => by simp
  | x :: l, h => by
    obtain ⟨hx, hl⟩ := List.pairwise_cons.mp h
    by_cases hlt : f x < v
    · simpa [List.countP_cons, hlt] using take_countP_lt f v hl
    · have hall : ∀ a ∈ l, ¬ f a < v := fun a ha hc =>
        hlt (BitVec.lt_def.mpr (Nat.lt_of_le_of_lt (BitVec.le_def.mp (hx a ha)) (BitVec.lt_def.mp hc)))
      have h0 : (x :: l).countP (fun a => decide (f a < v)) = 0 := by
        simp only [List.countP_eq_zero, List.mem_cons, decide_eq_true_eq]
        rintro a (rfl | ha)
        · exact hlt
        · exact hall a ha
      rw [h0]
      simp only [List.take_zero, List.drop_zero, List.not_mem_nil, false_imp_iff, implies_true, true_and,
        List.mem_cons]
      rintro a (rfl | ha)
      · exact BitVec.not_lt.mp hlt
      · exact BitVec.not_lt.mp (hall a ha)

/-- insert in a sorted queue: every entry before the new one has a smaller frequency, every entry after it an equal
or a greater one. This is R75. -/
theorem insert_splits {e : Engine} (n : NodeId)
    (h : e.queue.Pairwise (fun a b => e.nodeFreq a ≤ e.nodeFreq b)) :
    ∃ before after, e.queue = before ++ after ∧ (e.insert n).queue = before ++ n :: after ∧
      (∀ m ∈ before, e.nodeFreq m < e.nodeFreq n) ∧ ∀ m ∈ after, e.nodeFreq n ≤ e.nodeFreq m := by
  have := take_countP_lt e.nodeFreq (e.nodeFreq n) h
  exact ⟨_, _, (List.take_append_drop _ _).symm, rfl, this.1, this.2⟩

/-! ## extract_min (R77) -/

theorem extractMin_nil {e : Engine} (h : e.queue = []) : e.extractMin = .error .emptyStructure := by
  simp [Engine.extractMin, h]

theorem extractMin_cons {e : Engine} {n : NodeId} {rest : List NodeId} (h : e.queue = n :: rest) :
    e.extractMin = .ok (n, { e with queue := rest }) := by
  simp [Engine.extractMin, h]

/-! ## LOAD's loop (R79) -/

theorem allSymbols_length : allSymbols.length = 256 := by simp [allSymbols]

theorem allSymbols_getElem {k : Nat} (h : k < allSymbols.length) : allSymbols[k] = BitVec.ofNat 8 k := by
  simp [allSymbols]

/-- LOAD's scan stops exactly at the symbols with FREQ[s] > 0. -/
theorem mem_occurring {e : Engine} {s : Symbol} : s ∈ e.occurring ↔ 0#32 < e.freqOf s := by
  simp only [Engine.occurring, List.mem_filterMap, Prod.exists]
  constructor
  · rintro ⟨s', f, hmem, hif⟩
    split at hif
    next hf =>
      obtain rfl : s' = s := by simpa using hif
      obtain ⟨k, hk, hke⟩ := List.mem_iff_getElem.mp hmem
      simp only [List.getElem_zip, Prod.mk.injEq, List.length_zip, allSymbols_length, Vector.length_toList] at hke hk
      obtain ⟨h1, h2⟩ := hke
      have hk' : k < 256 := by omega
      have hs : s'.toNat = k := by
        rw [← h1]; simp [allSymbols]; omega
      have : e.freqOf s' = f := by
        rw [← h2]; simp [Engine.freqOf, hs]
      rwa [this]
    next => simp at hif
  · intro hf
    refine ⟨s, e.freqOf s, ?_, by simp [hf]⟩
    refine List.mem_iff_getElem.mpr ⟨s.toNat, ?_, ?_⟩
    · simp [allSymbols_length]; exact s.isLt
    · simp [Engine.freqOf, allSymbols]

/-- LOAD's scan is ascending, so it stops at no symbol twice. -/
theorem occurring_ascending (e : Engine) : e.occurring.Pairwise (· < ·) := by
  have hz : ((allSymbols.zip e.freq.toList).map Prod.fst).Pairwise (· < ·) := by
    rw [List.map_fst_zip (by simp [allSymbols_length])]
    simp only [allSymbols, List.pairwise_map]
    refine List.pairwise_lt_range.imp_of_mem fun ha hb hab => ?_
    simp only [List.mem_range] at ha hb
    simp only [BitVec.lt_def, BitVec.toNat_ofNat]
    omega
  simp only [Engine.occurring]
  refine List.Pairwise.filterMap _ ?_ (List.pairwise_map.mp hz)
  rintro ⟨a, fa⟩ ⟨b, fb⟩ hab c hc d hd
  split at hc <;> simp_all

theorem leafId_inj {s s' : Symbol} (h : leafId s = leafId s') : s = s' := by
  have := congrArg BitVec.toNat h
  simp only [leafId, BitVec.toNat_setWidth] at this
  apply BitVec.eq_of_toNat_eq
  have := s.isLt; have := s'.isLt
  omega

/-- A leaf's id is not the id that names no node. -/
theorem leafId_ne_noNode (s : Symbol) : leafId s ≠ 511#9 := by
  intro h
  have := congrArg BitVec.toNat h
  simp [leafId] at this
  have := s.isLt
  omega

@[simp] theorem isLeaf_leafId (s : Symbol) : isLeaf (leafId s) = true := by
  simp only [isLeaf, leafId, decide_eq_true_eq, BitVec.lt_def, BitVec.toNat_setWidth]
  have := s.isLt
  simp; omega

@[simp] theorem symbolOf_leafId (s : Symbol) : symbolOf (leafId s) = s := by
  apply BitVec.eq_of_toNat_eq
  simp [symbolOf, leafId]

/-- Every id below 256 is the leaf of its symbol (10_state.md R29). -/
theorem leafId_symbolOf {n : NodeId} (h : isLeaf n = true) : leafId (symbolOf n) = n := by
  simp only [isLeaf, decide_eq_true_eq, BitVec.lt_def] at h
  apply BitVec.eq_of_toNat_eq
  simp at h
  simp [symbolOf, leafId]; omega

@[simp] theorem loadSymbol_freq (e : Engine) (s : Symbol) : (e.loadSymbol s).freq = e.freq := rfl
@[simp] theorem loadSymbol_qsize (e : Engine) (s : Symbol) : (e.loadSymbol s).qsize = e.qsize + 1 := by
  simp [Engine.loadSymbol, Engine.qsize, insert_queue]; omega

theorem loadSymbol_nodeAt (e : Engine) (s : Symbol) (n : NodeId) :
    (e.loadSymbol s).nodeAt n = if leafId s = n then some (leafNode (e.freqOf s)) else e.nodeAt n := by
  simp [Engine.loadSymbol, nodeAt_setNode _ _ _ (leafId_ne_noNode s)]

/-- The elements one symbol of LOAD's loop leaves alone. -/
theorem loadSymbol_frame (e : Engine) (s : Symbol) :
    (e.loadSymbol s).freq = e.freq ∧ (e.loadSymbol s).total = e.total ∧ (e.loadSymbol s).next = e.next ∧
    (e.loadSymbol s).code = e.code ∧ (e.loadSymbol s).buf = e.buf ∧ (e.loadSymbol s).phase = e.phase ∧
    (e.loadSymbol s).err = e.err ∧ (e.loadSymbol s).errCmd = e.errCmd :=
  ⟨rfl, rfl, rfl, rfl, rfl, rfl, rfl, rfl⟩

/-- The elements LOAD's loop leaves alone. -/
theorem foldl_loadSymbol_frame : ∀ (l : List Symbol) (e : Engine),
    let e' := l.foldl Engine.loadSymbol e
    e'.freq = e.freq ∧ e'.total = e.total ∧ e'.next = e.next ∧ e'.code = e.code ∧ e'.buf = e.buf ∧
    e'.phase = e.phase ∧ e'.err = e.err ∧ e'.errCmd = e.errCmd
  | [], _ => ⟨rfl, rfl, rfl, rfl, rfl, rfl, rfl, rfl⟩
  | s :: l, e => foldl_loadSymbol_frame l (e.loadSymbol s)

/-- LOAD's loop adds one entry to Q per symbol it stops at. -/
theorem foldl_loadSymbol_qsize : ∀ (l : List Symbol) (e : Engine),
    (l.foldl Engine.loadSymbol e).qsize = e.qsize + l.length
  | [], _ => rfl
  | s :: l, e => by
    simp only [List.foldl_cons, foldl_loadSymbol_qsize l, loadSymbol_qsize, List.length_cons]; omega

/-- The node memory after LOAD's loop: a leaf for every symbol it stopped at, the rest as it was. -/
theorem foldl_loadSymbol_nodeAt : ∀ (l : List Symbol) (e : Engine) (n : NodeId),
    (l.foldl Engine.loadSymbol e).nodeAt n =
      if isLeaf n = true ∧ symbolOf n ∈ l then some (leafNode (e.freqOf (symbolOf n))) else e.nodeAt n
  | [], _, _ => by simp
  | s :: l, e, n => by
    rw [List.foldl_cons, foldl_loadSymbol_nodeAt l, loadSymbol_nodeAt]
    have hf : (e.loadSymbol s).freqOf (symbolOf n) = e.freqOf (symbolOf n) := freqOf_congr rfl _
    rw [hf]
    by_cases hl : isLeaf n = true
    · by_cases hs : leafId s = n
      · subst hs; simp
      · have hne : symbolOf n ≠ s := fun h => hs (by rw [← h, leafId_symbolOf hl])
        simp [hl, hs, hne]
    · have hs : leafId s ≠ n := by rintro rfl; simp at hl
      simp [hl, hs]

/-- The entries of Q after LOAD's loop: those before and the leaves of the symbols it stopped at. -/
theorem foldl_loadSymbol_queue_perm : ∀ (l : List Symbol) (e : Engine),
    (l.foldl Engine.loadSymbol e).queue.Perm (l.map leafId ++ e.queue)
  | [], _ => by simp
  | s :: l, e => by
    refine (foldl_loadSymbol_queue_perm l (e.loadSymbol s)).trans ?_
    have h1 : (e.loadSymbol s).queue.Perm (leafId s :: e.queue) :=
      insert_queue_perm (e.setNode (leafId s) (leafNode (e.freqOf s))) (leafId s)
    simpa using (h1.append_left (l.map leafId)).trans List.perm_middle

end Sys2Proof.Machine
end

