-- ==== Sys2Proof/Laws/Code.lean ====
section
/-! SUPPORT. The code table: one entry recorded, and the decoder's match (43_code_table.md R95, 45_decoder.md
R110). -/

namespace Sys2Proof.Machine

/-- T[s], as a list of bits. -/
def CodeTable.entry (t : CodeTable) (s : Symbol) : List Bit := t[s.toNat]'s.isLt

@[simp] theorem codeOf_eq_entry (e : Engine) (s : Symbol) : e.code.entry s = e.codeOf s := rfl

@[simp] theorem emptyTable_entry (s : Symbol) : emptyTable.entry s = [] := by
  simp [CodeTable.entry, emptyTable]

/-- Recording the code of one leaf writes its symbol's entry and no other. -/
theorem record_entry (t : CodeTable) (n : NodeId) (path : List Bit) (s : Symbol) :
    (t.record n path).entry s = if symbolOf n = s then path else t.entry s := by
  simp only [CodeTable.entry, CodeTable.record, Vector.getElem_set, BitVec.toNat_inj]

/-- Visiting a leaf records its path. -/
theorem walk_leaf {e : Engine} {n : NodeId} {r : Node} (hn : e.nodeAt n = some r) (hl : isLeaf n = true)
    (fuel : Nat) (path : List Bit) (t : CodeTable) : e.walk (fuel + 1) n path t = some (t.record n path) := by
  rw [Engine.walk]; simp [hn, hl]

/-- Visiting a whole internal node visits the left child, then the right one. -/
theorem walk_internal {e : Engine} {n l r' : NodeId} {r : Node} (hn : e.nodeAt n = some r)
    (hi : isLeaf n = false) (hl : r.left = some l) (hr : r.right = some r') (fuel : Nat) (path : List Bit)
    (t : CodeTable) :
    e.walk (fuel + 1) n path t = (e.walk fuel l (path ++ [false]) t).bind (e.walk fuel r' (path ++ [true])) := by
  rw [Engine.walk]
  simp only [hn, hi, hl, hr]
  cases e.walk fuel l (path ++ [false]) t <;> simp

/-- The traversal reads only the node memory. -/
theorem walk_congr {e e' : Engine} (h : e.node = e'.node) :
    ∀ (fuel : Nat) (n : NodeId) (path : List Bit) (t : CodeTable), e.walk fuel n path t = e'.walk fuel n path t
  | 0, _, _, _ => rfl
  | fuel + 1, n, path, t => by
    have hw : ∀ n path t, e.walk fuel n path t = e'.walk fuel n path t := walk_congr h fuel
    rw [Engine.walk, Engine.walk]
    simp only [nodeAt_congr h, hw]

/-- Everything the match can answer when it answers a symbol (R110): that symbol's code is the sequence, and no
smaller symbol's is. -/
theorem matchCode_eq_some {e : Engine} {b : List Bit} {s : Symbol} (h : e.matchCode b = some s) :
    b ≠ [] ∧ e.codeOf s = b ∧ ∀ s' : Symbol, s' < s → e.codeOf s' ≠ b := by
  unfold Engine.matchCode at h
  split at h
  · simp at h
  · next hb =>
    refine ⟨hb, ?_⟩
    obtain ⟨k, hk, hs⟩ := Option.map_eq_some_iff.mp h
    obtain ⟨hlt, hp, hmin⟩ := List.findIdx?_eq_some_iff_getElem.mp hk
    simp only [Vector.length_toList] at hlt
    have hks : s.toNat = k := by rw [← hs]; simp; omega
    refine ⟨by simpa [Engine.codeOf, hks] using hp, fun s' hlt' => ?_⟩
    have hj : s'.toNat < k := by rw [← hks]; exact hlt'
    simpa [Engine.codeOf] using hmin s'.toNat hj

/-- The match answers none exactly when the sequence is empty or no code. -/
theorem matchCode_eq_none_iff {e : Engine} {b : List Bit} :
    e.matchCode b = none ↔ b = [] ∨ ∀ s : Symbol, e.codeOf s ≠ b := by
  unfold Engine.matchCode
  split
  · simp [*]
  · next hb =>
    simp only [Option.map_eq_none_iff, List.findIdx?_eq_none_iff, hb, false_or, decide_eq_false_iff_not]
    constructor
    · intro h s
      exact h _ (by simp [Engine.codeOf])
    · intro h c hc
      obtain ⟨k, hk, rfl⟩ := List.mem_iff_getElem.mp hc
      simp only [Vector.length_toList] at hk
      have := h (BitVec.ofNat 8 k)
      simpa [Engine.codeOf, Nat.mod_eq_of_lt hk] using this

end Sys2Proof.Machine
end

