-- ==== Sys2Proof/Laws/PerInstr.lean ====
section
/-! SUPPORT. Statements made per command. EncodingRow: the word of a command is an instance of its own row of the
opcode map (30_encoding.md R58). -/

namespace Sys2Proof.Laws

/-- Some row of the opcode map has the command's mnemonic, and the command's word is an instance of it. -/
def EncodingRow.Statement (i : Instr) : Prop :=
  ∃ row ∈ opcodeMap, row.mnemonic = i.mnemonic ∧ row.holds (encode i) = true

/-- The statement for one command from one row of the map. -/
theorem encodingRow_of_row {i : Instr} (row : OpcodeRow) (hmem : row ∈ opcodeMap)
    (hname : row.mnemonic = i.mnemonic) (hword : row.holds (encode i) = true) : EncodingRow.Statement i :=
  ⟨row, hmem, hname, hword⟩

theorem EncodingRow.clr : EncodingRow.Statement .clr :=
  encodingRow_of_row ⟨.clr, 0x1000#16, 0xFFFF#16⟩ (by decide) rfl (by decide)

theorem EncodingRow.acc (d : BitVec 8) : EncodingRow.Statement (.acc d) :=
  encodingRow_of_row ⟨.acc, 0x2000#16, 0xFF00#16⟩ (by decide) rfl (by revert d; decide)

theorem EncodingRow.load : EncodingRow.Statement .load :=
  encodingRow_of_row ⟨.load, 0x3000#16, 0xFFFF#16⟩ (by decide) rfl (by decide)

theorem EncodingRow.merge : EncodingRow.Statement .merge :=
  encodingRow_of_row ⟨.merge, 0x4000#16, 0xFFFF#16⟩ (by decide) rfl (by decide)

theorem EncodingRow.build : EncodingRow.Statement .build :=
  encodingRow_of_row ⟨.build, 0x5000#16, 0xFFFF#16⟩ (by decide) rfl (by decide)

theorem EncodingRow.gen : EncodingRow.Statement .gen :=
  encodingRow_of_row ⟨.gen, 0x6000#16, 0xFFFF#16⟩ (by decide) rfl (by decide)

theorem EncodingRow.enc (d : BitVec 8) : EncodingRow.Statement (.enc d) :=
  encodingRow_of_row ⟨.enc, 0x7000#16, 0xFF00#16⟩ (by decide) rfl (by revert d; decide)

theorem EncodingRow.dec (d : BitVec 8) : EncodingRow.Statement (.dec d) :=
  encodingRow_of_row ⟨.dec, 0x8000#16, 0xFF00#16⟩ (by decide) rfl (by revert d; decide)

theorem EncodingRow.decend : EncodingRow.Statement .decend :=
  encodingRow_of_row ⟨.decend, 0x9000#16, 0xFFFF#16⟩ (by decide) rfl (by decide)

theorem EncodingRow.rdreg (d : BitVec 8) : EncodingRow.Statement (.rdreg d) :=
  encodingRow_of_row ⟨.rdreg, 0xA000#16, 0xFF00#16⟩ (by decide) rfl (by revert d; decide)

theorem EncodingRow.rdfreq (d : BitVec 8) : EncodingRow.Statement (.rdfreq d) :=
  encodingRow_of_row ⟨.rdfreq, 0xB000#16, 0xFF00#16⟩ (by decide) rfl (by revert d; decide)

theorem EncodingRow.rdq (d : BitVec 8) : EncodingRow.Statement (.rdq d) :=
  encodingRow_of_row ⟨.rdq, 0xC000#16, 0xFF00#16⟩ (by decide) rfl (by revert d; decide)

theorem EncodingRow.rdnode (n : NodeId) : EncodingRow.Statement (.rdnode n) :=
  encodingRow_of_row ⟨.rdnode, 0xD000#16, 0xFE00#16⟩ (by decide) rfl (by revert n; decide)

theorem EncodingRow.rdnfrq (n : NodeId) : EncodingRow.Statement (.rdnfrq n) :=
  encodingRow_of_row ⟨.rdnfrq, 0xE000#16, 0xFE00#16⟩ (by decide) rfl (by revert n; decide)

theorem EncodingRow.rdcode (d : BitVec 8) : EncodingRow.Statement (.rdcode d) :=
  encodingRow_of_row ⟨.rdcode, 0xF000#16, 0xFF00#16⟩ (by decide) rfl (by revert d; decide)

end Sys2Proof.Laws
end

