-- ==== Sys2Proof/Laws/Tree.lean ====
section
/-! SUPPORT. merge_step and its loop (42_tree_builder.md R85, R87): what they write, what they leave alone. -/

namespace Sys2Proof.Machine

/-! ## One merge after its two extractions -/

/-- The elements a merge leaves alone. -/
theorem joinNodes_frame (e : Engine) (a b : NodeId) :
    (e.joinNodes a b).freq = e.freq ∧ (e.joinNodes a b).total = e.total ∧ (e.joinNodes a b).code = e.code ∧
    (e.joinNodes a b).buf = e.buf ∧ (e.joinNodes a b).phase = e.phase ∧ (e.joinNodes a b).err = e.err ∧
    (e.joinNodes a b).errCmd = e.errCmd := by
  simp [Engine.joinNodes]

@[simp] theorem joinNodes_next (e : Engine) (a b : NodeId) : (e.joinNodes a b).next = e.next + 1#9 := by
  simp [Engine.joinNodes]

@[simp] theorem joinNodes_qsize (e : Engine) (a b : NodeId) : (e.joinNodes a b).qsize = e.qsize + 1 := by
  simp [Engine.joinNodes, Engine.qsize, insert_queue]; omega

/-- The labels a merge writes on its two nodes: 0 on the first, then 1 on the second. -/
def labelled (a b n : NodeId) (r : Node) : Node :=
  if n = b then { r with label := some true } else if n = a then { r with label := some false } else r

/-- The node memory after a merge: the new record at NEXT, the labels on its children, the rest as it was. -/
theorem joinNodes_nodeAt {e : Engine} (a b n : NodeId) (hn : e.next ≠ 511#9) :
    (e.joinNodes a b).nodeAt n =
      if e.next = n then some ⟨e.nodeFreq a + e.nodeFreq b, some a, some b, none⟩
      else (e.nodeAt n).map (labelled a b n) := by
  have h1 : (e.joinNodes a b).nodeAt n =
      (((e.labelNode a false).labelNode b true).setNode e.next
        (((e.labelNode a false).labelNode b true).mergedNode a b)).nodeAt n := by
    simp only [Engine.joinNodes, insert_nodeAt]
    exact nodeAt_congr rfl n
  rw [h1, nodeAt_setNode _ _ _ hn]
  simp only [Engine.mergedNode, nodeFreq_labelNode, nodeAt_labelNode]
  split
  · rfl
  · cases hr : e.nodeAt n with
    | none => by_cases ha : a = n <;> by_cases hb : b = n <;> simp [ha, hb]
    | some r =>
      by_cases ha : a = n <;> by_cases hb : b = n
      · simp [ha, hb, labelled]
      · simp [ha, hb, labelled, Ne.symm hb]
      · simp [ha, hb, labelled]
      · simp [ha, hb, labelled, Ne.symm ha, Ne.symm hb]

/-- Q after a merge holds the new id and what it held before. -/
theorem joinNodes_queue_perm (e : Engine) (a b : NodeId) :
    (e.joinNodes a b).queue.Perm (e.next :: e.queue) := by
  simp only [Engine.joinNodes]
  exact (insert_queue_perm _ _).trans (by simp)

/-! ## merge_step -/

theorem mergeStep_cons_cons {e : Engine} {a b : NodeId} {rest : List NodeId} (h : e.queue = a :: b :: rest) :
    e.mergeStep = .ok (({ e with queue := rest } : Engine).joinNodes a b) := by
  simp [Engine.mergeStep, Engine.extractMin, h]

/-- merge_step does not fail with two nodes in Q. -/
theorem mergeStep_ok {e : Engine} (h : 2 ≤ e.qsize) :
    ∃ a b rest, e.queue = a :: b :: rest ∧ e.mergeStep = .ok (({ e with queue := rest } : Engine).joinNodes a b) := by
  match hq : e.queue with
  | [] => simp [Engine.qsize, hq] at h
  | [_] => simp [Engine.qsize, hq] at h
  | a :: b :: rest => exact ⟨a, b, rest, rfl, mergeStep_cons_cons hq⟩

/-- Everything a merge_step that succeeds does to the counts: "QSIZE falls by exactly one, NEXT rises by exactly
one" (R85). -/
theorem mergeStep_counts {e e' : Engine} (h : e.mergeStep = .ok e') :
    2 ≤ e.qsize ∧ e'.qsize + 1 = e.qsize ∧ e'.next = e.next + 1#9 := by
  unfold Engine.mergeStep at h
  match hq : e.queue with
  | [] => simp [Engine.extractMin, hq] at h
  | [_] => simp [Engine.extractMin, hq] at h
  | a :: b :: rest =>
    obtain rfl : ({ e with queue := rest } : Engine).joinNodes a b = e' := by
      simpa [Engine.extractMin, hq] using h
    simp only [joinNodes_qsize, joinNodes_next]
    simp [Engine.qsize, hq]

/-- The elements a merge_step leaves alone. -/
theorem mergeStep_frame {e e' : Engine} (h : e.mergeStep = .ok e') :
    e'.freq = e.freq ∧ e'.total = e.total ∧ e'.code = e.code ∧ e'.buf = e.buf ∧ e'.phase = e.phase ∧
    e'.err = e.err ∧ e'.errCmd = e.errCmd := by
  obtain ⟨a, b, rest, -, hm⟩ := mergeStep_ok (mergeStep_counts h).1
  obtain rfl : ({ e with queue := rest } : Engine).joinNodes a b = e' := by simpa [hm] using h
  exact joinNodes_frame _ a b

/-! ## The loop (R87) -/

theorem buildLoop_of_qsize_le_one {e : Engine} (h : e.qsize ≤ 1) : ∀ turns, Engine.buildLoop turns e = .ok e
  | 0 => rfl
  | turns + 1 => by simp [Engine.buildLoop]; omega

theorem buildLoop_succ {e e' : Engine} (h : e.mergeStep = .ok e') (turns : Nat) :
    Engine.buildLoop (turns + 1) e = Engine.buildLoop turns e' := by
  have := (mergeStep_counts h).1
  have h1 : 1 < e.qsize := by omega
  simp [Engine.buildLoop, h, h1]

/-- The loop carries whatever every merge_step keeps. -/
theorem buildLoop_induction {P : Engine → Prop} (hstep : ∀ e e', P e → e.mergeStep = .ok e' → P e') :
    ∀ {turns : Nat} {e e' : Engine}, P e → Engine.buildLoop turns e = .ok e' → P e'
  | 0, e, e', hp, h => by
    obtain rfl : e = e' := by simpa [Engine.buildLoop] using h
    exact hp
  | turns + 1, e, e', hp, h => by
    unfold Engine.buildLoop at h
    split at h
    · split at h
      next => simp at h
      next e1 he1 => exact buildLoop_induction hstep (hstep e e1 hp he1) h
    · obtain rfl : e = e' := by simpa using h
      exact hp

/-- With QSIZE − 1 turns the loop does not fail and one node is left. -/
theorem buildLoop_ends : ∀ {turns : Nat} {e : Engine}, e.qsize = turns + 1 →
    ∃ e', Engine.buildLoop turns e = .ok e' ∧ e'.qsize = 1 ∧ e'.next = e.next + BitVec.ofNat 9 turns
  | 0, e, h => ⟨e, rfl, h, by simp⟩
  | turns + 1, e, h => by
    obtain ⟨a, b, rest, -, hm⟩ := mergeStep_ok (e := e) (by omega)
    obtain ⟨-, hq, hx⟩ := mergeStep_counts hm
    obtain ⟨e', hb, hq', hn⟩ := buildLoop_ends (turns := turns)
      (e := ({ e with queue := rest } : Engine).joinNodes a b) (by omega)
    refine ⟨e', by rw [buildLoop_succ hm, hb], hq', ?_⟩
    rw [hn, hx]
    apply BitVec.eq_of_toNat_eq
    simp only [BitVec.toNat_add, BitVec.toNat_ofNat]
    omega

end Sys2Proof.Machine
end

