-- ==== Sys2Proof/Tests/Slice0.lean ====
section
/-! SUPPORT. The model's own tests: well-formedness, decoding from the bits the spec gives, one step of each command
against the values of spec/95_test_vectors.md, and for each statement with hypotheses a state that meets them. -/

namespace Sys2Proof.Machine.Tests

set_option maxRecDepth 100000

/-! ## States -/

/-- A state with this engine, no word presented, nothing sent. -/
def at_ (e : Engine) : State := { engine := e, cmdStream := [], sent := [] }

/-- "abb" counted. -/
def eCounted : Engine := { (Engine.reset.setFreq 0x61#8 1#32).setFreq 0x62#8 2#32 with total := 3#32 }

/-- "abb" after LOAD. -/
def eTwo : Engine :=
  { (eCounted.setNode 0x61#9 (leafNode 1#32)).setNode 0x62#9 (leafNode 2#32) with
    queue := [0x61#9, 0x62#9], phase := .queued }

/-- "abb" after BUILD. -/
def eTree : Engine :=
  { ((eCounted.setNode 0x61#9 ⟨1#32, none, none, some false⟩).setNode 0x62#9
      ⟨2#32, none, none, some true⟩).setNode 256#9 ⟨3#32, some 0x61#9, some 0x62#9, none⟩ with
    queue := [256#9], next := 257#9, phase := .queued }

/-- "abb" after GEN. -/
def eCoded : Engine :=
  { eTree with code := (emptyTable.record 0x61#9 [false]).record 0x62#9 [true], phase := .coded }

/-- "a" after LOAD: one leaf, which is the root. -/
def eOne : Engine :=
  { (Engine.reset.setFreq 0x61#8 1#32).setNode 0x61#9 (leafNode 1#32) with
    total := 1#32, queue := [0x61#9], phase := .queued }

/-- "a" after GEN. -/
def eOneCoded : Engine := { eOne with code := emptyTable.record 0x61#9 [false], phase := .coded }

/-- "a" after GEN and one DEC of '1': the only state a run reaches with a bit left over and one symbol. -/
def eOneLeft : Engine := { eOneCoded with buf := [true] }

/-- Nothing counted, after LOAD. -/
def eNone : Engine := { Engine.reset with phase := .queued }

/-- After the reserved word 0x0000 right after reset. -/
def eFault : Engine := Engine.reset.raise .illegalCommand 0x0000#16

/-! ## The entries of those states -/

theorem eCounted_freqOf (s : Symbol) :
    eCounted.freqOf s = if 0x62#8 = s then 2#32 else if 0x61#8 = s then 1#32 else 0#32 := by
  rw [show eCounted.freqOf s = ((Engine.reset.setFreq 0x61#8 1#32).setFreq 0x62#8 2#32).freqOf s from rfl,
    freqOf_setFreq, freqOf_setFreq, reset_freqOf]

theorem eTwo_nodeAt (n : NodeId) :
    eTwo.nodeAt n = if 0x62#9 = n then some (leafNode 2#32) else if 0x61#9 = n then some (leafNode 1#32) else none := by
  rw [show eTwo.nodeAt n =
      ((eCounted.setNode 0x61#9 (leafNode 1#32)).setNode 0x62#9 (leafNode 2#32)).nodeAt n from rfl,
    nodeAt_setNode _ _ _ (by decide), nodeAt_setNode _ _ _ (by decide)]
  rw [show eCounted.nodeAt n = Engine.reset.nodeAt n from rfl, reset_nodeAt]

theorem eTree_nodeAt (n : NodeId) :
    eTree.nodeAt n = if 256#9 = n then some ⟨3#32, some 0x61#9, some 0x62#9, none⟩
      else if 0x62#9 = n then some ⟨2#32, none, none, some true⟩
      else if 0x61#9 = n then some ⟨1#32, none, none, some false⟩ else none := by
  rw [show eTree.nodeAt n = (((eCounted.setNode 0x61#9 ⟨1#32, none, none, some false⟩).setNode 0x62#9
      ⟨2#32, none, none, some true⟩).setNode 256#9 ⟨3#32, some 0x61#9, some 0x62#9, none⟩).nodeAt n from rfl,
    nodeAt_setNode _ _ _ (by decide), nodeAt_setNode _ _ _ (by decide), nodeAt_setNode _ _ _ (by decide)]
  rw [show eCounted.nodeAt n = Engine.reset.nodeAt n from rfl, reset_nodeAt]

theorem eCoded_codeOf (s : Symbol) :
    eCoded.codeOf s = if 0x62#8 = s then [true] else if 0x61#8 = s then [false] else [] := by
  rw [← codeOf_eq_entry, show eCoded.code = (emptyTable.record 0x61#9 [false]).record 0x62#9 [true] from rfl,
    record_entry, record_entry, emptyTable_entry]
  rfl

theorem eOne_freqOf (s : Symbol) : eOne.freqOf s = if 0x61#8 = s then 1#32 else 0#32 := by
  rw [show eOne.freqOf s = (Engine.reset.setFreq 0x61#8 1#32).freqOf s from rfl, freqOf_setFreq, reset_freqOf]

theorem eOne_nodeAt (n : NodeId) : eOne.nodeAt n = if 0x61#9 = n then some (leafNode 1#32) else none := by
  rw [show eOne.nodeAt n = ((Engine.reset.setFreq 0x61#8 1#32).setNode 0x61#9 (leafNode 1#32)).nodeAt n from rfl,
    nodeAt_setNode _ _ _ (by decide)]
  rw [show (Engine.reset.setFreq 0x61#8 1#32).nodeAt n = Engine.reset.nodeAt n from rfl, reset_nodeAt]

theorem eOneCoded_codeOf (s : Symbol) : eOneCoded.codeOf s = if 0x61#8 = s then [false] else [] := by
  rw [← codeOf_eq_entry, show eOneCoded.code = emptyTable.record 0x61#9 [false] from rfl,
    record_entry, emptyTable_entry]
  rfl

/-! ## They are sound -/

theorem inv_of_stage {e : Engine} (ht : e.TotalIsSum) (hr : e.ErrorRecorded) (hs : e.StageInv e.phase) : e.Inv :=
  ⟨ht, hr, .inl hs⟩

theorem test_reset_sound : Engine.reset.Inv :=
  inv_of_stage (by unfold Engine.TotalIsSum; decide) (by unfold Engine.ErrorRecorded; decide) ⟨rfl, rfl, rfl, rfl, rfl⟩

theorem test_eCounted_sound : eCounted.Inv :=
  inv_of_stage (by unfold Engine.TotalIsSum; decide) (by unfold Engine.ErrorRecorded; decide) ⟨rfl, rfl, rfl, rfl, rfl⟩

/-- The items of the tree read neither CODE nor PHASE. -/
theorem treeInv_code {e : Engine} (h : e.TreeInv) (c : CodeTable) (p : Phase) :
    ({ e with code := c, phase := p } : Engine).TreeInv := h

theorem eTwo_tree : eTwo.TreeInv := by
  have hf : ∀ s, eTwo.freqOf s = eCounted.freqOf s := fun _ => rfl
  refine ⟨?_, ⟨by decide, by decide, by decide⟩, ⟨?_, ?_⟩, ⟨by decide, by decide, ?_⟩,
    by unfold Engine.before; decide, by decide, ?_⟩
  · unfold Engine.LeavesMatch
    simp only [hf, eCounted_freqOf, eTwo_nodeAt]
    decide
  · simp [show eTwo.internalIds = [] by decide]
  · simp only [eTwo_nodeAt, show eTwo.next = 256#9 from rfl]; decide
  · simp only [eTwo_nodeAt, show eTwo.placed = [0x61#9, 0x62#9] by decide]; decide
  · simp only [eTwo_nodeAt, show eTwo.total = 3#32 from rfl]; decide

theorem test_eTwo_sound : eTwo.Inv :=
  inv_of_stage (by unfold Engine.TotalIsSum; decide) (by unfold Engine.ErrorRecorded; decide) ⟨eTwo_tree, rfl, rfl⟩

theorem eTree_tree : eTree.TreeInv := by
  have hf : ∀ s, eTree.freqOf s = eCounted.freqOf s := fun _ => rfl
  refine ⟨?_, ⟨by decide, by decide, by decide⟩, ⟨?_, ?_⟩, ⟨by decide, by decide, ?_⟩,
    by unfold Engine.before; decide, by decide, ?_⟩
  · unfold Engine.LeavesMatch
    simp only [hf, eCounted_freqOf, eTree_nodeAt]
    decide
  · rw [show eTree.internalIds = [256#9] by decide]
    unfold Engine.InternalOk
    decide
  · simp only [eTree_nodeAt, show eTree.next = 257#9 from rfl]; decide
  · simp only [eTree_nodeAt, show eTree.placed = [256#9, 0x61#9, 0x62#9] by decide]; decide
  · simp only [eTree_nodeAt, show eTree.total = 3#32 from rfl]; decide

theorem test_eTree_sound : eTree.Inv :=
  inv_of_stage (by unfold Engine.TotalIsSum; decide) (by unfold Engine.ErrorRecorded; decide) ⟨eTree_tree, rfl, rfl⟩

theorem test_eCoded_sound : eCoded.Inv := by
  have hf : ∀ s, eCoded.freqOf s = eCounted.freqOf s := fun _ => rfl
  refine inv_of_stage (by unfold Engine.TotalIsSum; decide) (by unfold Engine.ErrorRecorded; decide)
    ⟨eTree_tree, ⟨by decide, ?_, ?_, ?_, ?_⟩, ⟨by decide, ?_⟩⟩
  · decide
  · simp only [hf, eCounted_freqOf, eCoded_codeOf]; decide
  · unfold Engine.CodesPrefixFree
    simp only [eCoded_codeOf]
    intro s s' h
    by_cases h1 : 0x62#8 = s <;> by_cases h2 : 0x62#8 = s' <;> by_cases h3 : 0x61#8 = s <;>
      by_cases h4 : 0x61#8 = s' <;> simp_all
  · simp only [eCoded_codeOf]; decide
  · simp only [eCoded_codeOf, show eCoded.buf = [] from rfl]; decide

theorem eOne_tree : eOne.TreeInv := by
  refine ⟨?_, ⟨by decide, by decide, by decide⟩, ⟨?_, ?_⟩, ⟨by decide, by decide, ?_⟩,
    by unfold Engine.before; decide, by decide, ?_⟩
  · unfold Engine.LeavesMatch
    simp only [eOne_freqOf, eOne_nodeAt]
    decide
  · simp [show eOne.internalIds = [] by decide]
  · simp only [eOne_nodeAt, show eOne.next = 256#9 from rfl]; decide
  · simp only [eOne_nodeAt, show eOne.placed = [0x61#9] by decide]; decide
  · simp only [eOne_nodeAt, show eOne.total = 1#32 from rfl]; decide

theorem test_eOne_sound : eOne.Inv :=
  inv_of_stage (by unfold Engine.TotalIsSum; decide) (by unfold Engine.ErrorRecorded; decide) ⟨eOne_tree, rfl, rfl⟩

theorem eOneCoded_table : eOneCoded.TableInv := by
  have hf : ∀ s, eOneCoded.freqOf s = eOne.freqOf s := fun _ => rfl
  refine ⟨by decide, by decide, ?_, ?_, ?_⟩
  · simp only [hf, eOne_freqOf, eOneCoded_codeOf]; decide
  · unfold Engine.CodesPrefixFree
    simp only [eOneCoded_codeOf]
    intro s s' h
    by_cases h1 : 0x61#8 = s <;> by_cases h2 : 0x61#8 = s' <;> simp_all
  · simp only [eOneCoded_codeOf]; decide

theorem eOneCoded_tree : eOneCoded.TreeInv := by
  unfold eOneCoded
  exact treeInv_code eOne_tree _ _

theorem test_eOneCoded_sound : eOneCoded.Inv := by
  refine inv_of_stage test_eOne_sound.1 (by unfold Engine.ErrorRecorded; decide)
    (show eOneCoded.TreeInv ∧ _ from ⟨eOneCoded_tree, eOneCoded_table, ⟨by decide, ?_⟩⟩)
  simp only [eOneCoded_codeOf, show eOneCoded.buf = [] from rfl]; decide

/-- In CODED another unmatched buffer leaves a sound engine sound. -/
theorem inv_buf {e : Engine} (ht : e.TotalIsSum) (hr : e.ErrorRecorded) (hp : e.phase = .coded)
    (hs : e.TreeInv ∧ e.TableInv) (b : List Bit) (hb : ({ e with buf := b } : Engine).BufferUnmatched) :
    ({ e with buf := b } : Engine).Inv :=
  inv_of_stage ht hr (by
    rw [show ({ e with buf := b } : Engine).phase = .coded from hp]
    refine ⟨hs.1, ⟨hs.2.1, fun root hr => ?_, hs.2.2.2⟩, hb⟩
    have := hs.2.2.1 root hr
    unfold Engine.tableFrom at this ⊢
    rwa [walk_congr (e' := e) (by rfl)])

theorem test_eOneLeft_sound : eOneLeft.Inv := by
  unfold eOneLeft
  refine inv_buf (e := eOneCoded) test_eOneCoded_sound.1 test_eOneCoded_sound.2.1 rfl
    ⟨eOneCoded_tree, eOneCoded_table⟩ [true] ⟨by simp, fun s => ?_⟩
  rw [show ({ eOneCoded with buf := [true] } : Engine).codeOf s = eOneCoded.codeOf s from rfl, eOneCoded_codeOf]
  split <;> simp

theorem test_eFault_sound : eFault.Inv :=
  ⟨test_reset_sound.1, by unfold Engine.ErrorRecorded; decide, .inr ⟨rfl, .inl ⟨rfl, rfl, rfl, rfl, rfl⟩⟩⟩

/-! ## Well-formedness: each check refuses an ill-formed term -/

/-- OP = 0 is no row of the opcode map (30_encoding.md R58, R122). -/
theorem test_reserved_opcode_ill_formed : wellFormedWord 0x0000#16 = false := by decide
/-- Format Z with bit 0 set (R56). -/
theorem test_reserved_bit_of_Z_ill_formed : wellFormedWord 0x1001#16 = false := by decide
/-- Format B with bit 8 set. -/
theorem test_reserved_bit_of_B_ill_formed : wellFormedWord 0x2161#16 = false := by decide
/-- Format N with bit 9 set. -/
theorem test_reserved_bit_of_N_ill_formed : wellFormedWord 0xD200#16 = false := by decide
/-- A row holds of a word of its own and of no word of another opcode. -/
theorem test_row_refuses_other_opcode : (OpcodeRow.holds ⟨.acc, 0x2000#16, 0xFF00#16⟩ 0x7061#16) = false := by decide
/-- An operand on a format that has none (R64). -/
theorem test_operand_on_Z_ill_formed : (AsmLine.command .load (some 0)).wellFormed = false := by decide
/-- No operand on a format that has one. -/
theorem test_missing_operand_ill_formed : (AsmLine.command .acc none).wellFormed = false := by decide
/-- An operand above 8 bits. -/
theorem test_byte_operand_too_large_ill_formed : (AsmLine.command .acc (some 256)).wellFormed = false := by decide
/-- An operand above 9 bits. -/
theorem test_node_operand_too_large_ill_formed : (AsmLine.command .rdnode (some 512)).wellFormed = false := by decide
/-- The largest operands that fit. -/
theorem test_largest_operands_well_formed :
    (AsmLine.command .acc (some 255)).wellFormed = true ∧ (AsmLine.command .rdnode (some 511)).wellFormed = true := by
  decide

/-! ## Decoding: one word of every row, bit by bit from the formats of R56 and the opcodes of R58 -/

theorem test_decode_clr : decode 0b0001_000000000000#16 = .ok .clr := by decide
theorem test_decode_acc : decode 0b0010_0000_01100001#16 = .ok (.acc 0x61#8) := by decide
theorem test_decode_load : decode 0b0011_000000000000#16 = .ok .load := by decide
theorem test_decode_merge : decode 0b0100_000000000000#16 = .ok .merge := by decide
theorem test_decode_build : decode 0b0101_000000000000#16 = .ok .build := by decide
theorem test_decode_gen : decode 0b0110_000000000000#16 = .ok .gen := by decide
theorem test_decode_enc : decode 0b0111_0000_01111010#16 = .ok (.enc 0x7A#8) := by decide
theorem test_decode_dec : decode 0b1000_0000_00110001#16 = .ok (.dec 0x31#8) := by decide
theorem test_decode_decend : decode 0b1001_000000000000#16 = .ok .decend := by decide
theorem test_decode_rdreg : decode 0b1010_0000_00000110#16 = .ok (.rdreg 6#8) := by decide
theorem test_decode_rdfreq : decode 0b1011_0000_11111111#16 = .ok (.rdfreq 0xFF#8) := by decide
theorem test_decode_rdq : decode 0b1100_0000_10000001#16 = .ok (.rdq 0x81#8) := by decide
/-- The node operand is nine bits wide: bit 8 is its highest (R57). -/
theorem test_decode_rdnode : decode 0b1101_000_100000001#16 = .ok (.rdnode 257#9) := by decide
theorem test_decode_rdnfrq : decode 0b1110_000_111111110#16 = .ok (.rdnfrq 510#9) := by decide
theorem test_decode_rdcode : decode 0b1111_0000_01100011#16 = .ok (.rdcode 0x63#8) := by decide
theorem test_decode_reserved_opcode : decode 0b0000_111111111111#16 = .error .reservedOpcode := by decide
theorem test_decode_reserved_bits :
    decode 0b0011_100000000000#16 = .error .reservedBits ∧ decode 0b0111_0001_01100001#16 = .error .reservedBits ∧
    decode 0b1110_001_000000000#16 = .error .reservedBits := by decide

/-- No word is an instance of two rows (30_encoding.md R58). -/
theorem test_rows_are_disjoint :
    opcodeMap.Pairwise (fun r r' => r.matchBits &&& r'.mask ≠ r'.matchBits &&& r.mask) := by decide

/-- A word numbered as the opcode table numbers it, and a reserved one. -/
theorem test_table_word :
    decodeTableWord 16 0x2061 = some (.acc 0x61#8) ∧ decodeTableWord 16 0xD1FE = some (.rdnode 510#9) ∧
    decodeTableWord 16 0x0000 = none := by decide

/-- The word placed by withFetchWord is the one the next step runs: from reset, ACC 'a' (V1). -/
theorem test_withFetchWord_runs_next :
    step (State.reset.withFetchWord 16 0x2061) = exec (.acc 0x61#8) State.reset := by rfl

/-! ## One step of each command -/

/-- What is sent when the word w is performed on the engine e. -/
def answer (e : Engine) (w : CmdWord) : Option (List Event) :=
  match step ((at_ e).present w) with
  | .next t => some t.sent
  | .fault _ => none
  | .refused _ => none

/-- The engine after the word w. -/
def after (e : Engine) (w : CmdWord) : Option Engine :=
  match step ((at_ e).present w) with
  | .next t => some t.engine
  | .fault _ => none
  | .refused _ => none

/-- "aabbbcc" counted (V1). -/
def abcCounted : Engine :=
  { ((Engine.reset.setFreq 0x61#8 2#32).setFreq 0x62#8 3#32).setFreq 0x63#8 2#32 with total := 7#32 }

/-- Its three leaves. -/
def abcLeaves : Engine :=
  ((abcCounted.setNode 0x61#9 (leafNode 2#32)).setNode 0x62#9 (leafNode 3#32)).setNode 0x63#9 (leafNode 2#32)

/-- "aabbbcc" after LOAD (V9, V13). -/
def abcQueued : Engine := { abcLeaves with queue := [0x63#9, 0x61#9, 0x62#9], phase := .queued }

/-- "aabbbcc" after BUILD (V13). -/
def abcTree : Engine :=
  { ((((abcCounted.setNode 0x61#9 ⟨2#32, none, none, some true⟩).setNode 0x62#9
      ⟨3#32, none, none, some false⟩).setNode 0x63#9 ⟨2#32, none, none, some false⟩).setNode 256#9
      ⟨4#32, some 0x63#9, some 0x61#9, some true⟩).setNode 257#9 ⟨7#32, some 0x62#9, some 256#9, none⟩ with
    queue := [257#9], next := 258#9, phase := .queued }

/-- "aabbbcc" after GEN (V24). -/
def abcCoded : Engine :=
  { abcTree with
    code := ((emptyTable.record 0x61#9 [true, true]).record 0x62#9 [false]).record 0x63#9 [true, false]
    phase := .coded }

/-- CLR leaves FAULT and everything of the run (R120, R145). -/
theorem test_clr_starts_over : answer eFault 0x1000#16 = some [.rsp ⟨0#4, 0#32⟩] ∧
    (after eFault 0x1000#16).map Engine.statusRegister = some 0#32 ∧
    (after abcCoded 0x1000#16).map (fun e => (e.freqOf 0x61#8, e.total, e.queue, e.nodeAt 257#9, e.next)) =
      some (0#32, 0#32, [], none, 256#9) ∧
    (after abcCoded 0x1000#16).map (fun e => (e.codeOf 0x61#8, e.phase)) = some ([], .accum) := by decide

/-- V1: an eighth byte, 'b', is counted 4. -/
theorem test_acc_counts : answer abcCounted 0x2062#16 = some [.rsp ⟨0#4, 4#32⟩] ∧
    (after abcCounted 0x2062#16).map Engine.total = some 8#32 := by decide

/-- V5: the overflow test is on TOTAL. -/
theorem test_acc_overflow :
    answer { abcCounted with total := 0xFFFFFFFF#32 } 0x2064#16 = some [.rsp ⟨7#4, 0#32⟩] ∧
    (after { abcCounted with total := 0xFFFFFFFF#32 } 0x2064#16).map Engine.statusRegister = some 0x73#32 := by decide

/-- V1. -/
theorem test_rdfreq : answer abcCounted 0xB062#16 = some [.rsp ⟨0#4, 3#32⟩] := by decide

/-- V9, V13: equal counts in descending symbol. -/
theorem test_load_order : answer abcCounted 0x3000#16 = some [.rsp ⟨0#4, 3#32⟩] ∧
    (after abcCounted 0x3000#16).map Engine.queue = some [0x63#9, 0x61#9, 0x62#9] := by decide

/-- V11: LOAD on an empty table answers 0 and goes to QUEUED. -/
theorem test_load_empty : answer Engine.reset 0x3000#16 = some [.rsp ⟨0#4, 0#32⟩] ∧
    (after Engine.reset 0x3000#16).map Engine.statusRegister = some 0x01#32 := by decide

/-- V10. -/
theorem test_rdq : answer abcQueued 0xC000#16 = some [.rsp ⟨0#4, 0x80000063#32⟩] ∧
    answer abcQueued 0xC003#16 = some [.rsp ⟨0#4, 0#32⟩] := by decide

/-- V8: where insert puts a node of frequency 1, 2, 3, 4. -/
theorem test_insert_position :
    [1#32, 2#32, 3#32, 4#32].map abcQueued.insertPos = [0, 0, 2, 3] ∧ Engine.reset.insertPos 1#32 = 0 := by decide

/-- V13, the first MERGE. -/
theorem test_merge_first : answer abcQueued 0x4000#16 = some [.rsp ⟨0#4, 2#32⟩] ∧
    (after abcQueued 0x4000#16).map (fun e => (e.queue, e.nodeAt 256#9, e.next)) =
      some ([0x62#9, 256#9], some ⟨4#32, some 0x63#9, some 0x61#9, none⟩, 257#9) := by decide

/-- V13, the third MERGE. -/
theorem test_merge_one_left : answer abcTree 0x4000#16 = some [.rsp ⟨2#4, 0#32⟩] ∧
    (after abcTree 0x4000#16).map (fun e => (e.statusRegister, e.errCmd, e.queue)) =
      some (0x23#32, 0x4000#16, [257#9]) := by decide

/-- V13, V20: BUILD reaches the tree that two MERGE commands reach. -/
theorem test_build : answer abcQueued 0x5000#16 = some [.rsp ⟨0#4, 1#32⟩] ∧
    (after abcQueued 0x5000#16).map (fun e => (e.queue, e.next, [0x61#9, 0x62#9, 0x63#9, 256#9, 257#9].map e.nodeAt)) =
      some ([257#9], 258#9, [0x61#9, 0x62#9, 0x63#9, 256#9, 257#9].map abcTree.nodeAt) := by decide

/-- V21. -/
theorem test_build_empty : answer eNone 0x5000#16 = some [.rsp ⟨1#4, 0#32⟩] := by decide

/-- V13: 256 is labelled 1 and has children 0x63 and 0x61; 0x7A is no node. -/
theorem test_rdnode : answer abcTree 0xD100#16 = some [.rsp ⟨0#4, 0x00184C7F#32⟩] ∧
    answer abcTree 0xD07A#16 = some [.rsp ⟨0#4, 0#32⟩] := by decide

/-- V23. -/
theorem test_rdnode_511 : answer abcTree 0xD1FF#16 = some [.rsp ⟨6#4, 0#32⟩] := by decide

/-- V13. -/
theorem test_rdnfrq : answer abcTree 0xE100#16 = some [.rsp ⟨0#4, 4#32⟩] ∧
    answer abcTree 0xE102#16 = some [.rsp ⟨0#4, 0#32⟩] := by decide

/-- V24: the codes of 'a', 'b' and 'c'. -/
theorem test_gen : answer abcTree 0x6000#16 = some [.rsp ⟨0#4, 3#32⟩] ∧
    (after abcTree 0x6000#16).map (fun e => [0x61#8, 0x62#8, 0x63#8, 0x64#8].map e.codeOf) =
      some [[true, true], [false], [true, false], []] := by decide

/-- S1: the one symbol's code is "0". -/
theorem test_gen_one_symbol : (after eOne 0x6000#16).map (fun e => (e.codeOf 0x61#8, e.phase)) =
    some ([false], .coded) := by decide

/-- V31: RDCODE 'a' with the table of "aabbbcc", and of a symbol without code. -/
theorem test_rdcode :
    answer abcCoded 0xF061#16 = some [.out 0x31#8, .out 0x31#8, .rsp ⟨0#4, 2#32⟩] ∧
    answer abcCoded 0xF07A#16 = some [.rsp ⟨0#4, 0#32⟩] := by decide

/-- V29. -/
theorem test_enc : answer abcCoded 0x7063#16 = some [.out 0x31#8, .out 0x30#8, .rsp ⟨0#4, 2#32⟩] := by decide

/-- V31. -/
theorem test_enc_unknown : answer abcCoded 0x707A#16 = some [.rsp ⟨4#4, 0#32⟩] ∧
    (after abcCoded 0x707A#16).map (fun e => (e.statusRegister, e.errCmd)) = some (0x43#32, 0x707A#16) := by decide

/-- V33: '1' is kept, and a second '1' completes 'a'. -/
theorem test_dec : answer abcCoded 0x8031#16 = some [.rsp ⟨0#4, 0#32⟩] ∧
    answer { abcCoded with buf := [true] } 0x8031#16 = some [.out 0x61#8, .rsp ⟨0#4, 1#32⟩] := by decide

/-- A byte that is no bit character (R111, R115). -/
theorem test_dec_bad_character : answer abcCoded 0x8078#16 = some [.rsp ⟨5#4, 0#32⟩] := by decide

/-- DECEND with nothing left and with one bit left (R112). -/
theorem test_decend : answer abcCoded 0x9000#16 = some [.rsp ⟨0#4, 0#32⟩] ∧
    answer { abcCoded with buf := [true] } 0x9000#16 = some [.rsp ⟨5#4, 0#32⟩] := by decide

/-- The registers of R33 in the state of V13, and a number that names none. -/
theorem test_rdreg :
    [0xA000#16, 0xA001#16, 0xA002#16, 0xA003#16, 0xA004#16, 0xA005#16, 0xA006#16, 0xA007#16].map (answer abcTree) =
      [0xFF200100#32, 0x01#32, 7#32, 1#32, 258#32, 0#32, 0#32].map (fun v => some [.rsp ⟨0#4, v⟩]) ++
        [some [.rsp ⟨6#4, 0#32⟩]] := by decide

/-- A reserved opcode right after reset (R122). -/
theorem test_reserved_opcode_raises : answer Engine.reset 0x0000#16 = some [.rsp ⟨6#4, 0#32⟩] ∧
    (after Engine.reset 0x0000#16).map (fun e => (e.statusRegister, e.errCmd)) = some (0x63#32, 0x0000#16) := by
  decide

/-! ## The assembler -/

/-- R64: a decimal, a hexadecimal and a character operand; a comment; an operand too large. -/
theorem test_assemble_lines :
    assemble "ACC 97 ; a comment\n\nRDNODE 0x100\nENC 'z'\nGEN".toList =
      some [0x2061#16, 0xD100#16, 0x707A#16, 0x6000#16] ∧
    assemble "ACC 256".toList = none := by decide

/-- R65: the pseudo-instructions. -/
theorem test_assemble_pseudo :
    assemble "ACCS \"ab\"\nTABLE\nRDSTAT\nDECS \"01\"\nENCS \"\\x00\"".toList =
      some [0x2061#16, 0x2062#16, 0x3000#16, 0x5000#16, 0x6000#16, 0xA001#16, 0x8030#16, 0x8031#16, 0x7000#16] := by
  decide

/-! ## For each statement with hypotheses, a state and operands that meet them all

Where a statement has several clauses, each has its witness; a hypothesis that some command answers a next state is
met by a command that completes or raises there. -/

/-- The next state, where there is one. -/
def nextOf (i : Instr) (s : State) : Option State :=
  match exec i s with
  | .next t => some t
  | .fault _ => none
  | .refused _ => none

theorem exec_of_nextOf {i : Instr} {s t : State} (h : nextOf i s = some t) : exec i s = .next t := by
  unfold nextOf at h
  split at h <;> simp_all

/-- The last thing sent after the command i on the engine e. -/
def lastSent (i : Instr) (e : Engine) : Option Event := (nextOf i (at_ e)).bind (fun t => t.sent.getLast?)

theorem exec_of_lastSent {i : Instr} {e : Engine} {v : Event} (h : lastSent i e = some v) :
    ∃ t, exec i (at_ e) = .next t ∧ t.sent.getLast? = some v := by
  obtain ⟨t, ht, hv⟩ := Option.bind_eq_some_iff.mp h
  exact ⟨t, exec_of_nextOf ht, hv⟩

/-- A command whose checks pass and whose rule ends in ok completes. -/
theorem completes {i : Instr} {e e' : Engine} {d : Data} {out : List Byte}
    (hc : checks i e.phase = none) (ho : ownEffect i e = .ok e' d out) :
    ∃ t, exec i (at_ e) = .next t ∧ Completed (at_ e) t d out ∧ t.engine = e' :=
  ⟨_, (exec_eq_perform i (at_ e)).trans (perform_ok hc ho), completed_complete _ _ _ _, rfl⟩

theorem test_witness_EncodeInvertsDecode : decode 0xF0FF#16 = .ok (.rdcode 0xFF#8) := by decide

theorem test_witness_DecodeFollowsOpcodeMap :
    ∃ row ∈ opcodeMap, 0x20FF#16 &&& row.mask = row.matchBits := by decide

theorem test_witness_ReservedOpcodeRaises : (0x0FFF#16 : CmdWord).extractLsb' 12 4 = 0#4 := by decide

theorem test_witness_ReservedBitsRaise :
    ((0x1800#16 : CmdWord).extractLsb' 12 4 ∈ [0x1#4, 0x3#4, 0x4#4, 0x5#4, 0x6#4, 0x9#4] ∧
      (0x1800#16 : CmdWord).extractLsb' 0 12 ≠ 0#12) ∧
    ((0xF100#16 : CmdWord).extractLsb' 12 4 ∈ [0x2#4, 0x7#4, 0x8#4, 0xA#4, 0xB#4, 0xC#4, 0xF#4] ∧
      (0xF100#16 : CmdWord).extractLsb' 8 4 ≠ 0#4) ∧
    ((0xE200#16 : CmdWord).extractLsb' 12 4 ∈ [0xD#4, 0xE#4] ∧
      (0xE200#16 : CmdWord).extractLsb' 9 3 ≠ 0#3) := by decide

theorem test_witness_StepRunsDecodedCommand :
    (State.reset.present 0x2061#16).cmdStream = [0x2061#16] ∧ decode 0x2061#16 = .ok (.acc 0x61#8) ∧
    State.reset.cmdStream = [] := ⟨rfl, by decide, rfl⟩

theorem test_witness_ResetAndClrValues :
    Engine.reset = State.reset.engine ∧ Engine.reset = (at_ eFault).hardwareReset.engine ∧
    ∃ t, exec .clr (at_ eFault) = .next t ∧ Engine.reset = t.engine :=
  ⟨rfl, rfl, _, rfl, rfl⟩

theorem test_witness_StatusShowsPhaseAndErr :
    (eCounted.err = none ∧ eCounted.phase = .accum) ∧ (eTwo.err = none ∧ eTwo.phase = .queued) ∧
    (eCoded.err = none ∧ eCoded.phase = .coded) ∧
    ((eNone.raise .emptyAlphabet 0x5000#16).err = some .emptyAlphabet ∧
      (eNone.raise .emptyAlphabet 0x5000#16).phase = .fault) ∧
    ((eCoded.raise .invalidEncoding 0x8078#16).err = some .invalidEncoding ∧
      (eCoded.raise .invalidEncoding 0x8078#16).phase = .fault) :=
  ⟨⟨rfl, rfl⟩, ⟨rfl, rfl⟩, ⟨rfl, rfl⟩, ⟨rfl, rfl⟩, ⟨rfl, rfl⟩⟩

/-- The first clause at its last register, 6, and the second at the first number that names none, 7. -/
theorem test_witness_RdregReadsRegister :
    ((6#8, 0x5000#32) : BitVec 8 × Data) ∈
      [(0#8, 0xFF200100#32), (1#8, (eNone.raise .emptyAlphabet 0x5000#16).statusRegister),
        (6#8, (eNone.raise .emptyAlphabet 0x5000#16).errCmd.setWidth 32)] ∧
    (6#8 : BitVec 8) < 7#8 ∧ ¬ (6#8 : BitVec 8) < 6#8 := by decide

/-- TOTAL just below its largest value. -/
theorem test_witness_AccCountsOneByte :
    ({ Engine.reset with total := 0xFFFFFFFE#32 } : Engine).phase = .accum ∧
    ({ Engine.reset with total := 0xFFFFFFFE#32 } : Engine).total ≠ 0xFFFFFFFF#32 := ⟨rfl, by decide⟩

/-- The reset engine with FREQ['a'] = TOTAL = v (V4). -/
def oneCounter (v : Freq) : Engine := { Engine.reset.setFreq 0x61#8 v with total := v }

/-- V4: both clauses, at TOTAL = 2^32 − 1 and at 2^32 − 2. -/
theorem test_witness_CountersAreExact :
    ((oneCounter 0xFFFFFFFF#32).phase = .accum ∧ (oneCounter 0xFFFFFFFF#32).TotalIsSum ∧
      (oneCounter 0xFFFFFFFF#32).total.toNat = 2 ^ 32 - 1) ∧
    ((oneCounter 0xFFFFFFFE#32).phase = .accum ∧ (oneCounter 0xFFFFFFFE#32).TotalIsSum ∧
      (oneCounter 0xFFFFFFFE#32).total.toNat ≠ 2 ^ 32 - 1) := by
  unfold Engine.TotalIsSum; decide

theorem test_witness_RdfreqReadsCounter : ∃ t, exec .clr (at_ abcCoded) = .next t := ⟨_, rfl⟩

theorem test_witness_CountingIsOrderFree :
    ([0x61#8, 0x62#8] : List Byte).Perm [0x62#8, 0x61#8] ∧ (at_ Engine.reset).engine.phase = .accum ∧
    (at_ Engine.reset).engine.TotalIsSum ∧
    (at_ Engine.reset).engine.total.toNat + ([0x61#8, 0x62#8] : List Byte).length ≤ 2 ^ 32 - 1 :=
  ⟨by decide, rfl, test_reset_sound.1, by decide⟩

theorem test_witness_InsertKeepsOrderNewestFirst :
    abcQueued.queue.Pairwise (fun a b => abcQueued.nodeFreq a ≤ abcQueued.nodeFreq b) := by decide

theorem test_witness_ExtractMinTakesFirst :
    Engine.reset.queue = [] ∧ abcQueued.queue = 0x63#9 :: [0x61#9, 0x62#9] ∧
    abcQueued.queue.Pairwise (fun a b => abcQueued.nodeFreq a ≤ abcQueued.nodeFreq b) := ⟨rfl, rfl, by decide⟩

theorem test_witness_LoadFillsQueue :
    ((at_ eCounted).engine.Inv ∧ (at_ eCounted).engine.phase = .accum) ∧
    ((at_ Engine.reset).engine.Inv ∧ (at_ Engine.reset).engine.phase = .accum) :=
  ⟨⟨test_eCounted_sound, rfl⟩, test_reset_sound, rfl⟩

theorem test_witness_PeekSizeIsAnswered :
    (∃ t, exec .load (at_ eCounted) = .next t ∧ Completed (at_ eCounted) t 2#32 []) ∧
    (∃ t, exec .merge (at_ eTwo) = .next t ∧ Completed (at_ eTwo) t 1#32 []) ∧
    ∃ t, exec .build (at_ eTwo) = .next t ∧ Completed (at_ eTwo) t 1#32 [] :=
  ⟨⟨_, rfl, rfl, rfl⟩, ⟨_, rfl, rfl, rfl⟩, ⟨_, rfl, rfl, rfl⟩⟩

/-- The last position in use and the first free one. -/
theorem test_witness_RdqReadsPosition :
    (2#8 : BitVec 8).toNat < abcQueued.queue.length ∧ abcQueued.queue.length ≤ (3#8 : BitVec 8).toNat := by decide

theorem test_witness_QueueOrderHasClosedForm :
    eTwo.Inv ∧ ({ eTwo with err := none } : Engine).Inv ∧ eTwo.node = ({ eTwo with err := none } : Engine).node ∧
    ∀ n, n ∈ eTwo.queue ↔ n ∈ ({ eTwo with err := none } : Engine).queue :=
  ⟨test_eTwo_sound, test_eTwo_sound, rfl, fun _ => Iff.rfl⟩

theorem test_witness_MergeJoinsTwoSmallest :
    (at_ eTwo).engine.Inv ∧ (at_ eTwo).engine.phase = .queued ∧
    (at_ eTwo).engine.queue = 0x61#9 :: 0x62#9 :: [] := ⟨test_eTwo_sound, rfl, rfl⟩

theorem test_witness_BuilderOnFewNodes :
    (eNone.phase = .queued ∧ eNone.queue = []) ∧ (eOne.phase = .queued ∧ eOne.queue = [0x61#9]) :=
  ⟨⟨rfl, rfl⟩, rfl, rfl⟩

/-- Two leaves, with the ids on both sides of the old NEXT and the new one; a tree with a label already written; and
one leaf. -/
theorem test_witness_BuildFinishesTree :
    ((at_ eTwo).engine.Inv ∧ (at_ eTwo).engine.phase = .queued ∧ (at_ eTwo).engine.queue ≠ [] ∧
      (255#9 : NodeId) < (at_ eTwo).engine.next ∧ (at_ eTwo).engine.next ≤ 256#9 ∧
      (after eTwo 0x5000#16).map (fun e => decide (256#9 < e.next ∧ e.next ≤ 257#9)) = some true) ∧
    ((at_ eTree).engine.Inv ∧ (at_ eTree).engine.phase = .queued ∧ (at_ eTree).engine.queue ≠ [] ∧
      ((at_ eTree).engine.nodeAt 0x61#9).bind Node.label = some false) ∧
    ((at_ eOne).engine.Inv ∧ (at_ eOne).engine.phase = .queued ∧ (at_ eOne).engine.queue ≠ []) :=
  ⟨⟨test_eTwo_sound, rfl, by decide, by decide, by decide, by decide⟩,
    ⟨test_eTree_sound, rfl, by decide, by decide⟩, test_eOne_sound, rfl, by decide⟩

theorem test_witness_BuildIsRepeatedMerge :
    (at_ eTwo).engine.Inv ∧ ∃ t, exec .merge (at_ eTwo) = .next t ∧ t.engine.phase = .queued :=
  ⟨test_eTwo_sound, _, rfl, rfl⟩

theorem test_witness_FinishedTreeHasAllNodes :
    (eTree.Inv ∧ eTree.phase = .queued ∧ eTree.queue = [256#9] ∧ 2 ≤ eTree.distinct) ∧
    (eCoded.Inv ∧ eCoded.phase = .coded ∧ eCoded.queue = [256#9]) ∧
    (eOne.Inv ∧ eOne.phase = .queued ∧ eOne.queue = [0x61#9]) :=
  ⟨⟨test_eTree_sound, rfl, rfl, by decide⟩, ⟨test_eCoded_sound, rfl, rfl⟩, test_eOne_sound, rfl, rfl⟩

/-- A valid and an invalid entry; 510 is the last id with an entry. -/
theorem test_witness_RdnodePacksRecord :
    (510#9 : NodeId) ≠ 511#9 ∧ eTree.nodeAt 510#9 = none ∧
    eTree.nodeAt 256#9 = some ⟨3#32, some 0x61#9, some 0x62#9, none⟩ := by decide

theorem test_witness_RdnfrqReadsFrequency :
    (510#9 : NodeId) ≠ 511#9 ∧ eTree.nodeAt 510#9 = none ∧
    eTree.nodeAt 0x62#9 = some ⟨2#32, none, none, some true⟩ ∧ (at_ eTree).engine.Inv :=
  ⟨by decide, by decide, by decide, test_eTree_sound⟩

/-- Both clauses: a root that is an internal node and a root that is a leaf. -/
theorem test_witness_GenWritesTreePaths :
    ((at_ eTree).engine.Inv ∧ (at_ eTree).engine.phase = .queued ∧ (at_ eTree).engine.queue = [256#9] ∧
      0#32 < (at_ eTree).engine.freqOf 0x61#8 ∧ (256#9 : NodeId) ≤ 256#9) ∧
    ((at_ eOne).engine.Inv ∧ (at_ eOne).engine.phase = .queued ∧ (at_ eOne).engine.queue = [0x61#9] ∧
      (0x61#9 : NodeId) = leafId 0x61#8) :=
  ⟨⟨test_eTree_sound, rfl, rfl, by decide, by decide⟩, test_eOne_sound, rfl, rfl, by decide⟩

/-- Two symbols, and one. -/
theorem test_witness_CodesArePrefixFreeAndShort :
    ((at_ eTree).engine.Inv ∧ ∃ t, exec .gen (at_ eTree) = .next t ∧ t.engine.phase = .coded ∧
      2 ≤ t.engine.distinct ∧ t.engine.codeOf 0x61#8 ≠ [] ∧ t.engine.codeOf 0x62#8 ≠ []) ∧
    ((at_ eOne).engine.Inv ∧ ∃ t, exec .gen (at_ eOne) = .next t ∧ t.engine.phase = .coded ∧
      t.engine.distinct = 1 ∧ t.engine.codeOf 0x61#8 ≠ []) := by
  obtain ⟨t, ht, -, h1⟩ := completes (i := .gen) (e := eTree) (e' := eCoded) (d := 2#32) (out := [])
    (by decide) (by rfl)
  obtain ⟨u, hu, -, h2⟩ := completes (i := .gen) (e := eOne) (e' := eOneCoded) (d := 1#32) (out := [])
    (by decide) (by rfl)
  refine ⟨⟨test_eTree_sound, t, ht, ?_⟩, test_eOne_sound, u, hu, ?_⟩
  · rw [h1]; decide
  · rw [h2]; decide

theorem test_witness_GenRefusesUnfinishedTree :
    (eNone.phase = .queued ∧ eNone.queue = []) ∧ (eTwo.phase = .queued ∧ 2 ≤ eTwo.queue.length) := by decide

/-- QUEUED with the node 256 in Q, whose record is r. -/
def rootOnly (r : Node) : Engine := { Engine.reset.setNode 256#9 r with queue := [256#9], phase := .queued }

/-- No record, and a record without a left or a right child. -/
theorem test_witness_GenReportsMalformedRoot :
    (({ eNone with queue := [256#9] } : Engine).phase = .queued ∧
      ({ eNone with queue := [256#9] } : Engine).queue = [256#9] ∧
      ({ eNone with queue := [256#9] } : Engine).nodeAt 256#9 = none) ∧
    ((rootOnly ⟨1#32, none, some 0#9, none⟩).phase = .queued ∧
      (rootOnly ⟨1#32, none, some 0#9, none⟩).queue = [256#9] ∧
      (rootOnly ⟨1#32, none, some 0#9, none⟩).nodeAt 256#9 = some ⟨1#32, none, some 0#9, none⟩) ∧
    (rootOnly ⟨1#32, some 0#9, none, none⟩).nodeAt 256#9 = some ⟨1#32, some 0#9, none, none⟩ := by decide

theorem test_witness_GenNeverFindsMalformedTree :
    (at_ eTree).engine.Inv ∧ ∃ t, exec .gen (at_ eTree) = .next t := by
  obtain ⟨t, ht, -⟩ := completes (i := .gen) (e := eTree) (e' := eCoded) (d := 2#32) (out := [])
    (by decide) (by rfl)
  exact ⟨test_eTree_sound, t, ht⟩

theorem test_witness_RdcodeEmitsCode :
    ((at_ eCounted).engine.Inv ∧ (at_ eCounted).engine.phase = .accum) ∧
    ((at_ eTwo).engine.Inv ∧ (at_ eTwo).engine.phase = .queued) :=
  ⟨⟨test_eCounted_sound, rfl⟩, test_eTwo_sound, rfl⟩

/-- Where a run of these words ends, if it does not stop. -/
def runOf (words : List CmdWord) (s : State) : Option State :=
  match Host.Core.run core words.length { s with cmdStream := words } with
  | .next v => some v
  | .fault _ => none
  | .refused _ => none

theorem run_of_runOf {words : List CmdWord} {s v : State} (h : runOf words s = some v) :
    Host.Core.run core words.length { s with cmdStream := words } = .next v := by
  unfold runOf at h
  split at h
  next v' hv => rw [hv, Option.some.inj h]
  all_goals simp at h

/-- 'b' twice and 'a' once; a tree finished by BUILD, and one finished by MERGE. -/
theorem test_witness_FrequentSymbolsHaveShorterCodes :
    (at_ eCounted).engine.Inv ∧ (at_ eCounted).engine.phase = .accum ∧
    ∀ words ∈ [[0x3000#16, 0x5000#16, 0x6000#16], [0x3000#16, 0x4000#16, 0x6000#16]], ∃ v : State,
      Host.Core.run core words.length { at_ eCounted with cmdStream := words } = .next v ∧
      v.engine.phase = .coded ∧ 0#32 < v.engine.freqOf 0x61#8 ∧ v.engine.freqOf 0x61#8 < v.engine.freqOf 0x62#8 := by
  refine ⟨test_eCounted_sound, rfl, fun words hw => ?_⟩
  have h : (runOf words (at_ eCounted)).map (fun v => (v.engine.phase, v.engine.freqOf 0x61#8, v.engine.freqOf 0x62#8)) =
      some (.coded, 1#32, 2#32) := by
    simp only [List.mem_cons, List.not_mem_nil, or_false] at hw
    rcases hw with rfl | rfl <;> decide
  obtain ⟨v, hv, hp⟩ := Option.map_eq_some_iff.mp h
  simp only [Prod.mk.injEq] at hp
  exact ⟨v, run_of_runOf hv, hp.1, by simp [hp.2.1], by simp [hp.2.1, hp.2.2]⟩

theorem test_witness_EncEmitsCode :
    (eCoded.phase = .coded ∧ eCoded.codeOf 0x61#8 ≠ []) ∧ (eCoded.phase = .coded ∧ eCoded.codeOf 0x7A#8 = []) ∧
    eTree.phase ≠ .coded := by decide

/-- Two engines with the same code of 'a' and nothing else in common but the phase. -/
theorem test_witness_EncoderIsStateless :
    eCoded.phase = .coded ∧ eOneCoded.phase = .coded ∧ eCoded.codeOf 0x61#8 = eOneCoded.codeOf 0x61#8 ∧
    (∃ t, exec (.enc 0x61#8) (at_ eCoded) = .next t) ∧ (∃ t, exec (.enc 0x61#8) (at_ eOneCoded) = .next t) ∧
    eCoded.codeOf 0x61#8 ≠ [] := by
  obtain ⟨t, ht, -⟩ := exec_of_lastSent
    (show lastSent (.enc 0x61#8) eCoded = some (.rsp ⟨0#4, 1#32⟩) by decide)
  obtain ⟨u, hu, -⟩ := exec_of_lastSent
    (show lastSent (.enc 0x61#8) eOneCoded = some (.rsp ⟨0#4, 1#32⟩) by decide)
  exact ⟨rfl, rfl, by decide, ⟨t, ht⟩, ⟨u, hu⟩, by decide⟩

/-- A match and no match, and room for just one more bit. -/
theorem test_witness_DecTakesOneBit :
    (eCoded.phase = .coded ∧ eCoded.buf.length ≠ 255 ∧ eCoded.codeOf 0x61#8 = eCoded.buf ++ [false] ∧
      ∀ y : Symbol, y < 0x61#8 → eCoded.codeOf y ≠ eCoded.buf ++ [false]) ∧
    (eOneCoded.phase = .coded ∧ eOneCoded.buf.length ≠ 255 ∧
      ∀ x : Symbol, eOneCoded.codeOf x ≠ eOneCoded.buf ++ [true]) ∧
    ({ eOneCoded with buf := List.replicate 254 true } : Engine).buf.length ≠ 255 := by
  refine ⟨⟨rfl, by decide, by decide, ?_⟩, ⟨rfl, by decide, ?_⟩, by decide⟩
  · simp only [eCoded_codeOf, show eCoded.buf = [] from rfl]; decide
  · simp only [eOneCoded_codeOf, show eOneCoded.buf = [] from rfl]; decide

/-- A byte on either side of the two bit characters, and a full buffer. -/
theorem test_witness_DecRefusesBadCharacterAndFullBuffer :
    eCoded.phase = .coded ∧ ((0x2F#8 : Byte) ≠ 0x30#8 ∧ (0x2F#8 : Byte) ≠ 0x31#8) ∧
    ((0x32#8 : Byte) ≠ 0x30#8 ∧ (0x32#8 : Byte) ≠ 0x31#8) ∧
    ({ eOneCoded with buf := List.replicate 255 true } : Engine).buf.length = 255 := by decide

theorem test_witness_DecendEndsSequence :
    (eOneCoded.phase = .coded ∧ eOneCoded.buf = []) ∧ (eOneLeft.phase = .coded ∧ eOneLeft.buf ≠ []) ∧
    eOne.phase ≠ .coded := by decide

theorem test_witness_DecodingUndoesEncoding :
    (at_ eCoded).engine.Inv ∧ (at_ eCoded).engine.phase = .coded ∧ (at_ eCoded).engine.buf = [] ∧
    (∀ b ∈ ([0x61#8, 0x62#8, 0x62#8] : List Byte), (at_ eCoded).engine.codeOf b ≠ []) ∧
    [false, true, true] = ([0x61#8, 0x62#8, 0x62#8] : List Byte).flatMap (at_ eCoded).engine.codeOf :=
  ⟨test_eCoded_sound, rfl, rfl, by decide, by decide⟩

theorem test_witness_EveryInputGetsItsTable :
    State.reset.engine = Engine.reset ∧ ([0x61#8] : List Byte) ≠ [] ∧ ([0x61#8] : List Byte).length ≤ 2 ^ 32 - 1 :=
  ⟨rfl, by decide, by decide⟩

theorem test_witness_FullTreeMatchesEverySequence :
    eCoded.Inv ∧ eCoded.phase = .coded ∧ 2 ≤ eCoded.distinct ∧ (List.replicate 255 true).length = 255 ∧
    eCoded.codeOf 0x62#8 ≠ [] ∧ eCoded.codeOf 0x62#8 <+: List.replicate 255 true :=
  ⟨test_eCoded_sound, rfl, by decide, by decide, by decide, by decide⟩

theorem test_witness_OutOfPhaseCommandsRaise :
    ((at_ eTwo).engine.phase ≠ .accum ∧ Instr.load = .load) ∧
    ((at_ eCounted).engine.phase ≠ .queued ∧ Instr.gen ∈ [.merge, .build, .gen]) ∧
    ((at_ eFault).engine.phase ≠ .coded ∧ Instr.decend = .decend) := by decide

/-- A LOAD and a GEN that move on, an ACC that stays, and a LOAD that raises. -/
theorem test_witness_PhaseMovesOnlyForward :
    (∃ t, exec .load (at_ eCounted) = .next t) ∧ (∃ t, exec .gen (at_ eTree) = .next t) ∧
    (∃ t, exec (.acc 0x61#8) (at_ eCounted) = .next t) ∧
    ∃ t, exec .load (at_ eTwo) = .next t ∧ Raised (at_ eTwo) t .illegalCommand 0x3000#16 := by
  obtain ⟨t, ht, -⟩ := completes (i := .gen) (e := eTree) (e' := eCoded) (d := 2#32) (out := [])
    (by decide) (by rfl)
  exact ⟨⟨_, rfl⟩, ⟨t, ht⟩, ⟨_, rfl⟩, _, rfl, raised_raise _ _ _⟩

theorem test_witness_EveryWordHasOneResponse :
    (∃ t, step ((at_ eCounted).present 0x2061#16) = .next t) ∧
    (∃ t, step ((at_ eCounted).present 0x0000#16) = .next t) ∧ (at_ eCounted).engine.Inv :=
  ⟨⟨_, rfl⟩, ⟨_, rfl⟩, test_eCounted_sound⟩

/-- One command for each status and each of its causes. -/
theorem test_witness_ErrorKindsHaveTheirCauses :
    lastSent (.acc 0x61#8) eCounted = some (.rsp ⟨0#4, 2#32⟩) ∧ lastSent .build eNone = some (.rsp ⟨1#4, 0#32⟩) ∧
    lastSent .merge eOne = some (.rsp ⟨2#4, 0#32⟩) ∧
    lastSent .gen { eNone with queue := [256#9] } = some (.rsp ⟨3#4, 0#32⟩) ∧
    lastSent (.enc 0x7A#8) eCoded = some (.rsp ⟨4#4, 0#32⟩) ∧
    lastSent .decend eOneLeft = some (.rsp ⟨5#4, 0#32⟩) ∧
    lastSent (.dec 0x78#8) eCoded = some (.rsp ⟨5#4, 0#32⟩) ∧
    lastSent (.dec 0x30#8) { eOneCoded with buf := List.replicate 255 true } = some (.rsp ⟨5#4, 0#32⟩) ∧
    lastSent .load eTwo = some (.rsp ⟨6#4, 0#32⟩) ∧ lastSent (.rdreg 7#8) eTwo = some (.rsp ⟨6#4, 0#32⟩) ∧
    lastSent .gen eTwo = some (.rsp ⟨6#4, 0#32⟩) ∧
    lastSent (.acc 0x61#8) (oneCounter 0xFFFFFFFF#32) = some (.rsp ⟨7#4, 0#32⟩) := by decide

/-- Among them RDCODE of a symbol with a code, in an engine frozen in CODED. -/
theorem test_witness_FaultIsTerminal :
    (at_ (eCoded.raise .unknownSymbol 0x707A#16)).engine.phase = .fault ∧ 0xF061#16 ≠ 0x1000#16 ∧
    ∃ t, step ((at_ (eCoded.raise .unknownSymbol 0x707A#16)).present 0xF061#16) = .next t ∧
      Event.out 0x30#8 ∈ t.sent := by
  refine ⟨rfl, by decide, ?_⟩
  rw [step_present_ok (show decode 0xF061#16 = .ok (.rdcode 0x61#8) by decide), exec_eq_perform]
  rw [perform_ok (by decide) rfl]
  exact ⟨_, rfl, by decide⟩

/-- A read-back in range, one out of range, a command that is no read-back, a word that is no command. -/
theorem test_witness_FaultStillAnswers :
    (at_ eFault).engine.phase = .fault ∧
    (decode 0xA006#16 = .ok (.rdreg 6#8) ∧ isReadBack (.rdreg 6#8) = true ∧ operandInRange (.rdreg 6#8) = true) ∧
    (Instr.rdreg 5#8 ≠ .rdreg 1#8 ∧ Instr.rdreg 5#8 ≠ .rdreg 6#8 ∧ decode 0xA005#16 = .ok (.rdreg 5#8) ∧
      ({ (at_ Engine.reset).engine with
        phase := .fault, err := eFault.err, errCmd := eFault.errCmd } : Engine) = eFault) ∧
    (0xA007#16 ≠ 0x1000#16 ∧ ∀ i, decode 0xA007#16 = .ok i → isReadBack i = false ∨ operandInRange i = false) ∧
    (0x2061#16 ≠ 0x1000#16 ∧ ∀ i, decode 0x2061#16 = .ok i → isReadBack i = false ∨ operandInRange i = false) ∧
    (0x0000#16 ≠ 0x1000#16 ∧ ∀ i, decode 0x0000#16 = .ok i → isReadBack i = false ∨ operandInRange i = false) := by
  refine ⟨rfl, by decide, ⟨by decide, by decide, by decide, rfl⟩, ⟨by decide, fun i h => ?_⟩,
    ⟨by decide, fun i h => ?_⟩, ⟨by decide, fun i h => ?_⟩⟩
  · obtain rfl : Instr.rdreg 7#8 = i := by simpa [show decode 0xA007#16 = .ok (.rdreg 7#8) by decide] using h
    exact .inr rfl
  · obtain rfl : Instr.acc 0x61#8 = i := by simpa [show decode 0x2061#16 = .ok (.acc 0x61#8) by decide] using h
    exact .inl rfl
  · simp [show decode 0x0000#16 = .error .reservedOpcode by decide] at h

/-- CLR, and a second error. -/
theorem test_witness_OnlyClrLeavesFault :
    (at_ eFault).engine.phase = .fault ∧
    (∃ t, step ((at_ eFault).present 0x1000#16) = .next t ∧ t.engine.phase ≠ .fault) ∧
    ∃ t, step ((at_ eFault).present 0x0001#16) = .next t ∧
      t.sent = (at_ eFault).sent ++ [.rsp ⟨6#4, 0#32⟩] ∧ (6#4 : Status) ≠ 0#4 :=
  ⟨rfl, ⟨_, rfl, by decide⟩, _, rfl, rfl, by decide⟩

theorem test_witness_EveryWordIsAnswered : (at_ eCoded).engine.Inv ∧ (at_ eFault).engine.Inv :=
  ⟨test_eCoded_sound, test_eFault_sound⟩

/-- The three stops, each at the boundary of its condition: one id more than Q holds, and NEXT = 511. -/
theorem test_witness_StopsOnlyAtMissingEntries :
    exec .load (at_ { Engine.reset with queue := List.replicate 257 0#9 }) = .fault .queueFull ∧
    exec .merge (at_ { eTwo with next := 511#9 }) = .fault .nodeStoreFull ∧
    exec .build (at_ { eTwo with next := 511#9 }) = .fault .nodeStoreFull ∧
    lastSent .build { eTwo with next := 510#9 } = some (.rsp ⟨0#4, 1#32⟩) ∧ (at_ eTwo).engine.Inv :=
  ⟨rfl, rfl, rfl, by decide, test_eTwo_sound⟩

theorem test_witness_ReadBacksChangeNothing :
    (∃ d, Instr.rdreg 7#8 = .rdreg d) ∧ (∃ n, Instr.rdnode 511#9 = .rdnode n) ∧
    ∃ d, Instr.rdcode 0xFF#8 = .rdcode d := ⟨⟨_, rfl⟩, ⟨_, rfl⟩, ⟨_, rfl⟩⟩

/-- A command with output and one without. -/
theorem test_witness_OutputCountIsAnswered :
    (at_ eCoded).engine.Inv ∧
    (∃ t, exec (.enc 0x61#8) (at_ eCoded) = .next t ∧ Completed (at_ eCoded) t 1#32 [0x30#8]) ∧
    ∃ t, exec .decend (at_ eCoded) = .next t ∧ Completed (at_ eCoded) t 0#32 [] := by
  obtain ⟨t, ht, hc, -⟩ := completes (i := .enc 0x61#8) (e := eCoded) (e' := eCoded) (d := 1#32) (out := [0x30#8])
    (by decide) (by rfl)
  obtain ⟨u, hu, hd, -⟩ := completes (i := .decend) (e := eCoded) (e' := eCoded) (d := 0#32) (out := [])
    (by decide) (by rfl)
  exact ⟨test_eCoded_sound, ⟨t, ht, hc⟩, u, hu, hd⟩

/-- Each space changes under one of its writers. -/
theorem test_witness_SpacesHaveTheirWriters :
    ((nextOf (.acc 0x61#8) (at_ eCounted)).map (fun t => decide (t.engine.total ≠ eCounted.total)) = some true) ∧
    ((nextOf .load (at_ eCounted)).map (fun t => decide (t.engine.queue ≠ eCounted.queue)) = some true) ∧
    ((nextOf .build (at_ eTwo)).map (fun t => decide (t.engine.nodeAt 256#9 ≠ eTwo.nodeAt 256#9)) = some true) ∧
    ((nextOf .merge (at_ eTwo)).map (fun t => decide (t.engine.next ≠ eTwo.next)) = some true) ∧
    ((nextOf .gen (at_ eTree)).map (fun t => decide (t.engine.codeOf 0x61#8 ≠ eTree.codeOf 0x61#8)) = some true) ∧
    ((nextOf (.dec 0x31#8) (at_ eOneCoded)).map (fun t => decide (t.engine.buf ≠ eOneCoded.buf)) = some true) := by
  decide

theorem test_witness_StepKeepsErrorRecord :
    ((at_ eFault).present 0x2061#16).engine.ErrorRecorded ∧
    ∃ t, step ((at_ eFault).present 0x2061#16) = .next t := ⟨test_eFault_sound.2.1, _, rfl⟩

theorem test_witness_StepKeepsTotalTheSum :
    ((at_ eCounted).present 0x2061#16).engine.TotalIsSum ∧
    ∃ t, step ((at_ eCounted).present 0x2061#16) = .next t := ⟨test_eCounted_sound.1, _, rfl⟩

/-- A step of BUILD from a sound state. -/
theorem test_witness_StepKeepsSoundness :
    ((at_ eTwo).present 0x5000#16).Inv ∧ ∃ t, step ((at_ eTwo).present 0x5000#16) = .next t :=
  ⟨test_eTwo_sound, _, rfl⟩

/-- A mnemonic of each format, and the operands at both sides of each bound. -/
theorem test_witness_LinesAssembleToTheirWords :
    (Mnemonic.acc.format = .b ∧ 255 ≤ 255 ∧ 255 < 256) ∧ (Mnemonic.rdnode.format = .n ∧ 511 ≤ 511 ∧ 511 < 512) ∧
    (Mnemonic.clr.format = .z ∧ Mnemonic.rdnfrq.format ≠ .z) := by decide

end Sys2Proof.Machine.Tests
end

section
/-! PROOFS. The scope (00_scope.md): what one step runs. -/

namespace Sys2Proof.Machine

/-- Settles O7: a state whose next word is `w` is the state without it with `w` presented, and then the step is the
meaning of the command `w` decodes to; with no word the step is idle. -/
theorem stepRunsDecodedCommand : Obligations.StepRunsDecodedCommand := by
  unfold Obligations.StepRunsDecodedCommand
  constructor
  · intro s w rest i hstream hdecode
    calc step s
      _ = step (({ s with cmdStream := rest } : State).present w) := congrArg step (eq_present hstream)
      _ = exec i { s with cmdStream := rest } := step_present_ok hdecode
  · intro s hstream
    exact step_idle hstream

end Sys2Proof.Machine
end

section
/-! PROOFS. What a command can make of the engine, said once, and what every step therefore keeps
(10_state.md R23 to R25, 60_exceptions.md R130). -/

namespace Sys2Proof.Machine

/-- `Commit i e e'`: the command i, completing on the engine e, may leave e'. One constructor per way of writing the
engine; `keep` is every command that writes nothing. -/
inductive Commit : Instr → Engine → Engine → Prop where
  | clr (e : Engine) : Commit .clr e Engine.reset
  | acc (d : Symbol) {e : Engine} (room : e.total ≠ Config.freqMax) : Commit (.acc d) e (e.countSymbol d)
  | load (e : Engine) : Commit .load e { e.loadLeaves with phase := .queued }
  | merge {e e' : Engine} (hm : e.mergeStep = .ok e') : Commit .merge e e'
  | build {e e' : Engine} {turns : Nat} (hb : Engine.buildLoop turns e = .ok e') : Commit .build e e'
  | gen {e : Engine} {root : NodeId} {t : CodeTable} (hq : e.queue = [root]) (ht : e.tableFrom root = some t) :
      Commit .gen e { e with code := t, phase := .coded }
  | keepBit (d : Byte) {e : Engine} {x : Bit} (room : e.bufLen ≠ Config.maxLen)
      (hmatch : e.matchCode (e.buf ++ [x]) = none) : Commit (.dec d) e { e with buf := e.buf ++ [x] }
  | emptyBuffer (d : Byte) (e : Engine) : Commit (.dec d) e { e with buf := [] }
  | keep (i : Instr) (e : Engine) : Commit i e e

/-! ## A rule that ends in ok commits -/

theorem accEffect_ok {d : Symbol} {e e' : Engine} {v : Data} {out : List Byte}
    (h : accEffect d e = .ok e' v out) : Commit (.acc d) e e' := by
  unfold accEffect at h
  split at h
  · cases h
  next room => cases h; exact .acc d room

theorem loadEffect_ok {e e' : Engine} {v : Data} {out : List Byte} (h : loadEffect e = .ok e' v out) :
    Commit .load e e' := by
  unfold loadEffect at h
  split at h
  · cases h
  · cases h; exact .load e

theorem mergeEffect_ok {e e' : Engine} {v : Data} {out : List Byte} (h : mergeEffect e = .ok e' v out) :
    Commit .merge e e' := by
  unfold mergeEffect at h
  split at h
  · cases h
  split at h
  · cases h
  split at h
  · cases h
  split at h
  next hm => cases h; exact .merge hm
  next => cases h

theorem buildEffect_ok {e e' : Engine} {v : Data} {out : List Byte} (h : buildEffect e = .ok e' v out) :
    Commit .build e e' := by
  unfold buildEffect at h
  split at h
  · cases h
  split at h
  · cases h
  split at h
  next hb => cases h; exact .build hb
  next => cases h

theorem genEffect_ok {e e' : Engine} {v : Data} {out : List Byte} (h : genEffect e = .ok e' v out) :
    Commit .gen e e' := by
  unfold genEffect at h
  split at h
  next => cases h
  next root hq =>
    split at h
    next ht => cases h; exact .gen hq ht
    next => cases h
  next => cases h

theorem decEffect_ok {d : Byte} {e e' : Engine} {v : Data} {out : List Byte}
    (h : decEffect d e = .ok e' v out) : Commit (.dec d) e e' := by
  unfold decEffect at h
  split at h
  next => cases h
  next x _ =>
    split at h
    · cases h
    next room =>
      unfold decodeBit at h
      split at h
      next => cases h; exact .emptyBuffer d e
      next hmatch => cases h; exact .keepBit d room hmatch

/-- Every command's own rule, where it ends in ok, commits. -/
theorem ownEffect_ok {i : Instr} {e e' : Engine} {v : Data} {out : List Byte}
    (h : ownEffect i e = .ok e' v out) : Commit i e e' := by
  cases i with
  | clr => cases h; exact .clr e
  | acc d => exact accEffect_ok h
  | load => exact loadEffect_ok h
  | merge => exact mergeEffect_ok h
  | build => exact buildEffect_ok h
  | gen => exact genEffect_ok h
  | dec d => exact decEffect_ok h
  | enc d =>
    simp only [ownEffect, encEffect] at h
    split at h
    · cases h
    · cases h; exact .keep _ e
  | decend =>
    simp only [ownEffect, decendEffect] at h
    split at h
    · cases h; exact .keep _ e
    · cases h
  | rdreg d =>
    simp only [ownEffect, rdregEffect] at h
    split at h
    next => cases h; exact .keep _ e
    next => cases h
  | rdfreq d => cases h; exact .keep _ e
  | rdq d => cases h; exact .keep _ e
  | rdnode n => cases h; exact .keep _ e
  | rdnfrq n => cases h; exact .keep _ e
  | rdcode d => cases h; exact .keep _ e

/-! ## A command raises or commits, a step keeps what both keep -/

/-- A command that answers a next state has raised, or it was legal in its phase and has committed. -/
theorem exec_raises_or_commits {i : Instr} {s t : State} (h : exec i s = .next t) :
    (∃ k, t = s.raise k (encode i)) ∨ (legalIn i s.engine.phase = true ∧ Commit i s.engine t.engine) := by
  obtain ⟨-, rfl⟩ | ⟨-, k, -, rfl⟩ | ⟨hc, e, d, out, ho, rfl⟩ := exec_next h
  · exact .inl ⟨_, rfl⟩
  · exact .inl ⟨k, rfl⟩
  · exact .inr ⟨((checks_eq_none_iff i _).mp hc).1, ownEffect_ok ho⟩

/-- A property of the engine that every raise and every commit keeps is kept by every step. -/
theorem step_preserves {P : Engine → Prop} (hraise : ∀ e k w, P e → P (e.raise k w))
    (hcommit : ∀ {i e e'}, legalIn i e.phase = true → Commit i e e' → P e → P e')
    {s t : State} (hp : P s.engine) (h : step s = .next t) : P t.engine := by
  obtain ⟨-, rfl⟩ | ⟨w, s', rfl, -, rfl⟩ | ⟨w, s', i, rfl, -, hexec⟩ := step_next h
  · exact hp
  · exact hraise _ _ _ hp
  · obtain ⟨k, rfl⟩ | ⟨hlegal, hc⟩ := exec_raises_or_commits hexec
    · exact hraise _ _ _ hp
    · exact hcommit hlegal hc hp

/-! ## What a commit leaves of the error record, the phase and the counters -/

/-- LOAD's loop writes Q and NODE only (41_priority_queue.md R79). -/
theorem loadLeaves_frame (e : Engine) :
    e.loadLeaves.freq = e.freq ∧ e.loadLeaves.total = e.total ∧ e.loadLeaves.next = e.next ∧
    e.loadLeaves.code = e.code ∧ e.loadLeaves.buf = e.buf ∧ e.loadLeaves.phase = e.phase ∧
    e.loadLeaves.err = e.err ∧ e.loadLeaves.errCmd = e.errCmd :=
  foldl_loadSymbol_frame e.occurring e

/-- BUILD's loop writes Q, NODE and NEXT only (42_tree_builder.md R87). -/
theorem buildLoop_frame {turns : Nat} {e e' : Engine} (h : Engine.buildLoop turns e = .ok e') :
    e'.freq = e.freq ∧ e'.total = e.total ∧ e'.code = e.code ∧ e'.buf = e.buf ∧ e'.phase = e.phase ∧
    e'.err = e.err ∧ e'.errCmd = e.errCmd := by
  refine buildLoop_induction (P := fun x => x.freq = e.freq ∧ x.total = e.total ∧ x.code = e.code ∧
    x.buf = e.buf ∧ x.phase = e.phase ∧ x.err = e.err ∧ x.errCmd = e.errCmd) ?_
    ⟨rfl, rfl, rfl, rfl, rfl, rfl, rfl⟩ h
  intro x x' hx hm
  have := mergeStep_frame hm
  simp_all

/-- A commit other than CLR's writes neither ERR nor ERRCMD, and moves PHASE only by LOAD and GEN. -/
theorem commit_status {i : Instr} {e e' : Engine} (hlegal : legalIn i e.phase = true) (h : Commit i e e') :
    (i = .clr ∧ e' = Engine.reset) ∨
    (e'.err = e.err ∧ e'.errCmd = e.errCmd ∧
      (e'.phase = e.phase ∨ (i = .load ∧ e.phase = .accum ∧ e'.phase = .queued) ∨
        (i = .gen ∧ e.phase = .queued ∧ e'.phase = .coded))) := by
  cases h with
  | clr => exact .inl ⟨rfl, rfl⟩
  | acc d room => exact .inr ⟨rfl, rfl, .inl rfl⟩
  | load =>
    obtain ⟨-, -, -, -, -, -, herr, hcmd⟩ := loadLeaves_frame e
    exact .inr ⟨herr, hcmd, .inr (.inl ⟨rfl, by simpa [legalIn] using hlegal, rfl⟩)⟩
  | merge hm =>
    obtain ⟨-, -, -, -, hphase, herr, hcmd⟩ := mergeStep_frame hm
    exact .inr ⟨herr, hcmd, .inl hphase⟩
  | build hb =>
    obtain ⟨-, -, -, -, hphase, herr, hcmd⟩ := buildLoop_frame hb
    exact .inr ⟨herr, hcmd, .inl hphase⟩
  | gen hq ht => exact .inr ⟨rfl, rfl, .inr (.inr ⟨rfl, by simpa [legalIn] using hlegal, rfl⟩)⟩
  | keepBit d room hmatch => exact .inr ⟨rfl, rfl, .inl rfl⟩
  | emptyBuffer d => exact .inr ⟨rfl, rfl, .inl rfl⟩
  | keep => exact .inr ⟨rfl, rfl, .inl rfl⟩

/-- A commit writes the counters and TOTAL only by CLR and ACC (10_state.md R21, R22). -/
theorem commit_counters {i : Instr} {e e' : Engine} (h : Commit i e e') :
    e' = Engine.reset ∨ (∃ d, e.total ≠ Config.freqMax ∧ e' = e.countSymbol d) ∨
    (e'.freq = e.freq ∧ e'.total = e.total) := by
  cases h with
  | clr => exact .inl rfl
  | acc d room => exact .inr (.inl ⟨d, room, rfl⟩)
  | load =>
    obtain ⟨hfreq, htotal, -⟩ := loadLeaves_frame e
    exact .inr (.inr ⟨hfreq, htotal⟩)
  | merge hm =>
    obtain ⟨hfreq, htotal, -⟩ := mergeStep_frame hm
    exact .inr (.inr ⟨hfreq, htotal⟩)
  | build hb =>
    obtain ⟨hfreq, htotal, -⟩ := buildLoop_frame hb
    exact .inr (.inr ⟨hfreq, htotal⟩)
  | gen hq ht => exact .inr (.inr ⟨rfl, rfl⟩)
  | keepBit d room hmatch => exact .inr (.inr ⟨rfl, rfl⟩)
  | emptyBuffer d => exact .inr (.inr ⟨rfl, rfl⟩)
  | keep => exact .inr (.inr ⟨rfl, rfl⟩)

/-- Settles O45: a command that answers has raised, or its commit is one of those `commit_status` lists. -/
theorem phaseMovesOnlyForward : Obligations.PhaseMovesOnlyForward := by
  unfold Obligations.PhaseMovesOnlyForward
  intro i s t h
  obtain ⟨k, rfl⟩ | ⟨hlegal, hc⟩ := exec_raises_or_commits h
  · exact .inr (.inl ⟨raise_phase _ _ _, k, raised_raise s k _⟩)
  · obtain ⟨hi, he⟩ | ⟨-, -, hsame | hload | hgen⟩ := commit_status hlegal hc
    · exact .inr (.inr (.inl ⟨hi, by rw [he]; rfl⟩))
    · exact .inl hsame
    · exact .inr (.inr (.inr (.inl hload)))
    · exact .inr (.inr (.inr (.inr hgen)))

/-! ## The error record (10_state.md R39 item 2) -/

theorem errorRecorded_reset : Engine.reset.ErrorRecorded := ⟨by decide, fun _ => rfl⟩

theorem errorRecorded_raise (e : Engine) (k : ErrKind) (w : CmdWord) (h : e.ErrorRecorded) :
    (e.raise k w).ErrorRecorded := by
  by_cases hp : e.phase = .fault
  · rwa [raise_of_fault hp]
  · rw [raise_of_not_fault hp]
    simp [Engine.ErrorRecorded]

theorem errorRecorded_commit {i : Instr} {e e' : Engine} (hlegal : legalIn i e.phase = true) (hc : Commit i e e')
    (h : e.ErrorRecorded) : e'.ErrorRecorded := by
  obtain ⟨-, rfl⟩ | ⟨herr, hcmd, hphase⟩ := commit_status hlegal hc
  · exact errorRecorded_reset
  · unfold Engine.ErrorRecorded at h ⊢
    rw [herr, hcmd]
    obtain hsame | ⟨-, hfrom, hto⟩ | ⟨-, hfrom, hto⟩ := hphase
    · rwa [hsame]
    · simpa [hfrom, hto] using h
    · simpa [hfrom, hto] using h

/-- Settles O57: a raise and a commit keep the error record. -/
theorem stepKeepsErrorRecord : Obligations.StepKeepsErrorRecord := by
  unfold Obligations.StepKeepsErrorRecord
  intro s t hs h
  exact step_preserves errorRecorded_raise errorRecorded_commit hs h

/-! ## TOTAL is the sum of the counters (10_state.md R39 item 1) -/

/-- FREQ as a list reads each symbol's counter in ascending order. -/
theorem freq_toList (e : Engine) : e.freq.toList = allSymbols.map e.freqOf := by
  refine List.ext_getElem (by simp [allSymbols]) fun k h1 h2 => ?_
  have hk : k < 256 := by simpa using h1
  simp [allSymbols, Engine.freqOf, Nat.mod_eq_of_lt hk]

theorem mem_allSymbols (s : Symbol) : s ∈ allSymbols :=
  List.mem_map.mpr ⟨s.toNat, List.mem_range.mpr s.isLt, by simp⟩

/-- No counter is larger than TOTAL (40_frequency_accum.md R72). -/
theorem freqOf_le_total {e : Engine} (h : e.TotalIsSum) (s : Symbol) : e.freqOf s ≤ e.total := by
  rw [BitVec.le_def, h, freq_toList]
  exact List.le_sum_of_mem (by simpa using ⟨s, mem_allSymbols s, rfl⟩)

theorem totalIsSum_reset : Engine.reset.TotalIsSum := by
  show 0 = ((Vector.replicate 256 0#32).toList.map BitVec.toNat).sum
  rw [Vector.toList_replicate, List.map_replicate, List.sum_replicate]
  rfl

theorem totalIsSum_congr {e e' : Engine} (hfreq : e'.freq = e.freq) (htotal : e'.total = e.total)
    (h : e.TotalIsSum) : e'.TotalIsSum := by
  unfold Engine.TotalIsSum at h ⊢
  rwa [hfreq, htotal]

/-- Raising one entry of a list by 1 raises its sum by 1. -/
theorem sum_set_succ {l : List Nat} {k v : Nat} (hk : k < l.length) (hv : l[k] = v) :
    (l.set k (v + 1)).sum = l.sum + 1 := by
  have hself : (l.set k v).sum = l.sum := by rw [← hv, List.set_getElem_self]
  rw [List.sum_set] at hself ⊢
  simp only [hk, if_true] at hself ⊢
  omega

/-- Below TOTAL's largest value neither count wraps, and both rise by one. -/
theorem totalIsSum_countSymbol {e : Engine} (d : Symbol) (room : e.total ≠ Config.freqMax) (h : e.TotalIsSum) :
    (e.countSymbol d).TotalIsSum := by
  have hd : (e.freqOf d).toNat ≤ e.total.toNat := freqOf_le_total h d
  have hlt : e.total.toNat < 2 ^ 32 - 1 := by
    have hne : e.total.toNat ≠ 2 ^ 32 - 1 := fun hh => room (BitVec.eq_of_toNat_eq hh)
    have := e.total.isLt
    omega
  have hsum : ((e.countSymbol d).freq.toList.map BitVec.toNat).sum = (e.freq.toList.map BitVec.toNat).sum + 1 := by
    have hset : (e.countSymbol d).freq.toList.map BitVec.toNat =
        (e.freq.toList.map BitVec.toNat).set d.toNat ((e.freqOf d).toNat + 1) := by
      have hone : (e.freqOf d + 1#32).toNat = (e.freqOf d).toNat + 1 :=
        BitVec.toNat_add_of_lt (by simp only [BitVec.toNat_ofNat]; omega)
      rw [← hone, ← List.map_set, ← Vector.toList_set (h := d.isLt)]
      rfl
    rw [hset]
    exact sum_set_succ (by simpa using d.isLt) (by simp [Engine.freqOf])
  unfold Engine.TotalIsSum at h ⊢
  rw [hsum, countSymbol_total, BitVec.toNat_add_of_lt (by simp only [BitVec.toNat_ofNat]; omega), h]
  rfl

theorem totalIsSum_raise (e : Engine) (k : ErrKind) (w : CmdWord) (h : e.TotalIsSum) :
    (e.raise k w).TotalIsSum :=
  totalIsSum_congr (raise_freq e k w) (raise_total e k w) h

theorem totalIsSum_commit {i : Instr} {e e' : Engine} (hc : Commit i e e') (h : e.TotalIsSum) : e'.TotalIsSum := by
  obtain rfl | ⟨d, room, rfl⟩ | ⟨hfreq, htotal⟩ := commit_counters hc
  · exact totalIsSum_reset
  · exact totalIsSum_countSymbol d room h
  · exact totalIsSum_congr hfreq htotal h

/-- Settles O58: a raise writes no counter, and a commit writes them only by CLR and by ACC. -/
theorem stepKeepsTotalTheSum : Obligations.StepKeepsTotalTheSum := by
  unfold Obligations.StepKeepsTotalTheSum
  intro s t hs h
  exact step_preserves totalIsSum_raise (fun _ => totalIsSum_commit) hs h

end Sys2Proof.Machine
end

section
/-! PROOFS. Reset, CLR and STATUS (10_state.md R34, R40). -/

namespace Sys2Proof.Machine

/-- CLR answers with the engine of hardware reset, in every state (46_system.md R120). -/
theorem exec_clr (s : State) : exec .clr s = .next (s.complete Engine.reset 0#32 []) := by
  rw [exec_eq_perform]
  exact perform_ok ((checks_eq_none_iff .clr _).mpr ⟨rfl, rfl⟩) rfl

/-- Settles O8: the three ways of reset leave one engine, whose elements are read off one by one. -/
theorem resetAndClrValues : Obligations.ResetAndClrValues := by
  unfold Obligations.ResetAndClrValues
  intro e h
  have he : e = Engine.reset := by
    obtain rfl | ⟨s, rfl⟩ | ⟨s, t, hclr, rfl⟩ := h
    · rfl
    · rfl
    · rw [exec_clr, Host.Outcome.next.injEq] at hclr
      rw [← hclr]; rfl
  subst he
  exact ⟨reset_freqOf, rfl, rfl, rfl, rfl, rfl, rfl, rfl, rfl, reset_nodeAt,
    fun x => congrArg List.length (reset_codeOf x), rfl, rfl, by decide, by decide⟩

/-- STATUS, field by field, for every value of PHASE and of ERR (10_state.md R34). -/
theorem statusRegister_fields (e : Engine) :
    e.statusRegister.extractLsb' 0 2 = e.phase.code ∧ e.statusRegister.extractLsb' 2 2 = 0#2 ∧
    e.statusRegister.extractLsb' 4 4 = e.errCode ∧ e.statusRegister.extractLsb' 8 24 = 0#24 := by
  unfold Engine.statusRegister
  generalize e.phase.code = p
  generalize e.errCode = k
  revert p k
  decide

/-- RDREG 1 answers STATUS in every state and leaves the engine alone (46_system.md R121). -/
theorem exec_rdreg_status (s : State) :
    exec (.rdreg 1#8) s = .next (s.complete s.engine s.engine.statusRegister []) := by
  rw [exec_eq_perform]
  exact perform_ok ((checks_eq_none_iff _ _).mpr ⟨rfl, rfl⟩) rfl

/-- Settles O10: RDREG 1 answers the fields of STATUS, and the values listed are STATUS at a phase and an error. -/
theorem statusShowsPhaseAndErr : Obligations.StatusShowsPhaseAndErr := by
  unfold Obligations.StatusShowsPhaseAndErr
  have hvalue : ∀ (e : Engine) (k : Option ErrKind) (p : Phase), e.err = k → e.phase = p →
      e.statusRegister = ({ Engine.reset with err := k, phase := p } : Engine).statusRegister := by
    rintro e k p rfl rfl
    rfl
  refine ⟨fun s => ⟨_, exec_rdreg_status s, rfl, s.engine.statusRegister, completed_complete _ _ _ _,
    statusRegister_fields s.engine⟩, ?_, ?_, ?_, ?_, ?_⟩
  all_goals
    intro e herr hphase
    rw [hvalue e _ _ herr hphase]
    decide

/-- The reset engine meets every item of R39. -/
theorem inv_reset : Engine.reset.Inv :=
  ⟨totalIsSum_reset, errorRecorded_reset, .inl ⟨rfl, rfl, rfl, rfl, rfl⟩⟩

/-- Settles O56: the reset state's engine is the reset engine. -/
theorem resetIsSound : Obligations.ResetIsSound := by
  unfold Obligations.ResetIsSound
  exact inv_reset

end Sys2Proof.Machine
end

section
/-! PROOFS. Where the model stops (log 6), and that the invariant of 10_state.md R39 excludes it. -/

namespace Sys2Proof.Machine

/-! ## The symbols that occur -/

/-- LOAD's scan, as a filter of the symbols (41_priority_queue.md R79). -/
theorem occurring_eq_filter (e : Engine) : e.occurring = allSymbols.filter (fun s => decide (0#32 < e.freqOf s)) := by
  have hzip : allSymbols.map (fun s => (s, e.freqOf s)) = allSymbols.zip (allSymbols.map e.freqOf) :=
    List.zip_of_prod (by simp [Function.comp_def]) (by simp [Function.comp_def])
  unfold Engine.occurring
  rw [freq_toList, ← hzip, List.filterMap_map, ← List.filterMap_eq_filter]
  refine List.filterMap_congr fun s _ => ?_
  simp [Option.guard]

/-- LOAD's scan stops n0 times (10_state.md R39). -/
theorem occurring_length (e : Engine) : e.occurring.length = e.distinct := by
  rw [occurring_eq_filter, Engine.distinct, freq_toList, List.countP_map, List.countP_eq_length_filter]
  rfl

theorem distinct_le (e : Engine) : e.distinct ≤ 256 := by
  unfold Engine.distinct
  exact List.countP_le_length.trans (by simp)

/-! ## Where each command's own rule stops -/

theorem loadEffect_stuck_iff {e : Engine} {f : Fault} :
    loadEffect e = .stuck f ↔ 256 < e.qsize + e.distinct ∧ f = .queueFull := by
  unfold loadEffect
  rw [occurring_length]
  split
  next hfull => simp [hfull, eq_comm]
  next hroom => simp [hroom]

theorem mergeEffect_stuck_iff {e : Engine} {f : Fault} :
    mergeEffect e = .stuck f ↔ 2 ≤ e.qsize ∧ e.next = 511#9 ∧ f = .nodeStoreFull := by
  unfold mergeEffect
  split
  next h0 => simp [h0]
  next h0 =>
    split
    next h1 => simp [h1]
    next h1 =>
      have h2 : 2 ≤ e.qsize := by omega
      split
      next hfull => simp [h2, hfull, eq_comm]
      next hroom => split <;> simp [hroom]

theorem buildEffect_stuck_iff {e : Engine} {f : Fault} :
    buildEffect e = .stuck f ↔ 2 ≤ e.qsize ∧ 511 < e.next.toNat + (e.qsize - 1) ∧ f = .nodeStoreFull := by
  unfold buildEffect
  split
  next h0 => simp [h0]
  next h0 =>
    split
    next hfull =>
      obtain ⟨h2, hfull⟩ := hfull
      simp [Nat.succ_le_of_lt h2, hfull, eq_comm]
    next hroom =>
      have hnot : ¬ (2 ≤ e.qsize ∧ 511 < e.next.toNat + (e.qsize - 1)) := hroom
      split <;> simp [← and_assoc, hnot]

/-- Only LOAD, MERGE and BUILD have a rule that stops at all. -/
theorem ownEffect_stuck {i : Instr} {e : Engine} {f : Fault} (h : ownEffect i e = .stuck f) :
    i = .load ∨ i = .merge ∨ i = .build := by
  cases i with
  | load => exact .inl rfl
  | merge => exact .inr (.inl rfl)
  | build => exact .inr (.inr rfl)
  | acc d =>
    simp only [ownEffect, accEffect] at h
    split at h <;> cases h
  | gen =>
    simp only [ownEffect, genEffect] at h
    split at h
    next => cases h
    next => split at h <;> cases h
    next => cases h
  | enc d =>
    simp only [ownEffect, encEffect] at h
    split at h <;> cases h
  | dec d =>
    simp only [ownEffect, decEffect, decodeBit] at h
    split at h
    next => cases h
    next =>
      split at h
      · cases h
      · split at h <;> cases h
  | decend =>
    simp only [ownEffect, decendEffect] at h
    split at h <;> cases h
  | rdreg d =>
    simp only [ownEffect, rdregEffect] at h
    split at h <;> cases h
  | clr => cases h
  | rdfreq d => cases h
  | rdq d => cases h
  | rdnode n => cases h
  | rdnfrq n => cases h
  | rdcode d => cases h

/-! ## Where a command stops -/

/-- A command faults exactly where it passes the checks and its own rule stops. -/
theorem exec_eq_fault_iff {i : Instr} {s : State} {f : Fault} :
    exec i s = .fault f ↔
      (legalIn i s.engine.phase = true ∧ operandInRange i = true) ∧ ownEffect i s.engine = .stuck f := by
  rw [exec_eq_perform, ← checks_eq_none_iff]
  unfold perform
  split
  next k hk => simp [hk]
  next hk =>
    split
    next ho => simp [ho]
    next ho => simp [ho]
    next ho => simp [hk, ho]

theorem exec_ne_refused (i : Instr) (s : State) (r : Refusal) : exec i s ≠ .refused r := by
  intro h
  obtain ⟨-, f, -, hf⟩ := exec_not_next (i := i) (s := s) (by simp [h])
  simp [h] at hf

/-- The faults of the model, one by one. -/
theorem exec_eq_fault_cases (i : Instr) (s : State) (f : Fault) :
    exec i s = .fault f ↔
    (i = .load ∧ s.engine.phase = .accum ∧ 256 < s.engine.qsize + s.engine.distinct ∧ f = .queueFull) ∨
    (i = .merge ∧ s.engine.phase = .queued ∧ 2 ≤ s.engine.qsize ∧ s.engine.next = 511#9 ∧
      f = .nodeStoreFull) ∨
    (i = .build ∧ s.engine.phase = .queued ∧ 2 ≤ s.engine.qsize ∧
      511 < s.engine.next.toNat + (s.engine.qsize - 1) ∧ f = .nodeStoreFull) := by
  rw [exec_eq_fault_iff]
  by_cases hi : i = .load ∨ i = .merge ∨ i = .build
  · obtain rfl | rfl | rfl := hi
    · simp [legalIn, operandInRange, ownEffect, loadEffect_stuck_iff]
    · simp [legalIn, operandInRange, ownEffect, mergeEffect_stuck_iff]
    · simp [legalIn, operandInRange, ownEffect, buildEffect_stuck_iff]
  · have hnone : ownEffect i s.engine ≠ .stuck f := fun h => hi (ownEffect_stuck h)
    simp only [not_or] at hi
    simp [hi, hnone]

/-! ## No sound state stops -/

/-- Outside FAULT a sound engine has what the runs to its phase have made. -/
theorem inv_stage {e : Engine} (h : e.Inv) {p : Phase} (hp : e.phase = p) (hne : p ≠ .fault) : e.StageInv p := by
  obtain ⟨-, -, hstage | ⟨hfault, -⟩⟩ := h
  · rwa [hp] at hstage
  · exact absurd (hp.symm.trans hfault) hne

/-- The ids given out and those in Q number n0, at most 256 (10_state.md R39 item 5). -/
theorem next_add_qsize_le {e : Engine} (h : e.CountsMatch) : e.next.toNat + e.qsize ≤ 512 := by
  obtain ⟨hnext, hsum, -⟩ := h
  have := distinct_le e
  omega

/-- What LOAD, MERGE and BUILD stop at is past the counts of R39 items 3 and 5. -/
theorem inv_exec_ne_fault (i : Instr) (s : State) (f : Fault) (h : s.engine.Inv) : exec i s ≠ .fault f := by
  rw [Ne, exec_eq_fault_cases]
  rintro (⟨-, hp, hfull, -⟩ | ⟨-, hp, h2, hnext, -⟩ | ⟨-, hp, h2, hfull, -⟩)
  · obtain ⟨hq, -⟩ : s.engine.NotLoaded := inv_stage h hp (by decide)
    have := distinct_le s.engine
    rw [Engine.qsize, hq, List.length_nil] at hfull
    omega
  · obtain ⟨⟨-, hcounts, -⟩, -⟩ := inv_stage h hp (by decide)
    have := next_add_qsize_le hcounts
    rw [hnext] at this
    simp at this
    omega
  · obtain ⟨⟨-, hcounts, -⟩, -⟩ := inv_stage h hp (by decide)
    have := next_add_qsize_le hcounts
    omega

/-- Settles O52: no command is refused, the faults are those of `exec_eq_fault_cases`, and the counts of the invariant
exclude them. -/
theorem stopsOnlyAtMissingEntries : Obligations.StopsOnlyAtMissingEntries := by
  unfold Obligations.StopsOnlyAtMissingEntries
  exact ⟨exec_ne_refused, exec_eq_fault_cases, inv_exec_ne_fault⟩

end Sys2Proof.Machine
end

section
/-! PROOFS. The elements each stage of 10_state.md R39 reads, and the stages as the engine raises, counts and
decodes. -/

namespace Sys2Proof.Machine

/-! ## What the items read -/

/-- Items 4 to 8 read FREQ, TOTAL, Q, NODE and NEXT only. -/
theorem treeInv_congr {e e' : Engine} (hfreq : e'.freq = e.freq) (htotal : e'.total = e.total)
    (hqueue : e'.queue = e.queue) (hnode : e'.node = e.node) (hnext : e'.next = e.next) (h : e.TreeInv) :
    e'.TreeInv := by
  cases e
  cases e'
  simp only at hfreq htotal hqueue hnode hnext
  subst hfreq htotal hqueue hnode hnext
  exact h

/-- The table GEN makes reads the node memory only. -/
theorem tableFrom_congr {e e' : Engine} (h : e'.node = e.node) (root : NodeId) :
    e'.tableFrom root = e.tableFrom root := by
  unfold Engine.tableFrom
  rw [walk_congr h]

/-- Item 9 reads FREQ, Q, NODE and CODE only. -/
theorem tableInv_congr {e e' : Engine} (hfreq : e'.freq = e.freq) (hqueue : e'.queue = e.queue)
    (hnode : e'.node = e.node) (hcode : e'.code = e.code) (h : e.TableInv) : e'.TableInv := by
  obtain ⟨hsize, htable, hcoded, hprefix, hlen⟩ := h
  refine ⟨by rwa [Engine.qsize, hqueue], fun root hroot => ?_, fun s => ?_, fun s s' => ?_, fun s => ?_⟩
  · rw [tableFrom_congr hnode, hcode]
    exact htable root (hqueue ▸ hroot)
  · rw [codeOf_congr hcode, freqOf_congr hfreq]
    exact hcoded s
  · rw [codeOf_congr hcode, codeOf_congr hcode]
    exact hprefix s s'
  · rw [codeOf_congr hcode]
    exact hlen s

/-- No stage reads PHASE, ERR or ERRCMD, so what raise writes leaves every stage as it was. -/
theorem stageInv_status {e : Engine} {p : Phase} (h : e.StageInv p) (phase : Phase) (err : Option ErrKind)
    (w : CmdWord) : ({ e with phase := phase, err := err, errCmd := w } : Engine).StageInv p := by
  cases p with
  | accum => exact h
  | queued => exact h
  | coded =>
    obtain ⟨htree, htable, hbuf⟩ := h
    exact ⟨htree, tableInv_congr (e := e) rfl rfl rfl rfl htable, hbuf⟩
  | fault => exact h

/-! ## Raising -/

/-- A raise freezes the stage the engine is in, or finds it frozen (60_exceptions.md R130, R142). -/
theorem inv_raise (e : Engine) (k : ErrKind) (w : CmdWord) (h : e.Inv) : (e.raise k w).Inv := by
  by_cases hp : e.phase = .fault
  · rwa [raise_of_fault hp]
  · have ⟨htotal, hrecord, _⟩ := h
    refine ⟨totalIsSum_raise e k w htotal, errorRecorded_raise e k w hrecord, .inr ⟨raise_phase e k w, ?_⟩⟩
    have hfrozen : (e.raise k w).StageInv e.phase := by
      rw [raise_of_not_fault hp]
      exact stageInv_status (inv_stage h rfl hp) _ _ _
    cases hphase : e.phase with
    | accum => exact .inl (hphase ▸ hfrozen)
    | queued => exact .inr (.inl (hphase ▸ hfrozen))
    | coded => exact .inr (.inr (hphase ▸ hfrozen))
    | fault => exact absurd hphase hp

/-! ## The decoder's buffer (item 10) -/

/-- The empty buffer is unmatched: no code is the empty sequence. -/
theorem bufferUnmatched_nil {e : Engine} (h : e.buf = []) : e.BufferUnmatched := by
  refine ⟨by simp [h], fun s hs hprefix => hs ?_⟩
  rwa [h, List.prefix_nil] at hprefix

/-- A bit the decoder keeps completes no code, so the buffer stays unmatched (45_decoder.md R111). -/
theorem bufferUnmatched_keepBit {e : Engine} {x : Bit} (room : e.bufLen ≠ Config.maxLen)
    (hmatch : e.matchCode (e.buf ++ [x]) = none) (h : e.BufferUnmatched) :
    ({ e with buf := e.buf ++ [x] } : Engine).BufferUnmatched := by
  obtain ⟨hlen, hfree⟩ := h
  refine ⟨?_, fun s hs hprefix => ?_⟩
  · have : e.buf.length ≠ 255 := room
    simp only [List.length_append, List.length_singleton]
    omega
  · obtain hnil | hne := matchCode_eq_none_iff.mp hmatch
    · simp at hnil
    · obtain hall | hold := List.prefix_concat_iff.mp hprefix
      · exact hne s hall
      · exact hfree s hs hold

end Sys2Proof.Machine
end

section
/-! PROOFS. The order of the queue is kept by insert and made by LOAD (41_priority_queue.md R75, R76, R79, R82). -/

namespace Sys2Proof.Machine

/-! ## insert keeps the order of R82 -/

/-- The order of R82 reads nothing but the frequencies of the entries. -/
theorem pairwise_before_congr {e e' : Engine} {l : List NodeId} (hf : ∀ n ∈ l, e'.nodeFreq n = e.nodeFreq n)
    (h : l.Pairwise e.before) : l.Pairwise e'.before := by
  refine h.imp_of_mem fun ha hb hab => ?_
  unfold Engine.before at hab ⊢
  rwa [hf _ ha, hf _ hb]

/-- A node with a larger id than every entry keeps the order: it stands before its equals, as the larger id does. -/
theorem insert_sorted {e : Engine} {n : NodeId} (h : e.queue.Pairwise e.before) (hnew : ∀ m ∈ e.queue, m < n) :
    (e.insert n).queue.Pairwise (e.insert n).before := by
  have hle : e.queue.Pairwise (fun a b => e.nodeFreq a ≤ e.nodeFreq b) := by
    refine h.imp fun hab => ?_
    obtain hlt | ⟨heq, -⟩ := hab
    · exact BitVec.le_of_lt hlt
    · exact BitVec.le_of_eq heq
  obtain ⟨front, back, hq, hins, hfront, hback⟩ := insert_splits n hle
  show (e.insert n).queue.Pairwise e.before
  rw [hq] at h hnew
  obtain ⟨hpf, hpb, hcross⟩ := List.pairwise_append.mp h
  rw [hins, List.pairwise_append, List.pairwise_cons]
  refine ⟨hpf, ⟨fun m hm => ?_, hpb⟩, fun m hm m' hm' => ?_⟩
  · by_cases heq : e.nodeFreq n = e.nodeFreq m
    · exact .inr ⟨heq, hnew m (by simp [hm])⟩
    · exact .inl (BitVec.lt_of_le_ne (hback m hm) heq)
  · obtain rfl | hm' := List.mem_cons.mp hm'
    · exact .inl (hfront m hm)
    · exact hcross m hm m' hm'

/-! ## LOAD's loop -/

theorem loadSymbol_nodeFreq_other (e : Engine) {s : Symbol} {m : NodeId} (h : leafId s ≠ m) :
    (e.loadSymbol s).nodeFreq m = e.nodeFreq m := by
  simp [Engine.nodeFreq, loadSymbol_nodeAt, h]

theorem loadSymbol_sorted {e : Engine} {s : Symbol} (h : e.queue.Pairwise e.before)
    (hnew : ∀ m ∈ e.queue, m < leafId s) : (e.loadSymbol s).queue.Pairwise (e.loadSymbol s).before := by
  refine insert_sorted (e := e.setNode (leafId s) (leafNode (e.freqOf s))) ?_ hnew
  refine pairwise_before_congr (fun m hm => ?_) h
  exact loadSymbol_nodeFreq_other e (BitVec.ne_of_lt (hnew m hm)).symm

theorem mem_loadSymbol_queue {e : Engine} {s : Symbol} {m : NodeId} :
    m ∈ (e.loadSymbol s).queue ↔ m = leafId s ∨ m ∈ e.queue :=
  mem_insert_queue

theorem leafId_lt_leafId {s s' : Symbol} (h : s < s') : leafId s < leafId s' := by
  have := s'.isLt
  simp only [leafId, BitVec.lt_def, BitVec.toNat_setWidth] at h ⊢
  omega

/-- LOAD's loop meets the symbols in ascending order, so each leaf has a larger id than every entry before it. -/
theorem foldl_loadSymbol_sorted {l : List Symbol} {e : Engine} (hl : l.Pairwise (· < ·))
    (hnew : ∀ m ∈ e.queue, ∀ s ∈ l, m < leafId s) (h : e.queue.Pairwise e.before) :
    (l.foldl Engine.loadSymbol e).queue.Pairwise (l.foldl Engine.loadSymbol e).before := by
  induction l generalizing e with
  | nil => exact h
  | cons s l ih =>
    obtain ⟨hs, hl⟩ := List.pairwise_cons.mp hl
    refine ih hl (fun m hm s' hs' => ?_) (loadSymbol_sorted h fun m hm => hnew m hm s (by simp))
    obtain rfl | hm := mem_loadSymbol_queue.mp hm
    · exact leafId_lt_leafId (hs s' hs')
    · exact hnew m hm s' (by simp [hs'])

/-! ## The engine LOAD leaves -/

theorem Engine.NotLoaded.queue_eq {e : Engine} (h : e.NotLoaded) : e.queue = [] := h.1

theorem Engine.NotLoaded.next_eq {e : Engine} (h : e.NotLoaded) : e.next = 256#9 := h.2.1

section
variable {e : Engine} (h : e.NotLoaded)
include h

theorem loadLeaves_nodeAt (n : NodeId) :
    e.loadLeaves.nodeAt n =
      if isLeaf n = true ∧ 0#32 < e.freqOf (symbolOf n) then some (leafNode (e.freqOf (symbolOf n))) else none := by
  obtain ⟨-, -, hnode, -⟩ := h
  have hnone : e.nodeAt n = none := (nodeAt_congr (e' := Engine.reset) hnode n).trans (reset_nodeAt n)
  simp only [Engine.loadLeaves, foldl_loadSymbol_nodeAt, mem_occurring, hnone]

theorem loadLeaves_nodeAt_leafId {s : Symbol} (hs : 0#32 < e.freqOf s) :
    e.loadLeaves.nodeAt (leafId s) = some (leafNode (e.freqOf s)) := by
  simp [loadLeaves_nodeAt h, hs]

/-- The valid nodes after LOAD are the leaves of the symbols that occur. -/
theorem loadLeaves_nodeAt_eq_some {n : NodeId} {r : Node} (hn : e.loadLeaves.nodeAt n = some r) :
    ∃ s, n = leafId s ∧ 0#32 < e.freqOf s ∧ r = leafNode (e.freqOf s) := by
  rw [loadLeaves_nodeAt h] at hn
  split at hn
  next hif => exact ⟨symbolOf n, (leafId_symbolOf hif.1).symm, hif.2, by simpa using hn.symm⟩
  next => simp at hn

theorem loadLeaves_queue_perm : e.loadLeaves.queue.Perm (e.occurring.map leafId) := by
  have := foldl_loadSymbol_queue_perm e.occurring e
  rwa [h.queue_eq, List.append_nil] at this

theorem mem_loadLeaves_queue {n : NodeId} : n ∈ e.loadLeaves.queue ↔ ∃ s, n = leafId s ∧ 0#32 < e.freqOf s := by
  rw [(loadLeaves_queue_perm h).mem_iff, List.mem_map]
  simp only [mem_occurring, and_comm, eq_comm]

theorem loadLeaves_internalIds : e.loadLeaves.internalIds = [] := by
  obtain ⟨-, -, hnext, -⟩ := loadLeaves_frame e
  simp [Engine.internalIds, hnext, h.next_eq]

theorem loadLeaves_placed : e.loadLeaves.placed = e.loadLeaves.queue := by
  simp [Engine.placed, loadLeaves_internalIds h]

theorem loadLeaves_leavesMatch : e.loadLeaves.LeavesMatch := by
  have hfreq := freqOf_congr (loadLeaves_frame e).1
  refine ⟨fun s hs => ?_, fun s hs => ?_⟩
  · rw [hfreq] at hs ⊢
    exact ⟨_, loadLeaves_nodeAt_leafId h hs, rfl, rfl, rfl⟩
  · rw [hfreq] at hs
    simp [loadLeaves_nodeAt h, hs]

theorem loadLeaves_countsMatch : e.loadLeaves.CountsMatch := by
  obtain ⟨hfreq, -, hnext, -⟩ := loadLeaves_frame e
  have hsize : e.loadLeaves.qsize = e.loadLeaves.distinct := by
    have hd : e.loadLeaves.distinct = e.distinct := by rw [Engine.distinct, hfreq, Engine.distinct]
    rw [Engine.qsize, (loadLeaves_queue_perm h).length_eq, List.length_map, occurring_length, hd]
  have h256 : e.loadLeaves.next.toNat = 256 := by rw [hnext, h.next_eq]; rfl
  exact ⟨h256.ge, by omega, by omega⟩

theorem loadLeaves_internalsMatch : e.loadLeaves.InternalsMatch := by
  obtain ⟨-, -, hnext, -⟩ := loadLeaves_frame e
  refine ⟨by simp [loadLeaves_internalIds h], fun n hn => ?_⟩
  rw [hnext, h.next_eq] at hn
  have hleaf : isLeaf n = false := by simpa [isLeaf, BitVec.not_lt] using hn
  simp [loadLeaves_nodeAt h, hleaf]

theorem loadLeaves_treeShape : e.loadLeaves.TreeShape := by
  rw [Engine.TreeShape, loadLeaves_placed h]
  refine ⟨fun n hn => ?_, ?_, fun n => ⟨fun hn => ?_, fun hn => ?_⟩⟩
  · obtain ⟨s, rfl, hs⟩ := (mem_loadLeaves_queue h).mp hn
    rw [loadLeaves_nodeAt_leafId h hs]
    rfl
  · rw [(loadLeaves_queue_perm h).nodup_iff]
    exact (List.nodup_map_iff fun _ _ => leafId_inj).mpr ((occurring_ascending e).imp BitVec.ne_of_lt)
  · obtain ⟨r, hr⟩ := Option.isSome_iff_exists.mp hn
    obtain ⟨s, hs, hpos, -⟩ := loadLeaves_nodeAt_eq_some h hr
    exact (mem_loadLeaves_queue h).mpr ⟨s, hs, hpos⟩
  · obtain ⟨s, rfl, hs⟩ := (mem_loadLeaves_queue h).mp hn
    rw [loadLeaves_nodeAt_leafId h hs]
    rfl

omit h in
/-- The symbols that do not occur add nothing to the sum of the counters. -/
theorem sum_occurring (e : Engine) :
    (e.occurring.map (fun s => (e.freqOf s).toNat)).sum = (e.freq.toList.map BitVec.toNat).sum := by
  rw [occurring_eq_filter, freq_toList, List.map_map]
  induction allSymbols with
  | nil => rfl
  | cons s l ih =>
    by_cases hs : 0#32 < e.freqOf s
    · simp [hs, ih]
    · have hz : (e.freqOf s).toNat = 0 := by simpa [BitVec.lt_def] using hs
      simp [hs, ih, hz]

theorem loadLeaves_queueSorted (htotal : e.TotalIsSum) : e.loadLeaves.QueueSorted := by
  obtain ⟨-, hsame, -⟩ := loadLeaves_frame e
  refine ⟨?_, ?_, fun n r hr => ?_⟩
  · exact foldl_loadSymbol_sorted (occurring_ascending e) (by simp [h.queue_eq]) (by simp [h.queue_eq])
  · rw [hsame, htotal, ← sum_occurring, ((loadLeaves_queue_perm h).map _).sum_eq, List.map_map]
    refine congrArg List.sum (List.map_congr_left fun s hs => ?_)
    rw [Function.comp_apply, nodeFreq_of_nodeAt (loadLeaves_nodeAt_leafId h (mem_occurring.mp hs))]
    rfl
  · obtain ⟨s, -, hs, rfl⟩ := loadLeaves_nodeAt_eq_some h hr
    rw [hsame]
    exact ⟨hs, freqOf_le_total htotal s⟩

/-- LOAD makes items 4 to 8 from items 1 and 3. -/
theorem treeInv_loadLeaves (htotal : e.TotalIsSum) : e.loadLeaves.TreeInv :=
  ⟨loadLeaves_leavesMatch h, loadLeaves_countsMatch h, loadLeaves_internalsMatch h, loadLeaves_treeShape h,
    loadLeaves_queueSorted h htotal⟩

end

end Sys2Proof.Machine
end

section
/-! PROOFS. A merge keeps items 4 to 8 of 10_state.md R39 (42_tree_builder.md R85). -/

namespace Sys2Proof.Machine

/-! ## The ids given out -/

/-- The internal ids are 256 to NEXT − 1 (10_state.md R27). -/
theorem mem_internalIds {e : Engine} {n : NodeId} : n ∈ e.internalIds ↔ 256 ≤ n.toNat ∧ n < e.next := by
  have hn := n.isLt
  have hnext := e.next.isLt
  simp only [Engine.internalIds, List.mem_map, List.mem_range, BitVec.lt_def]
  constructor
  · rintro ⟨k, hk, rfl⟩
    rw [BitVec.toNat_ofNat]
    omega
  · rintro ⟨h1, h2⟩
    exact ⟨n.toNat - 256, by omega, BitVec.eq_of_toNat_eq (by rw [BitVec.toNat_ofNat]; omega)⟩

/-- A merge gives out one more id, NEXT. -/
theorem internalIds_succ {e e' : Engine} (hnext : e'.next = e.next + 1#9) (h256 : 256 ≤ e.next.toNat)
    (h511 : e.next ≠ 511#9) : e'.internalIds = e.internalIds ++ [e.next] := by
  have hne : e.next.toNat ≠ 511 := fun h => h511 (BitVec.eq_of_toNat_eq h)
  have hlt := e.next.isLt
  have hsucc : e'.next.toNat - 256 = e.next.toNat - 256 + 1 := by
    rw [hnext, BitVec.toNat_add, BitVec.toNat_ofNat]
    omega
  have hlast : BitVec.ofNat 9 (256 + (e.next.toNat - 256)) = e.next :=
    BitVec.eq_of_toNat_eq (by rw [BitVec.toNat_ofNat]; omega)
  rw [Engine.internalIds, hsucc, List.range_succ, List.map_append, List.map_singleton, hlast, Engine.internalIds]

theorem leafId_toNat_lt (s : Symbol) : (leafId s).toNat < 256 := by
  have := s.isLt
  simp only [leafId, BitVec.toNat_setWidth]
  omega

/-! ## The items a tree meets, by name -/

theorem Engine.TreeInv.leavesMatch {e : Engine} (h : e.TreeInv) : e.LeavesMatch := h.1

theorem Engine.TreeInv.countsMatch {e : Engine} (h : e.TreeInv) : e.CountsMatch := h.2.1

theorem Engine.TreeInv.internalsMatch {e : Engine} (h : e.TreeInv) : e.InternalsMatch := h.2.2.1

theorem Engine.TreeInv.treeShape {e : Engine} (h : e.TreeInv) : e.TreeShape := h.2.2.2.1

theorem Engine.TreeInv.queueSorted {e : Engine} (h : e.TreeInv) : e.QueueSorted := h.2.2.2.2

/-! ## Valid nodes of a tree -/

/-- A valid id was given out: it is below NEXT (item 6). -/
theorem lt_next_of_nodeAt {e : Engine} (h : e.InternalsMatch) {n : NodeId} {r : Node} (hn : e.nodeAt n = some r) :
    n < e.next := by
  by_contra hge
  simp [h.2 n (BitVec.not_lt.mp hge)] at hn

/-- An internal id that was given out is valid (item 6). -/
theorem nodeAt_of_mem_internalIds {e : Engine} (h : e.InternalsMatch) {n : NodeId} (hn : n ∈ e.internalIds) :
    ∃ r, e.nodeAt n = some r :=
  (h.1 n hn).imp fun _ hr => hr.1

/-- An entry of Q is valid and has no label (item 7). -/
theorem nodeAt_of_mem_queue {e : Engine} (h : e.TreeShape) {n : NodeId} (hn : n ∈ e.queue) :
    ∃ r, e.nodeAt n = some r ∧ r.label = none := by
  simpa [Option.map_eq_some_iff] using h.1 n hn

/-! ## The labels a merge writes -/

@[simp] theorem labelled_freq (a b n : NodeId) (r : Node) : (labelled a b n r).freq = r.freq := by
  unfold labelled
  split_ifs <;> rfl

@[simp] theorem labelled_left (a b n : NodeId) (r : Node) : (labelled a b n r).left = r.left := by
  unfold labelled
  split_ifs <;> rfl

@[simp] theorem labelled_right (a b n : NodeId) (r : Node) : (labelled a b n r).right = r.right := by
  unfold labelled
  split_ifs <;> rfl

theorem labelled_other {a b n : NodeId} (ha : n ≠ a) (hb : n ≠ b) (r : Node) : labelled a b n r = r := by
  simp [labelled, ha, hb]

/-! ## One merge of the two first entries of Q -/

/-- The engine merge_step leaves when Q was a, b, rest (`mergeStep_cons_cons`). -/
def Engine.joined (e : Engine) (a b : NodeId) (rest : List NodeId) : Engine :=
  ({ e with queue := rest } : Engine).joinNodes a b

/-- A merge ends with the insertion of the new node in the queue it found. -/
theorem joinNodes_eq_insert (e : Engine) (a b : NodeId) :
    ∃ c : Engine, e.joinNodes a b = c.insert e.next ∧ c.queue = e.queue :=
  ⟨_, rfl, by simp⟩

section
variable {e : Engine} {a b : NodeId} {rest : List NodeId} (h : e.TreeInv) (hq : e.queue = a :: b :: rest)
include h hq

/-- What the invariant says of the two nodes a merge takes: they are distinct, not in the rest, valid and unlabelled. -/
theorem merged_pair :
    a ≠ b ∧ a ∉ rest ∧ b ∉ rest ∧
    ∃ ra rb, e.nodeAt a = some ra ∧ ra.label = none ∧ e.nodeAt b = some rb ∧ rb.label = none := by
  have hshape := h.treeShape
  obtain ⟨ra, hra, hla⟩ := nodeAt_of_mem_queue hshape (n := a) (by simp [hq])
  obtain ⟨rb, hrb, hlb⟩ := nodeAt_of_mem_queue hshape (n := b) (by simp [hq])
  obtain ⟨-, hplaced, -⟩ := hshape
  have hnodup := hplaced.of_append_left
  rw [hq, List.nodup_cons, List.nodup_cons, List.mem_cons, not_or] at hnodup
  obtain ⟨⟨hab, har⟩, hbr, -⟩ := hnodup
  exact ⟨hab, har, hbr, ra, rb, hra, hla, hrb, hlb⟩

/-- There is an entry for the new node: NEXT is an internal id, and not 511 (items 5 and 6). -/
theorem next_is_free : 256 ≤ e.next.toNat ∧ e.next ≠ 511#9 ∧ e.nodeAt e.next = none := by
  obtain ⟨-, hcounts, hint, -⟩ := h
  refine ⟨hcounts.1, fun h511 => ?_, hint.2 _ (BitVec.le_of_eq rfl)⟩
  have := next_add_qsize_le hcounts
  rw [h511, Engine.qsize, hq] at this
  simp at this
  omega

/-- The frequencies of the pair and of the rest add up to TOTAL, so the sum of the pair does not wrap. -/
theorem merged_freq :
    (e.nodeFreq a + e.nodeFreq b).toNat = (e.nodeFreq a).toNat + (e.nodeFreq b).toNat ∧
    (e.nodeFreq a + e.nodeFreq b).toNat + (rest.map (fun n => (e.nodeFreq n).toNat)).sum = e.total.toNat := by
  obtain ⟨-, -, -, -, -, hsum, -⟩ := h
  rw [hq, List.map_cons, List.map_cons, List.sum_cons, List.sum_cons] at hsum
  have hlt := e.total.isLt
  have hadd : (e.nodeFreq a + e.nodeFreq b).toNat = (e.nodeFreq a).toNat + (e.nodeFreq b).toNat :=
    BitVec.toNat_add_of_lt (by omega)
  exact ⟨hadd, by omega⟩

theorem joined_nodeAt (n : NodeId) :
    (e.joined a b rest).nodeAt n =
      if e.next = n then some ⟨e.nodeFreq a + e.nodeFreq b, some a, some b, none⟩
      else (e.nodeAt n).map (labelled a b n) :=
  have ⟨_, h511, _⟩ := next_is_free h hq
  joinNodes_nodeAt a b n h511

theorem joined_nodeAt_next :
    (e.joined a b rest).nodeAt e.next = some ⟨e.nodeFreq a + e.nodeFreq b, some a, some b, none⟩ := by
  simp [joined_nodeAt h hq]

theorem joined_nodeAt_other {n : NodeId} (hn : n ≠ e.next) :
    (e.joined a b rest).nodeAt n = (e.nodeAt n).map (labelled a b n) := by
  simp [joined_nodeAt h hq, hn.symm]

/-- A node that was valid is not the new one, so only its label may have changed. -/
theorem joined_nodeAt_of_valid {n : NodeId} {r : Node} (hr : e.nodeAt n = some r) :
    (e.joined a b rest).nodeAt n = some (labelled a b n r) := by
  rw [joined_nodeAt_other h hq (BitVec.ne_of_lt (lt_next_of_nodeAt h.internalsMatch hr)), hr]
  rfl

theorem joined_nodeFreq_of_valid {n : NodeId} {r : Node} (hr : e.nodeAt n = some r) :
    (e.joined a b rest).nodeFreq n = e.nodeFreq n := by
  rw [nodeFreq_of_nodeAt (joined_nodeAt_of_valid h hq hr), nodeFreq_of_nodeAt hr, labelled_freq]

/-- A label once written stays: the two nodes a merge labels had none. -/
theorem joined_label {n : NodeId} {x : Bit} (hx : (e.nodeAt n).bind Node.label = some x) :
    ((e.joined a b rest).nodeAt n).bind Node.label = some x := by
  obtain ⟨r, hr, hlabel⟩ := Option.bind_eq_some_iff.mp hx
  obtain ⟨-, -, -, ra, rb, hra, hla, hrb, hlb⟩ := merged_pair h hq
  have hna : n ≠ a := by
    rintro rfl
    simp_all
  have hnb : n ≠ b := by
    rintro rfl
    simp_all
  rw [joined_nodeAt_of_valid h hq hr, labelled_other hna hnb]
  exact hlabel

/-- The rest of Q is as it was. -/
theorem joined_nodeAt_of_mem_rest {n : NodeId} (hn : n ∈ rest) : (e.joined a b rest).nodeAt n = e.nodeAt n := by
  obtain ⟨-, har, hbr, -⟩ := merged_pair h hq
  obtain ⟨r, hr, -⟩ := nodeAt_of_mem_queue h.treeShape (n := n) (by simp [hq, hn])
  rw [joined_nodeAt_of_valid h hq hr, hr, labelled_other (by rintro rfl; exact har hn) (by rintro rfl; exact hbr hn)]

theorem joined_internalIds : (e.joined a b rest).internalIds = e.internalIds ++ [e.next] := by
  obtain ⟨h256, h511, -⟩ := next_is_free h hq
  exact internalIds_succ (joinNodes_next _ a b) h256 h511

theorem joined_next_toNat : (e.joined a b rest).next.toNat = e.next.toNat + 1 := by
  obtain ⟨-, h511, -⟩ := next_is_free h hq
  have hne : e.next.toNat ≠ 511 := fun hh => h511 (BitVec.eq_of_toNat_eq hh)
  have hlt := e.next.isLt
  have hnext : (e.joined a b rest).next = e.next + 1#9 := joinNodes_next _ a b
  rw [hnext, BitVec.toNat_add, BitVec.toNat_ofNat]
  omega

theorem joined_leavesMatch : (e.joined a b rest).LeavesMatch := by
  obtain ⟨hpos, hzero⟩ := h.leavesMatch
  have hfreq : ∀ s, (e.joined a b rest).freqOf s = e.freqOf s :=
    freqOf_congr (joinNodes_frame { e with queue := rest } a b).1
  refine ⟨fun s hs => ?_, fun s hs => ?_⟩
  · rw [hfreq] at hs ⊢
    obtain ⟨r, hr, hf, hl, hright⟩ := hpos s hs
    exact ⟨_, joined_nodeAt_of_valid h hq hr, by rwa [labelled_freq], by rwa [labelled_left],
      by rwa [labelled_right]⟩
  · rw [hfreq] at hs
    have hne : leafId s ≠ e.next := by
      have h1 := leafId_toNat_lt s
      have h2 := (next_is_free h hq).1
      intro heq
      rw [heq] at h1
      omega
    rw [joined_nodeAt_other h hq hne, hzero s hs]
    rfl

theorem joined_countsMatch : (e.joined a b rest).CountsMatch := by
  obtain ⟨h256, -⟩ := next_is_free h hq
  obtain ⟨-, hsum, -⟩ := h.countsMatch
  obtain ⟨-, hsize, -⟩ := mergeStep_counts (mergeStep_cons_cons hq)
  have hdistinct : (e.joined a b rest).distinct = e.distinct := by
    rw [Engine.distinct, Engine.distinct]
    exact congrArg _ (congrArg _ (joinNodes_frame { e with queue := rest } a b).1)
  have hsize' : (e.joined a b rest).qsize + 1 = e.qsize := hsize
  have hpos : 1 ≤ (e.joined a b rest).qsize := by
    simp [Engine.joined, joinNodes_qsize]
  unfold Engine.CountsMatch
  rw [joined_next_toNat h hq, hdistinct]
  omega

/-- An internal node made before stays whole. -/
theorem joined_internalOk {n : NodeId} (hn : e.InternalOk n) : (e.joined a b rest).InternalOk n := by
  obtain ⟨r, hr, x, hx, y, hy, hxn, hyn, hxy, hlx, hly, hf⟩ := hn
  obtain ⟨rx, hrx, -⟩ := Option.bind_eq_some_iff.mp hlx
  obtain ⟨ry, hry, -⟩ := Option.bind_eq_some_iff.mp hly
  refine ⟨_, joined_nodeAt_of_valid h hq hr, x, by rwa [labelled_left], y, by rwa [labelled_right], hxn, hyn, hxy,
    joined_label h hq hlx, joined_label h hq hly, ?_⟩
  rw [labelled_freq, joined_nodeFreq_of_valid h hq hrx, joined_nodeFreq_of_valid h hq hry, hf]

/-- The node a merge makes is whole, and its children carry the labels 0 and 1. -/
theorem joined_internalOk_next : (e.joined a b rest).InternalOk e.next := by
  obtain ⟨hab, -, -, ra, rb, hra, -, hrb, -⟩ := merged_pair h hq
  refine ⟨_, joined_nodeAt_next h hq, a, rfl, b, rfl, lt_next_of_nodeAt h.internalsMatch hra,
    lt_next_of_nodeAt h.internalsMatch hrb, hab, ?_, ?_, ?_⟩
  · rw [joined_nodeAt_of_valid h hq hra]
    simp [labelled, hab]
  · rw [joined_nodeAt_of_valid h hq hrb]
    simp [labelled]
  · rw [joined_nodeFreq_of_valid h hq hra, joined_nodeFreq_of_valid h hq hrb]
    exact (merged_freq h hq).1

theorem joined_internalsMatch : (e.joined a b rest).InternalsMatch := by
  obtain ⟨hwhole, hfree⟩ := h.internalsMatch
  refine ⟨fun n hn => ?_, fun n hn => ?_⟩
  · rw [joined_internalIds h hq, List.mem_append, List.mem_singleton] at hn
    obtain hn | rfl := hn
    · exact joined_internalOk h hq (hwhole n hn)
    · exact joined_internalOk_next h hq
  · have hlt : e.next < n := by
      rw [BitVec.le_def, joined_next_toNat h hq] at hn
      exact BitVec.lt_def.mpr hn
    rw [joined_nodeAt_other h hq (BitVec.ne_of_lt hlt).symm, hfree n (BitVec.le_of_lt hlt)]
    rfl

/-- The children of the internal nodes made before are as they were. -/
theorem joined_childrenOf {n : NodeId} (hn : n ∈ e.internalIds) :
    (e.joined a b rest).childrenOf n = e.childrenOf n := by
  obtain ⟨r, hr⟩ := nodeAt_of_mem_internalIds h.internalsMatch hn
  simp [Engine.childrenOf, joined_nodeAt_of_valid h hq hr, hr]

/-- A merge moves a and b from Q to the children of the new node, and puts the new node in Q. -/
theorem joined_placed_perm : (e.joined a b rest).placed.Perm (e.next :: e.placed) := by
  have hold : e.internalIds.flatMap (e.joined a b rest).childrenOf = e.internalIds.flatMap e.childrenOf :=
    List.flatMap_congr fun n hn => joined_childrenOf h hq hn
  have hnew : (e.joined a b rest).childrenOf e.next = [a, b] := by
    simp [Engine.childrenOf, joined_nodeAt_next h hq]
  have hqueue : (e.joined a b rest).queue.Perm (e.next :: rest) := joinNodes_queue_perm _ a b
  unfold Engine.placed
  rw [joined_internalIds h hq, List.flatMap_append, hold, List.flatMap_singleton, hnew, hq]
  generalize e.internalIds.flatMap e.childrenOf = old
  have hswap : (e.next :: rest ++ (old ++ [a, b])).Perm ([a, b] ++ e.next :: (rest ++ old)) := by
    rw [← List.append_assoc]
    exact List.perm_append_comm
  have hfront : ([a, b] ++ e.next :: (rest ++ old)).Perm (e.next :: (a :: b :: rest ++ old)) := List.perm_middle
  exact ((hqueue.append_right _).trans hswap).trans hfront

theorem joined_treeShape : (e.joined a b rest).TreeShape := by
  obtain ⟨-, -, hfree⟩ := next_is_free h hq
  have hperm := joined_placed_perm h hq
  obtain ⟨hentries, hnodup, hvalid⟩ := h.treeShape
  have hqueue : (e.joined a b rest).queue.Perm (e.next :: rest) := joinNodes_queue_perm _ a b
  refine ⟨fun n hn => ?_, ?_, fun n => ?_⟩
  · obtain rfl | hn := List.mem_cons.mp (hqueue.mem_iff.mp hn)
    · rw [joined_nodeAt_next h hq]
      rfl
    · rw [joined_nodeAt_of_mem_rest h hq hn]
      exact hentries n (by simp [hq, hn])
  · rw [hperm.nodup_iff, List.nodup_cons]
    refine ⟨fun hmem => ?_, hnodup⟩
    have := (hvalid e.next).mpr hmem
    simp [hfree] at this
  · rw [hperm.mem_iff, List.mem_cons, ← hvalid, joined_nodeAt h hq]
    by_cases hn : e.next = n
    · simp [hn]
    · simp [hn, Ne.symm hn]

theorem joined_sorted : (e.joined a b rest).queue.Pairwise (e.joined a b rest).before := by
  obtain ⟨c, hjoin, hcq⟩ := joinNodes_eq_insert { e with queue := rest } a b
  have hjoin : e.joined a b rest = c.insert e.next := hjoin
  have hcq : c.queue = rest := hcq
  have hsorted : rest.Pairwise e.before := by
    obtain ⟨hall, -⟩ := h.queueSorted
    rw [hq] at hall
    exact hall.of_cons.of_cons
  have hvalid : ∀ n ∈ rest, ∃ r, e.nodeAt n = some r := fun n hn =>
    (nodeAt_of_mem_queue h.treeShape (n := n) (by simp [hq, hn])).imp fun _ hr => hr.1
  have hfreq : ∀ n ∈ rest, c.nodeFreq n = e.nodeFreq n := fun n hn => by
    obtain ⟨r, hr⟩ := hvalid n hn
    rw [← insert_nodeFreq c e.next, ← hjoin, joined_nodeFreq_of_valid h hq hr]
  rw [hjoin]
  refine insert_sorted ?_ fun n hn => ?_
  · rw [hcq]
    exact pairwise_before_congr hfreq hsorted
  · obtain ⟨r, hr⟩ := hvalid n (hcq ▸ hn)
    exact lt_next_of_nodeAt h.internalsMatch hr

theorem joined_queueSorted : (e.joined a b rest).QueueSorted := by
  obtain ⟨hadd, hsum⟩ := merged_freq h hq
  obtain ⟨-, -, hbound⟩ := h.queueSorted
  obtain ⟨-, -, -, ra, rb, hra, -, hrb, -⟩ := merged_pair h hq
  obtain ⟨-, htotal, -⟩ := joinNodes_frame { e with queue := rest } a b
  have htotal : (e.joined a b rest).total = e.total := htotal
  have hqueue : (e.joined a b rest).queue.Perm (e.next :: rest) := joinNodes_queue_perm _ a b
  refine ⟨joined_sorted h hq, ?_, fun n r hr => ?_⟩
  · have hrest : rest.map (fun n => ((e.joined a b rest).nodeFreq n).toNat) =
        rest.map (fun n => (e.nodeFreq n).toNat) := by
      refine List.map_congr_left fun n hn => ?_
      obtain ⟨r, hr, -⟩ := nodeAt_of_mem_queue h.treeShape (n := n) (by simp [hq, hn])
      rw [joined_nodeFreq_of_valid h hq hr]
    rw [(hqueue.map _).sum_eq, List.map_cons, List.sum_cons, hrest, nodeFreq_of_nodeAt (joined_nodeAt_next h hq),
      htotal]
    exact hsum
  · rw [htotal]
    by_cases hn : n = e.next
    · subst hn
      obtain rfl : _ = r := Option.some.inj ((joined_nodeAt_next h hq).symm.trans hr)
      have hpos := (hbound a ra hra).1
      rw [← nodeFreq_of_nodeAt hra, BitVec.lt_def] at hpos
      simp only [BitVec.lt_def, BitVec.le_def, BitVec.toNat_ofNat] at hpos ⊢
      omega
    · rw [joined_nodeAt_other h hq hn] at hr
      obtain ⟨r', hr', rfl⟩ := Option.map_eq_some_iff.mp hr
      rw [labelled_freq]
      exact hbound n r' hr'

end

/-- A merge keeps items 4 to 8. -/
theorem treeInv_mergeStep {e e' : Engine} (h : e.TreeInv) (hm : e.mergeStep = .ok e') : e'.TreeInv := by
  obtain ⟨a, b, rest, hq, hjoin⟩ := mergeStep_ok (mergeStep_counts hm).1
  obtain rfl : e.joined a b rest = e' := Except.ok.inj (hjoin.symm.trans hm)
  exact ⟨joined_leavesMatch h hq, joined_countsMatch h hq, joined_internalsMatch h hq, joined_treeShape h hq,
    joined_queueSorted h hq⟩

end Sys2Proof.Machine
end

section
/-! PROOFS. The table GEN makes is that of the tree (10_state.md R39 item 9, 43_code_table.md R95 to R99). -/

namespace Sys2Proof.Machine

/-- The child of a record on the edge labelled x: L on 0, R on 1. -/
def Node.child (r : Node) (x : Bit) : Option NodeId := if x then r.right else r.left

/-! ## Following edges -/

@[simp] theorem follow_nil (e : Engine) (n : NodeId) : e.follow n [] = some n := rfl

/-- A path with a first edge goes to the child on it, then on from there. -/
theorem follow_cons_eq_some {e : Engine} {n m : NodeId} {x : Bit} {q : List Bit} :
    e.follow n (x :: q) = some m ↔
      ∃ r c, e.nodeAt n = some r ∧ r.child x = some c ∧ e.follow c q = some m := by
  rw [Engine.follow]
  cases hn : e.nodeAt n with
  | none => simp
  | some r =>
    cases hc : (if x then r.right else r.left) with
    | none => simp [Node.child, hc]
    | some c => simp [Node.child, hc]

/-- A path may be made longer by one edge at its end. -/
theorem follow_snoc {e : Engine} {p c : NodeId} {r : Node} {x : Bit} (hp : e.nodeAt p = some r)
    (hc : r.child x = some c) {n : NodeId} {q : List Bit} (h : e.follow n q = some p) :
    e.follow n (q ++ [x]) = some c := by
  induction q generalizing n with
  | nil =>
    obtain rfl : n = p := Option.some.inj h
    exact follow_cons_eq_some.mpr ⟨r, c, hp, hc, rfl⟩
  | cons y q ih =>
    obtain ⟨r', c', hn, hc', hq⟩ := follow_cons_eq_some.mp h
    exact follow_cons_eq_some.mpr ⟨r', c', hn, hc', ih hq⟩

/-- A path with a first part goes where that part goes, then on from there. -/
theorem follow_append {e : Engine} {n p m : NodeId} {q q' : List Bit} (hq : e.follow n q = some p)
    (h : e.follow n (q ++ q') = some m) : e.follow p q' = some m := by
  induction q generalizing n with
  | nil =>
    obtain rfl : n = p := Option.some.inj hq
    exact h
  | cons x q ih =>
    obtain ⟨r, c, hn, hc, hrest⟩ := follow_cons_eq_some.mp hq
    obtain ⟨r', c', hn', hc', hrest'⟩ := follow_cons_eq_some.mp h
    obtain rfl : r = r' := Option.some.inj (hn.symm.trans hn')
    obtain rfl : c = c' := Option.some.inj (hc.symm.trans hc')
    exact ih hrest hrest'

/-! ## Leaves and internal nodes of a tree -/

/-- A valid leaf is that of a symbol that occurs, and has no child (item 4). -/
theorem leaf_of_nodeAt {e : Engine} (h : e.LeavesMatch) {s : Symbol} {r : Node}
    (hr : e.nodeAt (leafId s) = some r) : 0#32 < e.freqOf s ∧ ∀ x, r.child x = none := by
  obtain ⟨hpos, hzero⟩ := h
  have hs : 0#32 < e.freqOf s := by
    by_contra hnot
    have h0 : e.freqOf s = 0#32 := by simpa using hnot
    simp [hzero s h0] at hr
  obtain ⟨r', hr', -, hl, hright⟩ := hpos s hs
  obtain rfl : r = r' := Option.some.inj (hr.symm.trans hr')
  exact ⟨hs, fun x => by cases x <;> simp [Node.child, hl, hright]⟩

/-- From a leaf no edge goes on. -/
theorem follow_leafId {e : Engine} (h : e.LeavesMatch) {s : Symbol} {m : NodeId} {q : List Bit}
    (hq : e.follow (leafId s) q = some m) : q = [] ∧ m = leafId s := by
  cases q with
  | nil => exact ⟨rfl, (Option.some.inj hq).symm⟩
  | cons x q =>
    obtain ⟨r, c, hr, hc, -⟩ := follow_cons_eq_some.mp hq
    simp [(leaf_of_nodeAt h hr).2 x] at hc

/-- A node with a child is internal, and the child is valid and has a smaller id (item 6). -/
theorem child_of_nodeAt {e : Engine} (h : e.TreeInv) {n c : NodeId} {r : Node} {x : Bit}
    (hn : e.nodeAt n = some r) (hc : r.child x = some c) :
    256 ≤ n.toNat ∧ c < n ∧ (e.nodeAt c).isSome = true := by
  obtain ⟨hleaves, -, hint, -⟩ := h
  have hinternal : 256 ≤ n.toNat := by
    by_contra hlt
    have hleaf : isLeaf n = true := by
      simp only [isLeaf, decide_eq_true_eq, BitVec.lt_def]
      exact Nat.lt_of_not_le hlt
    rw [← leafId_symbolOf hleaf] at hn
    simp [(leaf_of_nodeAt hleaves hn).2 x] at hc
  obtain ⟨r', hr', a, ha, b, hb, han, hbn, -, hla, hlb, -⟩ :=
    hint.1 n (mem_internalIds.mpr ⟨hinternal, lt_next_of_nodeAt hint hn⟩)
  obtain rfl : r = r' := Option.some.inj (hn.symm.trans hr')
  cases x with
  | false =>
    obtain rfl : a = c := Option.some.inj (ha.symm.trans hc)
    obtain ⟨ra, hra, -⟩ := Option.bind_eq_some_iff.mp hla
    exact ⟨hinternal, han, by simp [hra]⟩
  | true =>
    obtain rfl : b = c := Option.some.inj (hb.symm.trans hc)
    obtain ⟨rb, hrb, -⟩ := Option.bind_eq_some_iff.mp hlb
    exact ⟨hinternal, hbn, by simp [hrb]⟩

/-- A path leads to a valid node when it starts at one. -/
theorem nodeAt_of_follow {e : Engine} (h : e.TreeInv) {n m : NodeId} {q : List Bit}
    (hn : (e.nodeAt n).isSome = true) (hq : e.follow n q = some m) : (e.nodeAt m).isSome = true := by
  induction q generalizing n with
  | nil =>
    obtain rfl : n = m := Option.some.inj hq
    exact hn
  | cons x q ih =>
    obtain ⟨r, c, hr, hc, hq⟩ := follow_cons_eq_some.mp hq
    obtain ⟨-, -, hchild⟩ := child_of_nodeAt h hr hc
    exact ih hchild hq

/-- Ids fall along a path, and every node on it but the last is internal; so a path is no longer than there are
internal ids up to its start. -/
theorem follow_length {e : Engine} (h : e.TreeInv) {n m : NodeId} {q : List Bit} (hq : e.follow n q = some m) :
    q = [] ∨ 255 + q.length ≤ n.toNat := by
  induction q generalizing n with
  | nil => exact .inl rfl
  | cons x q ih =>
    obtain ⟨r, c, hr, hc, hrest⟩ := follow_cons_eq_some.mp hq
    obtain ⟨hinternal, hlt, -⟩ := child_of_nodeAt h hr hc
    rw [BitVec.lt_def] at hlt
    refine .inr ?_
    rw [List.length_cons]
    obtain rfl | hlen := ih hrest
    · simpa using hinternal
    · omega

/-! ## Every valid node hangs on the root -/

/-- A valid node outside Q is the child of a valid node with a larger id (items 6 and 7). -/
theorem exists_parent {e : Engine} (h : e.TreeInv) {n : NodeId} (hn : (e.nodeAt n).isSome = true)
    (hq : n ∉ e.queue) : ∃ p r x, e.nodeAt p = some r ∧ r.child x = some n ∧ n < p := by
  obtain ⟨-, -, hvalid⟩ := h.treeShape
  have hplaced := (hvalid n).mp hn
  rw [Engine.placed, List.mem_append, or_iff_right hq, List.mem_flatMap] at hplaced
  obtain ⟨p, hp, hmem⟩ := hplaced
  obtain ⟨r, hr⟩ := nodeAt_of_mem_internalIds h.internalsMatch hp
  have hedge : ∃ x, r.child x = some n := by
    simpa [Engine.childrenOf, hr, Node.child] using hmem
  obtain ⟨x, hc⟩ := hedge
  obtain ⟨-, hlt, -⟩ := child_of_nodeAt h hr hc
  exact ⟨p, r, x, hr, hc, hlt⟩

/-- With one node left in Q, every valid node is reached from it (42_tree_builder.md R91). -/
theorem exists_follow {e : Engine} (h : e.TreeInv) {root : NodeId} (hq : e.queue = [root]) (n : NodeId)
    (hn : (e.nodeAt n).isSome = true) : ∃ q, e.follow root q = some n := by
  by_cases hroot : n = root
  · exact ⟨[], by simp [hroot]⟩
  · obtain ⟨p, r, x, hp, hc, hlt⟩ := exists_parent h hn (by simp [hq, hroot])
    obtain ⟨q, hfollow⟩ := exists_follow h hq p (by simp [hp])
    exact ⟨q ++ [x], follow_snoc hp hc hfollow⟩
termination_by 512 - n.toNat
decreasing_by
  have := p.isLt
  rw [BitVec.lt_def] at hlt
  omega

/-- Exactly the symbols that occur have a path from the root to their leaf. -/
theorem freq_pos_iff_follow {e : Engine} (h : e.TreeInv) {root : NodeId} (hq : e.queue = [root]) (s : Symbol) :
    0#32 < e.freqOf s ↔ ∃ q, e.follow root q = some (leafId s) := by
  constructor
  · intro hs
    obtain ⟨hpos, -⟩ := h.leavesMatch
    obtain ⟨r, hr, -⟩ := hpos s hs
    exact exists_follow h hq _ (Option.isSome_iff_exists.mpr ⟨r, hr⟩)
  · rintro ⟨q, hfollow⟩
    obtain ⟨r, hr, -⟩ := nodeAt_of_mem_queue h.treeShape (n := root) (by simp [hq])
    obtain ⟨r', hr'⟩ := Option.isSome_iff_exists.mp (nodeAt_of_follow h (by simp [hr]) hfollow)
    exact (leaf_of_nodeAt h.leavesMatch hr').1

/-! ## What the walk records -/

/-- Visiting a valid internal node answers a table only where both children are there, and then visits them in
turn. -/
theorem walk_internal_eq_some {e : Engine} {n : NodeId} {r : Node} (hn : e.nodeAt n = some r)
    (hi : isLeaf n = false) {fuel : Nat} {path : List Bit} {t t' : CodeTable}
    (h : e.walk (fuel + 1) n path t = some t') :
    ∃ a b u, r.left = some a ∧ r.right = some b ∧ e.walk fuel a (path ++ [false]) t = some u ∧
      e.walk fuel b (path ++ [true]) u = some t' := by
  cases hl : r.left with
  | none =>
    rw [Engine.walk] at h
    simp [hn, hi, hl] at h
  | some a =>
    cases hr : r.right with
    | none =>
      rw [Engine.walk] at h
      simp [hn, hi, hl, hr] at h
    | some b =>
      rw [walk_internal hn hi hl hr] at h
      obtain ⟨u, hu, hrest⟩ := Option.bind_eq_some_iff.mp h
      exact ⟨a, b, u, rfl, rfl, hu, hrest⟩

/-- The walk from n records, for every symbol whose leaf n leads to, a path to that leaf, and leaves every other entry
alone (43_code_table.md R95). -/
theorem walk_entry {e : Engine} (h : e.LeavesMatch) {fuel : Nat} {n : NodeId} {path : List Bit} {t t' : CodeTable}
    (hw : e.walk fuel n path t = some t') (s : Symbol) :
    (∃ q, e.follow n q = some (leafId s) ∧ t'.entry s = path ++ q) ∨
    ((∀ q, e.follow n q ≠ some (leafId s)) ∧ t'.entry s = t.entry s) := by
  induction fuel generalizing n path t t' with
  | zero => simp [Engine.walk] at hw
  | succ fuel ih =>
    cases hn : e.nodeAt n with
    | none =>
      rw [Engine.walk] at hw
      simp [hn] at hw
    | some r =>
      cases hleaf : isLeaf n with
      | true =>
        rw [walk_leaf hn hleaf] at hw
        obtain rfl := Option.some.inj hw
        have hid := leafId_symbolOf hleaf
        rw [record_entry]
        by_cases hs : symbolOf n = s
        · exact .inl ⟨[], by simp [← hs, hid], by simp [hs]⟩
        · refine .inr ⟨fun q hq => hs ?_, by simp [hs]⟩
          rw [← hid] at hq
          exact leafId_inj (follow_leafId h hq).2.symm
      | false =>
        obtain ⟨a, b, u, ha, hb, hua, hub⟩ := walk_internal_eq_some hn hleaf hw
        have hca : r.child false = some a := ha
        have hcb : r.child true = some b := hb
        obtain ⟨q, hq, hent⟩ | ⟨hnb, hent⟩ := ih hub
        · exact .inl ⟨true :: q, follow_cons_eq_some.mpr ⟨r, b, hn, hcb, hq⟩, by simp [hent]⟩
        obtain ⟨q, hq, hent'⟩ | ⟨hna, hent'⟩ := ih hua
        · exact .inl ⟨false :: q, follow_cons_eq_some.mpr ⟨r, a, hn, hca, hq⟩, by simp [hent, hent']⟩
        refine .inr ⟨fun q hq => ?_, hent.trans hent'⟩
        cases q with
        | nil =>
          obtain rfl : n = leafId s := Option.some.inj hq
          simp at hleaf
        | cons x q =>
          obtain ⟨r', c, hr', hc, hrest⟩ := follow_cons_eq_some.mp hq
          obtain rfl : r = r' := Option.some.inj (hn.symm.trans hr')
          cases x with
          | false =>
            obtain rfl : a = c := Option.some.inj (hca.symm.trans hc)
            exact hna q hrest
          | true =>
            obtain rfl : b = c := Option.some.inj (hcb.symm.trans hc)
            exact hnb q hrest

/-! ## The table of a finished tree -/

/-- `e.CodeOfTree root s c`: c is the code of s that 43_code_table.md R95 and R96 give in the tree under root: the path
to the leaf of s, "0" where that leaf is the root, and no bits where there is no such path. -/
def Engine.CodeOfTree (e : Engine) (root : NodeId) (s : Symbol) (c : List Bit) : Prop :=
  (∃ q, e.follow root q = some (leafId s) ∧ c = if isLeaf root then [false] else q) ∨
  ((∀ q, e.follow root q ≠ some (leafId s)) ∧ c = [])

/-- Every entry of the table GEN makes is the code of its symbol in the tree. -/
theorem tableFrom_entry {e : Engine} (h : e.LeavesMatch) {root : NodeId} {t : CodeTable}
    (ht : e.tableFrom root = some t) (s : Symbol) : e.CodeOfTree root s (t.entry s) := by
  unfold Engine.tableFrom at ht
  split at ht
  next hleaf =>
    obtain rfl := Option.some.inj ht
    have hid := leafId_symbolOf hleaf
    rw [record_entry, emptyTable_entry]
    by_cases hs : symbolOf root = s
    · exact .inl ⟨[], by simp [← hs, hid], by simp [hs, hleaf]⟩
    · refine .inr ⟨fun q hq => hs ?_, by simp [hs]⟩
      rw [← hid] at hq
      exact leafId_inj (follow_leafId h hq).2.symm
  next hinternal =>
    obtain ⟨q, hq, hent⟩ | ⟨hnone, hent⟩ := walk_entry h ht s
    · exact .inl ⟨q, hq, by simpa [hinternal] using hent⟩
    · exact .inr ⟨hnone, by simpa using hent⟩

/-- A code that is a first part of another leads to the same leaf, since no edge goes on from a leaf
(43_code_table.md R99 item b). -/
theorem codeOfTree_prefix {e : Engine} (h : e.LeavesMatch) {root : NodeId} {s s' : Symbol} {c c' : List Bit}
    (hc : e.CodeOfTree root s c) (hc' : e.CodeOfTree root s' c') (hne : c ≠ []) (hne' : c' ≠ [])
    (hprefix : c <+: c') : s = s' := by
  obtain ⟨q, hfollow, rfl⟩ | ⟨-, rfl⟩ := hc
  · obtain ⟨q', hfollow', rfl⟩ | ⟨-, rfl⟩ := hc'
    · by_cases hleaf : isLeaf root = true
      · rw [← leafId_symbolOf hleaf] at hfollow hfollow'
        exact leafId_inj ((follow_leafId h hfollow).2.trans (follow_leafId h hfollow').2.symm)
      · simp only [hleaf, if_false, Bool.false_eq_true] at hprefix
        obtain ⟨z, rfl⟩ := hprefix
        exact leafId_inj (follow_leafId h (follow_append hfollow hfollow')).2.symm
    · exact absurd rfl hne'
  · exact absurd rfl hne

section
variable {e : Engine} (h : e.TreeInv) {root : NodeId} (hq : e.queue = [root])
include h hq

/-- Exactly the symbols that occur have a code (43_code_table.md R99 item a). -/
theorem codeOfTree_ne_nil_iff {s : Symbol} {c : List Bit} (hc : e.CodeOfTree root s c) :
    c ≠ [] ↔ 0#32 < e.freqOf s := by
  rw [freq_pos_iff_follow h hq]
  obtain ⟨q, hfollow, rfl⟩ | ⟨hnone, rfl⟩ := hc
  · refine iff_of_true ?_ ⟨q, hfollow⟩
    split
    · simp
    next hinternal =>
      rintro rfl
      obtain rfl : root = leafId s := Option.some.inj hfollow
      simp at hinternal
  · exact iff_of_false (by simp) fun ⟨q, hfollow⟩ => hnone q hfollow

/-- No code is longer than 255 bits: at most 255 internal ids were given out (43_code_table.md R99 item c). -/
theorem codeOfTree_length {s : Symbol} {c : List Bit} (hc : e.CodeOfTree root s c) : c.length ≤ 255 := by
  obtain ⟨q, hfollow, rfl⟩ | ⟨-, rfl⟩ := hc
  · split
    · simp
    · obtain ⟨r, hr, -⟩ := nodeAt_of_mem_queue h.treeShape (n := root) (by simp [hq])
      have hroot := lt_next_of_nodeAt h.internalsMatch hr
      have hnext := next_add_qsize_le h.countsMatch
      rw [BitVec.lt_def] at hroot
      rw [Engine.qsize, hq, List.length_singleton] at hnext
      obtain rfl | hlen := follow_length h hfollow
      · simp
      · omega
  · simp

/-- The table GEN makes of a finished tree meets item 9. -/
theorem tableInv_of_tableFrom {t : CodeTable} (ht : e.tableFrom root = some t) (phase : Phase) :
    ({ e with code := t, phase := phase } : Engine).TableInv := by
  have hentry : ∀ s, e.CodeOfTree root s (({ e with code := t, phase := phase } : Engine).codeOf s) :=
    tableFrom_entry h.leavesMatch ht
  refine ⟨?_, fun n hn => ?_, fun s => codeOfTree_ne_nil_iff h hq (hentry s), ?_,
    fun s => codeOfTree_length h hq (hentry s)⟩
  · show e.queue.length = 1
    simp [hq]
  · obtain rfl : n = root := by simpa [hq] using hn
    have hnode : ({ e with code := t, phase := phase } : Engine).node = e.node := rfl
    have hsame := tableFrom_congr hnode n
    exact hsame.trans ht
  · intro s s' hne hs hs' hprefix
    exact hne (codeOfTree_prefix h.leavesMatch (hentry s) (hentry s') hs hs' hprefix)

end

end Sys2Proof.Machine
end

section
/-! PROOFS. Every step keeps the invariant of 10_state.md R39. -/

namespace Sys2Proof.Machine

/-- In FAULT only CLR commits a change (60_exceptions.md R142, R145). -/
theorem commit_in_fault {i : Instr} {e e' : Engine} (hlegal : legalIn i e.phase = true) (hc : Commit i e e')
    (hp : e.phase = .fault) : e' = Engine.reset ∨ e' = e := by
  rw [hp] at hlegal
  cases hc with
  | clr => exact .inl rfl
  | keep => exact .inr rfl
  | acc | load | merge | build | gen | keepBit | emptyBuffer => simp [legalIn] at hlegal

/-- MERGE and BUILD keep what a run to QUEUED has made. -/
theorem stageInv_queued_merge {e e' : Engine} (hm : e.mergeStep = .ok e') (h : e.StageInv .queued) :
    e'.StageInv .queued := by
  obtain ⟨htree, hcode, hbuf⟩ := h
  obtain ⟨-, -, hc, hb, -⟩ := mergeStep_frame hm
  exact ⟨treeInv_mergeStep htree hm, hc.trans hcode, hb.trans hbuf⟩

/-- A commit outside FAULT keeps the stage of its phase, or makes the next one. -/
theorem stageInv_commit {i : Instr} {e e' : Engine} (hlegal : legalIn i e.phase = true) (hc : Commit i e e')
    (htotal : e.TotalIsSum) (h : e.StageInv e.phase) : e'.StageInv e'.phase := by
  cases hc with
  | clr => exact ⟨rfl, rfl, rfl, rfl, rfl⟩
  | acc d room =>
    have hp : e.phase = .accum := by simpa [legalIn] using hlegal
    rw [hp] at h
    rw [countSymbol_phase, hp]
    exact h
  | load =>
    have hp : e.phase = .accum := by simpa [legalIn] using hlegal
    rw [hp] at h
    have hnot : e.NotLoaded := h
    obtain ⟨-, -, -, hcode, hbuf, -⟩ := loadLeaves_frame e
    obtain ⟨-, -, -, hcode0, hbuf0⟩ := hnot
    exact ⟨treeInv_loadLeaves h htotal, hcode.trans hcode0, hbuf.trans hbuf0⟩
  | merge hm =>
    have hp : e.phase = .queued := by simpa [legalIn] using hlegal
    obtain ⟨-, -, -, -, hphase, -⟩ := mergeStep_frame hm
    rw [hp] at h hphase
    rw [hphase]
    exact stageInv_queued_merge hm h
  | build hb =>
    have hp : e.phase = .queued := by simpa [legalIn] using hlegal
    obtain ⟨-, -, -, -, hphase, -⟩ := buildLoop_frame hb
    rw [hp] at h hphase
    rw [hphase]
    exact buildLoop_induction (P := fun x => x.StageInv .queued) (fun _ _ hx hm => stageInv_queued_merge hm hx) h hb
  | gen hq ht =>
    have hp : e.phase = .queued := by simpa [legalIn] using hlegal
    rw [hp] at h
    obtain ⟨htree, -, hbuf⟩ := h
    exact ⟨treeInv_congr rfl rfl rfl rfl rfl htree, tableInv_of_tableFrom htree hq ht .coded,
      bufferUnmatched_nil hbuf⟩
  | keepBit d room hmatch =>
    have hp : e.phase = .coded := by simpa [legalIn] using hlegal
    rw [hp] at h
    obtain ⟨htree, htable, hbuf⟩ := h
    show Engine.StageInv _ e.phase
    rw [hp]
    exact ⟨htree, tableInv_congr (e := e) rfl rfl rfl rfl htable, bufferUnmatched_keepBit room hmatch hbuf⟩
  | emptyBuffer d =>
    have hp : e.phase = .coded := by simpa [legalIn] using hlegal
    rw [hp] at h
    obtain ⟨htree, htable, -⟩ := h
    show Engine.StageInv _ e.phase
    rw [hp]
    exact ⟨htree, tableInv_congr (e := e) rfl rfl rfl rfl htable, bufferUnmatched_nil rfl⟩
  | keep => exact h

/-- Every commit keeps the invariant. -/
theorem inv_commit {i : Instr} {e e' : Engine} (hlegal : legalIn i e.phase = true) (hc : Commit i e e')
    (h : e.Inv) : e'.Inv := by
  have ⟨htotal, hrecord, _⟩ := h
  by_cases hp : e.phase = .fault
  · obtain rfl | rfl := commit_in_fault hlegal hc hp
    · exact inv_reset
    · exact h
  · exact ⟨totalIsSum_commit hc htotal, errorRecorded_commit hlegal hc hrecord,
      .inl (stageInv_commit hlegal hc htotal (inv_stage h rfl hp))⟩

/-- Settles O59: a raise and a commit keep the invariant. -/
theorem stepKeepsSoundness : Obligations.StepKeepsSoundness := by
  unfold Obligations.StepKeepsSoundness
  intro s t hs h
  exact step_preserves inv_raise inv_commit hs h

end Sys2Proof.Machine
end

section
/-! PROOFS. The memory (20_memory.md): what a read-back answers (R48), what the output stream carries (R52), and
which command writes which space (R41). -/

namespace Sys2Proof.Machine

/-! ## Read-backs (R48) -/

theorem legalIn_of_isReadBack {i : Instr} (h : isReadBack i = true) (p : Phase) : legalIn i p = true := by
  cases i with
  | rdreg | rdfreq | rdq | rdnode | rdnfrq | rdcode => rfl
  | clr | acc | load | merge | build | gen | enc | dec | decend => cases h

/-- Only a register number and a node id can name nothing (30_encoding.md R59 step 5). -/
theorem operandInRange_eq_false_iff {i : Instr} :
    operandInRange i = false ↔ (∃ d, i = .rdreg d ∧ 6#8 < d) ∨ i = .rdnode 511#9 ∨ i = .rdnfrq 511#9 := by
  cases i <;> simp [operandInRange]

theorem exec_of_operand_out_of_range {i : Instr} (h : operandInRange i = false) (s : State) :
    exec i s = .next (s.raise .illegalCommand (encode i)) := by
  rw [exec_eq_perform]
  apply perform_of_checks
  cases hc : checks i s.engine.phase with
  | none =>
    obtain ⟨-, hrange⟩ := (checks_eq_none_iff i _).mp hc
    simp [h] at hrange
  | some k => rw [checks_eq_some hc]

/-- The numbers the operand check lets through all name a register (10_state.md R33). -/
theorem regValue_isSome (e : Engine) {d : BitVec 8} (h : d ≤ 6#8) : ∃ v, e.regValue d = some v := by
  have hle : d.toNat ≤ 6 := h
  unfold Engine.regValue
  interval_cases d.toNat <;> exact ⟨_, rfl⟩

/-- A read-back's own rule reads the engine and writes nothing. -/
theorem ownEffect_readBack {i : Instr} (hread : isReadBack i = true) (hrange : operandInRange i = true)
    (e : Engine) : ∃ d out, ownEffect i e = .ok e d out := by
  cases i with
  | rdreg d =>
    obtain ⟨v, hv⟩ := regValue_isSome e (of_decide_eq_true hrange)
    exact ⟨v, [], by simp [ownEffect, rdregEffect, hv]⟩
  | rdfreq | rdq | rdnode | rdnfrq | rdcode => exact ⟨_, _, rfl⟩
  | clr | acc | load | merge | build | gen | enc | dec | decend => cases hread

/-- What a read-back answers depends on the engine alone, and the engine stays. -/
theorem exec_readBack {i : Instr} (hread : isReadBack i = true) (hrange : operandInRange i = true) (e : Engine) :
    ∃ d out, ∀ s : State, s.engine = e → exec i s = .next (s.complete e d out) := by
  obtain ⟨d, out, ho⟩ := ownEffect_readBack hread hrange e
  refine ⟨d, out, fun s hs => ?_⟩
  rw [exec_eq_perform]
  exact perform_ok ((checks_eq_none_iff i _).mpr ⟨legalIn_of_isReadBack hread _, hrange⟩) (hs ▸ ho)

/-- Settles O53: a read-back whose operand names something completes with the engine it read, and so again; one whose
operand names nothing raises. -/
theorem readBacksChangeNothing : Obligations.ReadBacksChangeNothing := by
  unfold Obligations.ReadBacksChangeNothing
  intro i s hi
  have hread : isReadBack i = true := by
    obtain ⟨_, rfl⟩ | ⟨_, rfl⟩ | ⟨_, rfl⟩ | ⟨_, rfl⟩ | ⟨_, rfl⟩ | ⟨_, rfl⟩ := hi <;> rfl
  cases hrange : operandInRange i with
  | true =>
    obtain ⟨d, out, hexec⟩ := exec_readBack hread hrange s.engine
    exact ⟨_, hexec s rfl, .inl ⟨d, out, completed_complete _ _ _ _, rfl, _, hexec _ rfl,
      completed_complete _ _ _ _, rfl⟩⟩
  | false =>
    obtain ⟨-, -, hfault, -⟩ := raised_raise s .illegalCommand (encode i)
    exact ⟨_, exec_of_operand_out_of_range hrange s, .inr ⟨raised_raise s _ _, hfault,
      operandInRange_eq_false_iff.mp hrange⟩⟩

/-! ## Output elements (R52) -/

theorem ErrKind.code_ne_zero (k : ErrKind) : k.code ≠ 0#4 := by cases k <;> decide

/-- A command whose response has status 0 was ended by its own rule, with that data and those output elements. -/
theorem ownEffect_of_completed {i : Instr} {s t : State} {d : Data} {out : List Byte} (h : exec i s = .next t)
    (hc : Completed s t d out) : ownEffect i s.engine = .ok t.engine d out := by
  obtain ⟨-, hsent⟩ := hc
  have raise_absurd (k : ErrKind) (w : CmdWord) : t ≠ s.raise k w := by
    rintro rfl
    have hlast := congrArg List.getLast? hsent
    simp [ErrKind.code_ne_zero] at hlast
  obtain ⟨-, ht⟩ | ⟨-, k, -, ht⟩ | ⟨-, e, d', out', ho, rfl⟩ := exec_next h
  · exact absurd ht (raise_absurd _ _)
  · exact absurd ht (raise_absurd _ _)
  · rw [complete_sent] at hsent
    obtain ⟨hout, hrsp⟩ := List.append_inj' (List.append_cancel_left hsent) rfl
    obtain rfl : out' = out := List.map_injective_iff.mpr (fun _ _ hb => Event.out.inj hb) hout
    obtain rfl : d' = d := by simpa using hrsp
    exact ho

/-- DEC emits the symbol it matched and answers 1, or nothing and answers 0 (45_decoder.md R111). -/
theorem decEffect_output {c : Byte} {e e' : Engine} {d : Data} {out : List Byte}
    (h : decEffect c e = .ok e' d out) : d.toNat = out.length := by
  unfold decEffect at h
  split at h
  next => cases h
  next =>
    split at h
    · cases h
    · unfold decodeBit at h
      split at h <;> cases h <;> rfl

/-- The commands that emit (30_encoding.md R62). -/
def Emits (i : Instr) : Prop := (∃ x, i = .enc x) ∨ (∃ x, i = .dec x) ∨ ∃ x, i = .rdcode x

/-- A code is at most 255 bits long in every sound state, so its length is a word (43_code_table.md R99). -/
theorem inv_code_length {e : Engine} (h : e.Inv) (s : Symbol) : (e.codeOf s).length ≤ 255 := by
  have hempty (hcode : e.code = Vector.replicate 256 []) : (e.codeOf s).length ≤ 255 := by
    simp [Engine.codeOf, hcode]
  have hstage {p : Phase} (hp : e.StageInv p) : (e.codeOf s).length ≤ 255 := by
    cases p with
    | accum =>
      obtain ⟨-, -, -, hcode, -⟩ := hp
      exact hempty hcode
    | queued =>
      obtain ⟨-, hcode, -⟩ := hp
      exact hempty hcode
    | coded =>
      obtain ⟨-, ⟨-, -, -, -, hlength⟩, -⟩ := hp
      exact hlength s
    | fault => exact hp.elim
  obtain ⟨-, -, hp | ⟨-, hp | hp | hp⟩⟩ := h <;> exact hstage hp

/-- The characters of a code are counted exactly by the word that answers its length. -/
theorem code_output_length {e : Engine} (h : e.Inv) (s : Symbol) :
    (BitVec.ofNat 32 (e.codeOf s).length).toNat = ((e.codeOf s).map bitChar).length := by
  have := inv_code_length h s
  rw [BitVec.toNat_ofNat, List.length_map]
  omega

theorem emitter_output {i : Instr} {e e' : Engine} {d : Data} {out : List Byte} (he : e.Inv) (hi : Emits i)
    (h : ownEffect i e = .ok e' d out) : d.toNat = out.length := by
  obtain ⟨x, rfl⟩ | ⟨x, rfl⟩ | ⟨x, rfl⟩ := hi
  · simp only [ownEffect, encEffect] at h
    split at h
    · cases h
    · cases h; exact code_output_length he x
  · exact decEffect_output h
  · cases h; exact code_output_length he x

/-- A command that is no emitter has no output element. -/
theorem output_nil {i : Instr} {e e' : Engine} {d : Data} {out : List Byte} (hi : ¬ Emits i)
    (h : ownEffect i e = .ok e' d out) : out = [] := by
  cases i with
  | enc x => exact absurd (.inl ⟨x, rfl⟩) hi
  | dec x => exact absurd (.inr (.inl ⟨x, rfl⟩)) hi
  | rdcode x => exact absurd (.inr (.inr ⟨x, rfl⟩)) hi
  | clr | rdfreq | rdq | rdnode | rdnfrq => cases h; rfl
  | acc | load | merge | build | gen | decend | rdreg =>
    simp only [ownEffect, accEffect, loadEffect, mergeEffect, buildEffect, genEffect, decendEffect, rdregEffect] at h
    grind

/-- Settles O54: a command that completed was ended by its own rule, which emits as counted or not at all. -/
theorem outputCountIsAnswered : Obligations.OutputCountIsAnswered := by
  unfold Obligations.OutputCountIsAnswered
  intro i s t d out hinv hexec hc
  have ho := ownEffect_of_completed hexec hc
  exact ⟨fun hi => emitter_output hinv hi ho, fun hout => by_contra fun hi => hout (output_nil hi ho)⟩

/-! ## Who writes which space (R41) -/

/-- What a commit other than CLR's writes, and in which phase: one case for each writer, with the spaces it leaves. -/
theorem commit_writes {i : Instr} {e e' : Engine} (hlegal : legalIn i e.phase = true) (hc : Commit i e e')
    (hi : i ≠ .clr) :
    e' = e ∨
    ((∃ d, i = .acc d) ∧ e.phase = .accum ∧ e'.queue = e.queue ∧ e'.node = e.node ∧ e'.next = e.next ∧
      e'.code = e.code ∧ e'.buf = e.buf) ∨
    (i = .load ∧ e.phase = .accum ∧ e'.freq = e.freq ∧ e'.total = e.total ∧ e'.next = e.next ∧
      e'.code = e.code ∧ e'.buf = e.buf) ∨
    (i ∈ [.merge, .build] ∧ e.phase = .queued ∧ e'.freq = e.freq ∧ e'.total = e.total ∧ e'.code = e.code ∧
      e'.buf = e.buf) ∨
    (i = .gen ∧ e.phase = .queued ∧ e'.phase = .coded ∧ e'.freq = e.freq ∧ e'.total = e.total ∧
      e'.queue = e.queue ∧ e'.node = e.node ∧ e'.next = e.next ∧ e'.buf = e.buf) ∨
    ((∃ d, i = .dec d) ∧ e.phase = .coded ∧ ∃ b, e' = { e with buf := b }) := by
  cases hc with
  | clr => exact absurd rfl hi
  | keep => exact .inl rfl
  | acc d => exact .inr (.inl ⟨⟨d, rfl⟩, by simpa [legalIn] using hlegal, rfl, rfl, rfl, rfl, rfl⟩)
  | load =>
    obtain ⟨hfreq, htotal, hnext, hcode, hbuf, -⟩ := loadLeaves_frame e
    exact .inr (.inr (.inl ⟨rfl, by simpa [legalIn] using hlegal, hfreq, htotal, hnext, hcode, hbuf⟩))
  | merge hm =>
    obtain ⟨hfreq, htotal, hcode, hbuf, -⟩ := mergeStep_frame hm
    exact .inr (.inr (.inr (.inl ⟨by simp, by simpa [legalIn] using hlegal, hfreq, htotal, hcode, hbuf⟩)))
  | build hb =>
    obtain ⟨hfreq, htotal, hcode, hbuf, -⟩ := buildLoop_frame hb
    exact .inr (.inr (.inr (.inl ⟨by simp, by simpa [legalIn] using hlegal, hfreq, htotal, hcode, hbuf⟩)))
  | gen =>
    exact .inr (.inr (.inr (.inr (.inl ⟨rfl, by simpa [legalIn] using hlegal, rfl, rfl, rfl, rfl, rfl, rfl, rfl⟩))))
  | keepBit d | emptyBuffer d =>
    exact .inr (.inr (.inr (.inr (.inr ⟨⟨d, rfl⟩, by simpa [legalIn] using hlegal, _, rfl⟩))))

/-- Settles O55: a raise writes no space, and each writer of `commit_writes` leaves the spaces that are not its own. -/
theorem spacesHaveTheirWriters : Obligations.SpacesHaveTheirWriters := by
  unfold Obligations.SpacesHaveTheirWriters
  intro i s t h hi
  obtain ⟨k, rfl⟩ | ⟨hlegal, hc⟩ := exec_raises_or_commits h
  · simp
  · obtain hkeep | ⟨hacc, hp, hq, hn, hx, hcode, hb⟩ | ⟨hload, hp, hf, ht, hx, hcode, hb⟩ |
      ⟨hmerge, hp, hf, ht, hcode, hb⟩ | ⟨hgen, hp, hp', hf, ht, hq, hn, hx, hb⟩ | ⟨hdec, hp, b, hbuf⟩ :=
      commit_writes hlegal hc hi
    · simp [hkeep]
    · simp [hacc, hp, hq, hn, hx, hcode, hb]
    · simp [hload, hp, hf, ht, hx, hcode, hb]
    · simp [hmerge, hp, hf, ht, hcode, hb]
    · simp [hgen, hp, hp', hf, ht, hq, hn, hx, hb]
    · simp [hdec, hp, hbuf]

end Sys2Proof.Machine
end

section
/-! PROOFS. The command words (30_encoding.md R55 to R60): a word is OP * 2^12 + operand, decoding reads the two
numbers and encoding writes them. -/

namespace Sys2Proof

/-! ## A command as an opcode and an operand -/

/-- The bits of a word that the format gives to the operand (30_encoding.md R56). -/
def Format.operandBits : Format → Nat
  | .z => 0
  | .b => 8
  | .n => 9

/-- The operand of a command as a number, 0 for a command that has none. -/
def Instr.operand : Instr → Nat
  | .acc d | .enc d | .dec d | .rdreg d | .rdfreq d | .rdq d | .rdcode d => d.toNat
  | .rdnode n | .rdnfrq n => n.toNat
  | .clr | .load | .merge | .build | .gen | .decend => 0

/-- The command with this mnemonic and operand. -/
def Mnemonic.instr (v : Nat) : Mnemonic → Instr
  | .clr => .clr
  | .acc => .acc (BitVec.ofNat 8 v)
  | .load => .load
  | .merge => .merge
  | .build => .build
  | .gen => .gen
  | .enc => .enc (BitVec.ofNat 8 v)
  | .dec => .dec (BitVec.ofNat 8 v)
  | .decend => .decend
  | .rdreg => .rdreg (BitVec.ofNat 8 v)
  | .rdfreq => .rdfreq (BitVec.ofNat 8 v)
  | .rdq => .rdq (BitVec.ofNat 8 v)
  | .rdnode => .rdnode (BitVec.ofNat 9 v)
  | .rdnfrq => .rdnfrq (BitVec.ofNat 9 v)
  | .rdcode => .rdcode (BitVec.ofNat 8 v)

@[simp] theorem mnemonic_instr (m : Mnemonic) (v : Nat) : (m.instr v).mnemonic = m := by
  cases m <;> rfl

theorem instr_operand (i : Instr) : i.mnemonic.instr i.operand = i := by
  cases i <;> simp [Instr.mnemonic, Instr.operand, Mnemonic.instr]

theorem operand_instr {m : Mnemonic} {v : Nat} (h : v < 2 ^ m.format.operandBits) : (m.instr v).operand = v := by
  cases m <;> simp_all [Mnemonic.format, Format.operandBits, Mnemonic.instr, Instr.operand]

/-- The operand of a command fits its field. -/
theorem operand_lt (i : Instr) : i.operand < 2 ^ i.mnemonic.format.operandBits := by
  cases i with
  | clr | load | merge | build | gen | decend => simp [Instr.operand]
  | acc d | enc d | dec d | rdreg d | rdfreq d | rdq d | rdcode d => exact d.isLt
  | rdnode n | rdnfrq n => exact n.isLt

theorem lt_of_lt_two_pow_operandBits {f : Format} {v : Nat} (h : v < 2 ^ f.operandBits) : v < 4096 := by
  cases f <;> simp only [Format.operandBits] at h <;> omega

theorem opcodeOf_lt (m : Mnemonic) : Machine.opcodeOf m < 16 := by cases m <;> decide

/-- Every opcode but 0 is that of a mnemonic (30_encoding.md R58). -/
theorem exists_opcodeOf {k : Nat} (hpos : 0 < k) (hlt : k < 16) : ∃ m, Machine.opcodeOf m = k := by
  have h : ∀ k : Fin 16, 0 < k → ∃ m ∈ Machine.allMnemonics, Machine.opcodeOf m = k := by decide
  obtain ⟨m, -, hm⟩ := h ⟨k, hlt⟩ hpos
  exact ⟨m, hm⟩

/-! ## The words encoding writes -/

/-- OP << 12 | x as a number, for an operand of less than 12 bits (30_encoding.md R64). -/
theorem shiftLeft_or_setWidth_toNat {k : Nat} (hk : k ≤ 12) (op : BitVec 4) (x : BitVec k) :
    (op.setWidth 16 <<< 12 ||| x.setWidth 16).toNat = op.toNat * 4096 + x.toNat := by
  have hx : x.toNat < 2 ^ 12 := x.isLt.trans_le (Nat.pow_le_pow_right (by decide) hk)
  have hop := op.isLt
  rw [BitVec.toNat_or, BitVec.toNat_shiftLeft, BitVec.toNat_setWidth, BitVec.toNat_setWidth,
    Nat.mod_eq_of_lt (by omega : op.toNat < 2 ^ 16), Nat.mod_eq_of_lt (by omega : x.toNat < 2 ^ 16),
    Nat.shiftLeft_eq, Nat.mod_eq_of_lt (by omega), ← Nat.shiftLeft_eq, ← Nat.shiftLeft_add_eq_or_of_lt hx,
    Nat.shiftLeft_eq]

theorem wordZ_toNat (op : BitVec 4) : (wordZ op).toNat = op.toNat * 4096 := by
  simpa [wordZ] using shiftLeft_or_setWidth_toNat (by decide) op 0#1

theorem wordB_toNat (op : BitVec 4) (d : BitVec 8) : (wordB op d).toNat = op.toNat * 4096 + d.toNat :=
  shiftLeft_or_setWidth_toNat (by decide) op d

theorem wordN_toNat (op : BitVec 4) (n : NodeId) : (wordN op n).toNat = op.toNat * 4096 + n.toNat :=
  shiftLeft_or_setWidth_toNat (by decide) op n

/-- The word of a command as a number: its opcode, zeros, its operand. -/
theorem encode_toNat (i : Instr) : (encode i).toNat = Machine.opcodeOf i.mnemonic * 4096 + i.operand := by
  cases i with
  | clr | load | merge | build | gen | decend => exact wordZ_toNat _
  | acc d | enc d | dec d | rdreg d | rdfreq d | rdq d | rdcode d => exact wordB_toNat _ d
  | rdnode n | rdnfrq n => exact wordN_toNat _ n

/-! ## What decoding reads -/

theorem opField_toNat (w : CmdWord) : (opField w).toNat = w.toNat / 4096 := by
  simp only [opField, BitVec.extractLsb'_toNat, Nat.shiftRight_eq_div_pow]
  omega

theorem byteField_eq (w : CmdWord) : byteField w = BitVec.ofNat 8 (w.toNat % 4096) := by
  apply BitVec.eq_of_toNat_eq
  simp only [byteField, BitVec.extractLsb'_toNat, BitVec.toNat_ofNat, Nat.shiftRight_zero]
  omega

theorem nodeField_eq (w : CmdWord) : nodeField w = BitVec.ofNat 9 (w.toNat % 4096) := by
  apply BitVec.eq_of_toNat_eq
  simp only [nodeField, BitVec.extractLsb'_toNat, BitVec.toNat_ofNat, Nat.shiftRight_zero]
  omega

theorem reservedZ_iff (w : CmdWord) : w.extractLsb' 0 12 = 0#12 ↔ w.toNat % 4096 < 2 ^ Format.z.operandBits := by
  simp only [← BitVec.toNat_inj, BitVec.extractLsb'_toNat, BitVec.toNat_ofNat, Nat.shiftRight_zero,
    Format.operandBits]
  omega

theorem reservedB_iff (w : CmdWord) : w.extractLsb' 8 4 = 0#4 ↔ w.toNat % 4096 < 2 ^ Format.b.operandBits := by
  simp only [← BitVec.toNat_inj, BitVec.extractLsb'_toNat, BitVec.toNat_ofNat, Nat.shiftRight_eq_div_pow,
    Format.operandBits]
  omega

theorem reservedN_iff (w : CmdWord) : w.extractLsb' 9 3 = 0#3 ↔ w.toNat % 4096 < 2 ^ Format.n.operandBits := by
  simp only [← BitVec.toNat_inj, BitVec.extractLsb'_toNat, BitVec.toNat_ofNat, Nat.shiftRight_eq_div_pow,
    Format.operandBits]
  omega

theorem decodeZ_eq (w : CmdWord) (i : Instr) :
    decodeZ w i = if w.toNat % 4096 < 2 ^ Format.z.operandBits then .ok i else .error .reservedBits :=
  if_congr (reservedZ_iff w) rfl rfl

theorem decodeB_eq (w : CmdWord) (mk : BitVec 8 → Instr) :
    decodeB w mk = if w.toNat % 4096 < 2 ^ Format.b.operandBits then .ok (mk (BitVec.ofNat 8 (w.toNat % 4096)))
      else .error .reservedBits :=
  if_congr (reservedB_iff w) (by rw [byteField_eq]) rfl

theorem decodeN_eq (w : CmdWord) (mk : NodeId → Instr) :
    decodeN w mk = if w.toNat % 4096 < 2 ^ Format.n.operandBits then .ok (mk (BitVec.ofNat 9 (w.toNat % 4096)))
      else .error .reservedBits :=
  if_congr (reservedN_iff w) (by rw [nodeField_eq]) rfl

/-- Step 2 of 30_encoding.md R59 in the row of one mnemonic: the 12 bits after the opcode are the operand when they
fit its field; otherwise a reserved bit is set. -/
theorem decode_of_opcode {w : CmdWord} {m : Mnemonic} (h : w.toNat / 4096 = Machine.opcodeOf m) :
    decode w = if w.toNat % 4096 < 2 ^ m.format.operandBits then .ok (m.instr (w.toNat % 4096))
      else .error .reservedBits := by
  unfold decode
  rw [opField_toNat, h]
  cases m with
  | clr | load | merge | build | gen | decend => exact decodeZ_eq w _
  | acc | enc | dec | rdreg | rdfreq | rdq | rdcode => exact decodeB_eq w _
  | rdnode | rdnfrq => exact decodeN_eq w _

/-- Step 1 of 30_encoding.md R59. -/
theorem decode_of_opcode_zero {w : CmdWord} (h : w.toNat / 4096 = 0) : decode w = .error .reservedOpcode := by
  unfold decode
  rw [opField_toNat, h]
  rfl

/-- The three ways a word decodes: opcode 0, a row of the opcode map whose field the operand fits, and one whose
field it does not fit. -/
theorem decode_cases (w : CmdWord) :
    (w.toNat / 4096 = 0 ∧ decode w = .error .reservedOpcode) ∨
    ∃ m, w.toNat / 4096 = Machine.opcodeOf m ∧
      ((w.toNat % 4096 < 2 ^ m.format.operandBits ∧ decode w = .ok (m.instr (w.toNat % 4096))) ∨
       (2 ^ m.format.operandBits ≤ w.toNat % 4096 ∧ decode w = .error .reservedBits)) := by
  rcases Nat.eq_zero_or_pos (w.toNat / 4096) with hzero | hpos
  · exact .inl ⟨hzero, decode_of_opcode_zero hzero⟩
  · obtain ⟨m, hm⟩ := exists_opcodeOf hpos (by omega)
    refine .inr ⟨m, hm.symm, ?_⟩
    rcases Nat.lt_or_ge (w.toNat % 4096) (2 ^ m.format.operandBits) with hfits | hwide
    · exact .inl ⟨hfits, by rw [decode_of_opcode hm.symm, if_pos hfits]⟩
    · exact .inr ⟨hwide, by rw [decode_of_opcode hm.symm, if_neg hwide.not_gt]⟩

/-! ## Decoding and encoding are inverse -/

theorem decode_encode (i : Instr) : decode (encode i) = .ok i := by
  have hfits := operand_lt i
  have hlt := lt_of_lt_two_pow_operandBits hfits
  have hop : (encode i).toNat / 4096 = Machine.opcodeOf i.mnemonic := by rw [encode_toNat]; omega
  have harg : (encode i).toNat % 4096 = i.operand := by rw [encode_toNat]; omega
  rw [decode_of_opcode hop, harg, if_pos hfits, instr_operand]

theorem encode_of_decode {w : CmdWord} {i : Instr} (h : decode w = .ok i) : encode i = w := by
  rcases decode_cases w with ⟨-, he⟩ | ⟨m, hop, ⟨hfits, hok⟩ | ⟨-, he⟩⟩
  · simp [h] at he
  · obtain rfl : i = m.instr (w.toNat % 4096) := by simpa [h] using hok
    apply BitVec.eq_of_toNat_eq
    rw [encode_toNat, mnemonic_instr, operand_instr hfits, ← hop]
    omega
  · simp [h] at he

/-- Settles O1: both numbers of the word, opcode and operand, are read back. -/
theorem decodeInvertsEncode : Obligations.DecodeInvertsEncode := by
  unfold Obligations.DecodeInvertsEncode
  exact decode_encode

/-- Settles O2: the opcode and the operand are all that a word has, since its reserved bits are 0. -/
theorem encodeInvertsDecode : Obligations.EncodeInvertsDecode := by
  unfold Obligations.EncodeInvertsDecode
  exact fun _ _ => encode_of_decode

/-- Settles O4: each of the words is read by evaluation. -/
theorem wordsDecodeAsWritten : Obligations.WordsDecodeAsWritten := by
  unfold Obligations.WordsDecodeAsWritten
  exact ⟨rfl, rfl, rfl, rfl, rfl, rfl, rfl, rfl, rfl, rfl, rfl⟩

/-! ## The opcode map (30_encoding.md R58) -/

/-- The words that decode to a command of mnemonic m: its opcode, and an operand that fits. -/
theorem exists_decode_eq_ok_iff (w : CmdWord) (m : Mnemonic) :
    (∃ i, decode w = .ok i ∧ i.mnemonic = m) ↔
      w.toNat / 4096 = Machine.opcodeOf m ∧ w.toNat % 4096 < 2 ^ m.format.operandBits := by
  constructor
  · rintro ⟨i, hi, rfl⟩
    have hfits := operand_lt i
    have hlt := lt_of_lt_two_pow_operandBits hfits
    rw [← encode_of_decode hi, encode_toNat]
    constructor <;> omega
  · rintro ⟨hop, hfits⟩
    exact ⟨m.instr (w.toNat % 4096), by rw [decode_of_opcode hop, if_pos hfits], mnemonic_instr m _⟩

/-- The mask of a row leaves out the operand's bits, and its match is the opcode over zeros. -/
theorem opcodeMap_row {row : OpcodeRow} (h : row ∈ opcodeMap) :
    row.mask = BitVec.allOnes 16 <<< row.mnemonic.format.operandBits ∧
      row.matchBits.toNat = Machine.opcodeOf row.mnemonic * 4096 := by
  revert row
  decide

/-- Masking the k lowest bits of a word away. -/
theorem and_allOnes_shiftLeft_toNat (w : CmdWord) (k : Nat) :
    (w &&& BitVec.allOnes 16 <<< k).toNat = w.toNat / 2 ^ k * 2 ^ k := by
  have hle : w.toNat / 2 ^ k * 2 ^ k < 2 ^ 16 := (Nat.div_mul_le_self _ _).trans_lt w.isLt
  rw [← BitVec.shiftLeft_ushiftRight, BitVec.toNat_shiftLeft, BitVec.toNat_ushiftRight,
    Nat.shiftRight_eq_div_pow, Nat.shiftLeft_eq, Nat.mod_eq_of_lt hle]

/-- What match and mask of a row ask of a word: its opcode, and an operand that fits. -/
theorem opcodeMap_row_holds_iff {row : OpcodeRow} (h : row ∈ opcodeMap) (w : CmdWord) :
    w &&& row.mask = row.matchBits ↔
      w.toNat / 4096 = Machine.opcodeOf row.mnemonic ∧
        w.toNat % 4096 < 2 ^ row.mnemonic.format.operandBits := by
  obtain ⟨hmask, hmatch⟩ := opcodeMap_row h
  rw [← BitVec.toNat_inj, hmask, hmatch, and_allOnes_shiftLeft_toNat]
  cases row.mnemonic.format <;> simp only [Format.operandBits] <;> omega

/-- A word matches a row exactly when it decodes to the mnemonic of the row. -/
theorem opcodeMap_row_decodes_iff {row : OpcodeRow} (h : row ∈ opcodeMap) (w : CmdWord) :
    w &&& row.mask = row.matchBits ↔ ∃ i, decode w = .ok i ∧ i.mnemonic = row.mnemonic :=
  (opcodeMap_row_holds_iff h w).trans (exists_decode_eq_ok_iff w row.mnemonic).symm

theorem opcodeMap_row_unique {row row' : OpcodeRow} (h : row ∈ opcodeMap) (h' : row' ∈ opcodeMap)
    (heq : row.mnemonic = row'.mnemonic) : row = row' := by
  have hall : ∀ row ∈ opcodeMap, ∀ row' ∈ opcodeMap, row.mnemonic = row'.mnemonic → row = row' := by decide
  exact hall row h row' h' heq

theorem exists_row (m : Mnemonic) : ∃ row ∈ opcodeMap, row.mnemonic = m := by
  cases m <;> decide

/-- Settles O3: a row and a mnemonic ask the same of a word, one opcode and an operand that fits; each mnemonic has
one row. -/
theorem decodeFollowsOpcodeMap : Obligations.DecodeFollowsOpcodeMap := by
  unfold Obligations.DecodeFollowsOpcodeMap
  refine ⟨fun w row hrow => opcodeMap_row_decodes_iff hrow w, ?_, fun w => ⟨fun hnone => ?_, ?_⟩⟩
  · intro w row hrow row' hrow' hw hw'
    obtain ⟨i, hi, hm⟩ := (opcodeMap_row_decodes_iff hrow w).1 hw
    obtain ⟨i', hi', hm'⟩ := (opcodeMap_row_decodes_iff hrow' w).1 hw'
    obtain rfl : i = i' := by simpa [hi] using hi'
    exact opcodeMap_row_unique hrow hrow' (hm.symm.trans hm')
  · cases hd : decode w with
    | error x => exact ⟨x, rfl⟩
    | ok i =>
      obtain ⟨row, hrow, hm⟩ := exists_row i.mnemonic
      exact absurd ((opcodeMap_row_decodes_iff hrow w).2 ⟨i, hd, hm.symm⟩) (hnone row hrow)
  · rintro ⟨x, hx⟩ row hrow hw
    obtain ⟨i, hi, -⟩ := (opcodeMap_row_decodes_iff hrow w).1 hw
    simp [hi] at hx

/-! ## Lines of the assembler (30_encoding.md R64) -/

theorem operandBound_eq (f : Format) : f.operandBound = if f = .z then none else some (2 ^ f.operandBits) := by
  cases f <;> rfl

/-- "The assembled word is OP << 12 | operand": it is the word of the command. -/
theorem ofNat_opcode_or_eq_encode {m : Mnemonic} {v : Nat} (h : v < 2 ^ m.format.operandBits) :
    BitVec.ofNat 16 (Machine.opcodeOf m <<< 12 ||| v) = encode (m.instr v) := by
  have hv := lt_of_lt_two_pow_operandBits h
  have hop := opcodeOf_lt m
  apply BitVec.eq_of_toNat_eq
  rw [encode_toNat, mnemonic_instr, operand_instr h, BitVec.toNat_ofNat,
    ← Nat.shiftLeft_add_eq_or_of_lt (i := 12) hv, Nat.shiftLeft_eq, Nat.mod_eq_of_lt (by omega)]

theorem encode_extract_operand (i : Instr) : (encode i).extractLsb' 0 12 = BitVec.ofNat 12 i.operand := by
  have hlt := lt_of_lt_two_pow_operandBits (operand_lt i)
  apply BitVec.eq_of_toNat_eq
  rw [BitVec.extractLsb'_toNat, Nat.shiftRight_zero, encode_toNat, BitVec.toNat_ofNat]
  omega

/-- A line with an operand: the format has one, and it fits. -/
theorem asmWords_command_some (m : Mnemonic) (v : Nat) :
    Machine.asmWords (.command m (some v)) =
      if m.format ≠ .z ∧ v < 2 ^ m.format.operandBits then some [encode (m.instr v)] else none := by
  by_cases hf : m.format = .z
  · simp [Machine.asmWords, AsmLine.wellFormed, operandBound_eq, hf]
  · by_cases hv : v < 2 ^ m.format.operandBits
    · rw [← ofNat_opcode_or_eq_encode hv]
      simp [Machine.asmWords, AsmLine.wellFormed, operandBound_eq, hf, hv]
    · simp [Machine.asmWords, AsmLine.wellFormed, operandBound_eq, hf, hv]

/-- A line without an operand: the format has none. -/
theorem asmWords_command_none (m : Mnemonic) :
    Machine.asmWords (.command m none) = if m.format = .z then some [encode (m.instr 0)] else none := by
  by_cases hf : m.format = .z
  · rw [← ofNat_opcode_or_eq_encode (Nat.two_pow_pos _)]
    simp [Machine.asmWords, AsmLine.wellFormed, operandBound_eq, hf]
  · simp [Machine.asmWords, AsmLine.wellFormed, operandBound_eq, hf]

/-- A line whose operand fits assembles to a word that decodes to its mnemonic and has that operand. -/
theorem asmWords_of_fits {m : Mnemonic} {v : Nat} (hf : m.format ≠ .z) (hv : v < 2 ^ m.format.operandBits) :
    ∃ w i, Machine.asmWords (.command m (some v)) = some [w] ∧ decode w = .ok i ∧ i.mnemonic = m ∧
      w.extractLsb' 0 12 = BitVec.ofNat 12 v :=
  ⟨encode (m.instr v), m.instr v, by rw [asmWords_command_some, if_pos ⟨hf, hv⟩], decode_encode _,
    mnemonic_instr m v, by rw [encode_extract_operand, operand_instr hv]⟩

theorem asmWords_of_not_fits {m : Mnemonic} {v : Nat} (hv : 2 ^ m.format.operandBits ≤ v) :
    Machine.asmWords (.command m (some v)) = none := by
  rw [asmWords_command_some, if_neg (fun h => hv.not_gt h.2)]

/-- Settles O60: by the format of the mnemonic, and for the pseudo-instructions by what each expands to. -/
theorem linesAssembleToTheirWords : Obligations.LinesAssembleToTheirWords := by
  unfold Obligations.LinesAssembleToTheirWords
  refine ⟨fun m v => ⟨fun hf hv => ?_, fun hf hv => ?_, fun hf => ?_, fun hf hv => ?_, fun hf hv => ?_,
    fun hf => ?_, fun hf => ?_⟩, fun text => ⟨rfl, rfl, rfl⟩, rfl, rfl⟩
  · exact asmWords_of_fits (by simp [hf]) (by rw [hf]; exact Nat.lt_succ_of_le hv)
  · exact asmWords_of_fits (by simp [hf]) (by rw [hf]; exact Nat.lt_succ_of_le hv)
  · exact ⟨_, m.instr 0, by rw [asmWords_command_none, if_pos hf], decode_encode _, mnemonic_instr m 0⟩
  · exact asmWords_of_not_fits (by rw [hf]; exact hv)
  · exact asmWords_of_not_fits (by rw [hf]; exact hv)
  · rw [asmWords_command_some, if_neg (fun h => h.1 hf)]
  · rw [asmWords_command_none, if_neg hf]

end Sys2Proof
end

section
/-! PROOFS. What every command word is answered with (30_encoding.md R59 to R61). -/

namespace Sys2Proof.Machine

/-! ## Reserved bits (30_encoding.md R59 step 2) -/

/-- The opcodes of the mnemonics of one format. -/
def opcodesOfFormat (f : Format) : List (BitVec 4) :=
  (allMnemonics.filter (fun m => m.format = f)).map (fun m => BitVec.ofNat 4 (opcodeOf m))

/-- A word of an opcode of one format whose other bits do not fit the operand's field has a reserved bit set. -/
theorem decode_of_reserved {w : CmdWord} {f : Format} (hop : opField w ∈ opcodesOfFormat f)
    (hwide : ¬ w.toNat % 4096 < 2 ^ f.operandBits) : decode w = .error .reservedBits := by
  obtain ⟨m, hm, hmop⟩ := List.mem_map.1 hop
  obtain rfl : m.format = f := by simpa using (List.mem_filter.1 hm).2
  have h : w.toNat / 4096 = opcodeOf m := by
    rw [← opField_toNat, ← hmop, BitVec.toNat_ofNat, Nat.mod_eq_of_lt (opcodeOf_lt m)]
  rw [decode_of_opcode h, if_neg hwide]

/-- Settles O6: in each format the word is refused while it is decoded, before PHASE is looked at. -/
theorem reservedBitsRaise : Obligations.ReservedBitsRaise := by
  unfold Obligations.ReservedBitsRaise
  intro s w h
  have hd : decode w = .error .reservedBits := by
    rcases h with ⟨hop, hbits⟩ | ⟨hop, hbits⟩ | ⟨hop, hbits⟩
    · exact decode_of_reserved (f := .z) hop (hbits ∘ (reservedZ_iff w).2)
    · exact decode_of_reserved (f := .b) hop (hbits ∘ (reservedB_iff w).2)
    · exact decode_of_reserved (f := .n) hop (hbits ∘ (reservedN_iff w).2)
  exact ⟨_, step_present_error hd, raised_raise s .illegalCommand w⟩

/-! ## One response per word (30_encoding.md R61) -/

/-- A word that is answered completes, or is answered as raise says with the word itself recorded. -/
theorem step_present_next {s t : State} {w : CmdWord} (h : step (s.present w) = .next t) :
    (∃ e d out, t = s.complete e d out) ∨ ∃ k, t = s.raise k w := by
  cases hd : decode w with
  | error x =>
    rw [step_present_error hd] at h
    exact .inr ⟨.illegalCommand, by simpa using h.symm⟩
  | ok i =>
    rw [step_present_ok hd] at h
    rcases exec_next h with ⟨-, ht⟩ | ⟨-, k, -, ht⟩ | ⟨-, e, d, out, -, ht⟩
    · exact .inr ⟨_, encode_of_decode hd ▸ ht⟩
    · exact .inr ⟨k, encode_of_decode hd ▸ ht⟩
    · exact .inl ⟨e, d, out, ht⟩

/-- In a sound state every command has a next state. -/
theorem inv_exec_next {s : State} (h : s.engine.Inv) (i : Instr) : ∃ t, exec i s = .next t := by
  by_contra hnone
  obtain ⟨-, f, -, hfault⟩ := exec_not_next (not_exists.1 hnone)
  exact inv_exec_ne_fault i s f h hfault

/-- Settles O46: a raise leaves every element but PHASE, ERR and ERRCMD as it was; a sound state never stops. -/
theorem everyWordHasOneResponse : Obligations.EveryWordHasOneResponse := by
  unfold Obligations.EveryWordHasOneResponse
  refine ⟨fun s t w h => ?_, fun s w h => ?_⟩
  · rcases step_present_next h with ⟨e, d, out, rfl⟩ | ⟨k, rfl⟩
    · exact .inl ⟨d, out, completed_complete s e d out⟩
    · exact .inr ⟨k, raised_raise s k w, k.code_ne_zero, raise_freq _ k w, raise_total _ k w, raise_queue _ k w,
        raise_node _ k w, raise_next _ k w, raise_code _ k w, raise_buf _ k w⟩
  · cases hd : decode w with
    | error x => exact ⟨_, step_present_error hd⟩
    | ok i => rw [step_present_ok hd]; exact inv_exec_next h i

end Sys2Proof.Machine
end

section
/-! PROOFS. The frequency accumulator (40_frequency_accum.md): what ACC and RDFREQ answer (R70 to R72), and what a
run of ACC commands counts (R74). -/

namespace Sys2Proof.Machine

theorem encode_acc (d : Symbol) : encode (.acc d) = 0x2000#16 ||| d.setWidth 16 := rfl

theorem encode_rdfreq (d : Symbol) : encode (.rdfreq d) = 0xB000#16 ||| d.setWidth 16 := rfl

/-! ## One ACC (R70, R72) -/

theorem total_eq_freqMax_iff (e : Engine) : e.total = Config.freqMax ↔ e.total.toNat = 2 ^ 32 - 1 :=
  BitVec.toNat_inj.symm

theorem checks_acc_accum (d : Symbol) : checks (.acc d) .accum = none :=
  (checks_eq_none_iff _ _).mpr ⟨rfl, rfl⟩

/-- Below TOTAL's largest value ACC counts the byte and answers its new count. -/
theorem exec_acc_of_room (d : Symbol) {s : State} (hphase : s.engine.phase = .accum)
    (room : s.engine.total ≠ Config.freqMax) :
    exec (.acc d) s = .next (s.complete (s.engine.countSymbol d) ((s.engine.countSymbol d).freqOf d) []) := by
  rw [exec_eq_perform]
  exact perform_ok (hphase ▸ checks_acc_accum d) (if_neg room)

/-- At TOTAL's largest value ACC raises CounterOverflow. -/
theorem exec_acc_of_full (d : Symbol) {s : State} (hphase : s.engine.phase = .accum)
    (full : s.engine.total = Config.freqMax) :
    exec (.acc d) s = .next (s.raise .counterOverflow (encode (.acc d))) := by
  rw [exec_eq_perform]
  exact perform_raise (hphase ▸ checks_acc_accum d) (if_pos full)

theorem countSymbol_freqOf_same (e : Engine) (d : Symbol) : (e.countSymbol d).freqOf d = e.freqOf d + 1#32 := by
  rw [countSymbol_freqOf, if_pos rfl]

theorem countSymbol_freqOf_other (e : Engine) {d x : Symbol} (h : x ≠ d) :
    (e.countSymbol d).freqOf x = e.freqOf x := by
  rw [countSymbol_freqOf, if_neg h.symm]

/-- A count below the largest value rises by one as a number. -/
theorem toNat_add_one_of_lt {v : Freq} (h : v.toNat < 2 ^ 32 - 1) : (v + 1#32).toNat = v.toNat + 1 :=
  BitVec.toNat_add_of_lt (by simp only [BitVec.toNat_ofNat]; omega)

/-- Settles O12: ACC in ACCUM with room completes with `countSymbol`, which writes one counter and TOTAL. -/
theorem accCountsOneByte : Obligations.AccCountsOneByte := by
  unfold Obligations.AccCountsOneByte
  refine ⟨encode_acc, fun d s hphase room => ⟨_, exec_acc_of_room d hphase room, ?_,
    countSymbol_freqOf_same _ d, fun x hx => countSymbol_freqOf_other _ hx, rfl, rfl⟩⟩
  rw [← countSymbol_freqOf_same]
  exact completed_complete _ _ _ _

/-- Settles O13: no counter is larger than TOTAL, so the one test on TOTAL keeps both additions exact. -/
theorem countersAreExact : Obligations.CountersAreExact := by
  unfold Obligations.CountersAreExact
  intro d s hphase hsum
  refine ⟨fun full => ?_, fun room => ?_⟩
  · exact ⟨_, exec_acc_of_full d hphase ((total_eq_freqMax_iff _).mpr full), raised_raise s _ _, rfl,
      raise_freq _ _ _, raise_total _ _ _, raise_phase _ _ _⟩
  · have hle : (s.engine.freqOf d).toNat ≤ s.engine.total.toNat := freqOf_le_total hsum d
    have hlt : s.engine.total.toNat < 2 ^ 32 - 1 := by
      have := s.engine.total.isLt
      omega
    refine ⟨hle, Nat.le_pred_of_lt hlt, _, exec_acc_of_room d hphase (mt (total_eq_freqMax_iff _).mp room),
      completed_complete _ _ _ _, ?_, toNat_add_one_of_lt hlt⟩
    rw [complete_engine, countSymbol_freqOf_same, toNat_add_one_of_lt (hle.trans_lt hlt)]

/-! ## RDFREQ (R71) -/

/-- RDFREQ answers the counter in every state and leaves the engine alone. -/
theorem exec_rdfreq (d : Symbol) (s : State) :
    exec (.rdfreq d) s = .next (s.complete s.engine (s.engine.freqOf d) []) := by
  rw [exec_eq_perform]
  exact perform_ok ((checks_eq_none_iff _ _).mpr ⟨rfl, rfl⟩) rfl

/-- Settles O14: RDFREQ answers the counter it reads, and after CLR every counter is that of the reset engine, 0. -/
theorem rdfreqReadsCounter : Obligations.RdfreqReadsCounter := by
  unfold Obligations.RdfreqReadsCounter
  refine ⟨encode_rdfreq, fun d s => ⟨_, exec_rdfreq d s, completed_complete _ _ _ _, rfl⟩, fun d s t hclr => ?_⟩
  rw [exec_clr] at hclr
  cases hclr
  refine ⟨_, exec_rdfreq d _, ?_⟩
  rw [complete_engine, reset_freqOf]
  exact completed_complete _ _ _ _

/-! ## A list of bytes counted (R70, R74) -/

/-- The engine after the bytes are counted one by one. -/
def Engine.countAll (e : Engine) (bytes : List Byte) : Engine := bytes.foldl Engine.countSymbol e

@[simp] theorem countAll_nil (e : Engine) : e.countAll [] = e := rfl

@[simp] theorem countAll_cons (e : Engine) (b : Byte) (bytes : List Byte) :
    e.countAll (b :: bytes) = (e.countSymbol b).countAll bytes := rfl

/-- Counting writes FREQ and TOTAL only. -/
theorem countAll_frame (e : Engine) (bytes : List Byte) :
    e.countAll bytes = { e with freq := (e.countAll bytes).freq, total := (e.countAll bytes).total } := by
  induction bytes generalizing e with
  | nil => rfl
  | cons b bytes ih => exact ih (e.countSymbol b)

@[simp] theorem countAll_phase (e : Engine) (bytes : List Byte) : (e.countAll bytes).phase = e.phase := by
  rw [countAll_frame]

theorem countAll_freqOf (e : Engine) (bytes : List Byte) (x : Symbol) :
    (e.countAll bytes).freqOf x = e.freqOf x + BitVec.ofNat 32 (bytes.count x) := by
  induction bytes generalizing e with
  | nil => simp
  | cons b bytes ih =>
    rw [countAll_cons, ih, countSymbol_freqOf, List.count_cons]
    by_cases h : b = x
    · subst h
      simp only [if_true, beq_self_eq_true, BitVec.ofNat_add]
      ac_rfl
    · simp [h]

/-- While the sum of the counters has room for the bytes, no counter wraps. -/
theorem countAll_freqOf_toNat {e : Engine} {bytes : List Byte} (h : e.TotalIsSum)
    (room : e.total.toNat + bytes.length ≤ 2 ^ 32 - 1) (x : Symbol) :
    ((e.countAll bytes).freqOf x).toNat = (e.freqOf x).toNat + bytes.count x := by
  have hle : (e.freqOf x).toNat ≤ e.total.toNat := freqOf_le_total h x
  have hcount : bytes.count x ≤ bytes.length := List.count_le_length
  rw [countAll_freqOf, BitVec.toNat_add, BitVec.toNat_ofNat]
  omega

/-- Two bytes are counted in either order. -/
theorem countSymbol_comm (e : Engine) (a b : Symbol) :
    (e.countSymbol a).countSymbol b = (e.countSymbol b).countSymbol a := by
  by_cases h : a = b
  · rw [h]
  · have hne : a.toNat ≠ b.toNat := mt BitVec.toNat_inj.mp h
    simpa [Engine.countSymbol, Engine.setFreq, Engine.freqOf, hne, hne.symm] using
      Vector.set_comm (e.freqOf a + 1#32) (e.freqOf b + 1#32) hne

/-- Counting does not see the order. -/
theorem countAll_perm (e : Engine) {bytes bytes' : List Byte} (h : bytes.Perm bytes') :
    e.countAll bytes = e.countAll bytes' :=
  h.foldl_eq' (fun a _ b _ e => countSymbol_comm e a b) e

/-! ## The run of the ACC commands -/

/-- A run whose first word is a command's goes on from where the command ends. -/
theorem run_present {i : Instr} {s t : State} (h : exec i s = .next t) (k : Nat) :
    Host.Core.run core (k + 1) (s.present (encode i)) = Host.Core.run core k t := by
  have hstep : core.step (s.present (encode i)) = .next t := (step_present_ok (decode_encode i)).trans h
  simp only [Host.Core.run, hstep]

/-- One ACC per byte, with room for all, counts the bytes and answers status 0 throughout; then the run goes on with
the words behind them. -/
theorem run_acc (words : List CmdWord) (k : Nat) (bytes : List Byte) (s : State) (hphase : s.engine.phase = .accum)
    (room : s.engine.total.toNat + bytes.length ≤ 2 ^ 32 - 1) :
    ∃ evs, (∀ r, .rsp r ∈ evs → r.status = 0#4) ∧
      Host.Core.run core (bytes.length + k)
          { s with cmdStream := bytes.map (fun b => encode (.acc b)) ++ words } =
        Host.Core.run core k ⟨s.engine.countAll bytes, words, s.sent ++ evs⟩ := by
  induction bytes generalizing s with
  | nil => exact ⟨[], by simp, by simp⟩
  | cons b bytes ih =>
    have hlt : s.engine.total.toNat + bytes.length < 2 ^ 32 - 1 := room
    have htotal : (s.engine.countSymbol b).total.toNat = s.engine.total.toNat + 1 := toNat_add_one_of_lt (by omega)
    obtain ⟨evs, hevs, hrun⟩ := ih ⟨s.engine.countSymbol b, [], s.sent ++ [.rsp ⟨0#4, (s.engine.countSymbol b).freqOf b⟩]⟩
      hphase (by simp only; omega)
    refine ⟨.rsp ⟨0#4, (s.engine.countSymbol b).freqOf b⟩ :: evs, by simpa using hevs, ?_⟩
    have hacc := exec_acc_of_room b (s := { s with cmdStream := bytes.map (fun b => encode (.acc b)) ++ words })
      hphase (mt (total_eq_freqMax_iff _).mp (by simp only; omega))
    rw [List.length_cons, Nat.add_right_comm, countAll_cons, List.append_cons]
    exact (run_present hacc _).trans hrun

/-- Settles O15: the run ends in `countAll` of its bytes, which sees only how often each byte stands in the list. -/
theorem countingIsOrderFree : Obligations.CountingIsOrderFree := by
  unfold Obligations.CountingIsOrderFree
  intro s bytes bytes' hperm hphase hsum room
  have hrun : ∀ l : List Byte, s.engine.total.toNat + l.length ≤ 2 ^ 32 - 1 → ∃ t : State,
      Host.Core.run core l.length { s with cmdStream := l.map (fun b => encode (.acc b)) } = .next t ∧
      t.engine = s.engine.countAll l := by
    intro l hl
    obtain ⟨evs, -, h⟩ := run_acc [] 0 l s hphase hl
    rw [List.append_nil] at h
    exact ⟨_, h, rfl⟩
  obtain ⟨t, ht, hte⟩ := hrun bytes room
  obtain ⟨t', ht', hte'⟩ := hrun bytes' (hperm.length_eq ▸ room)
  refine ⟨t, t', ht, ht', by rw [hte, hte', countAll_perm _ hperm], by rw [hte, countAll_phase, hphase], fun x => ?_⟩
  rw [hte, countAll_freqOf_toNat hsum room]

end Sys2Proof.Machine
end

section
/-! PROOFS. The priority queue (41_priority_queue.md): where insert puts a node and what extract_min takes (R75 to
R77), what peek_size and RDQ answer (R78, R80), the queue LOAD makes (R79), and the closed form of the order (R82). -/

namespace Sys2Proof.Machine

/-! ## insert and extract_min (R75 to R77) -/

/-- insert keeps a queue sorted by frequency: the new node stands between the smaller entries and the others. -/
theorem insert_pairwise_le {e : Engine} (n : NodeId)
    (h : e.queue.Pairwise (fun a b => e.nodeFreq a ≤ e.nodeFreq b)) :
    (e.insert n).queue.Pairwise (fun a b => e.nodeFreq a ≤ e.nodeFreq b) := by
  obtain ⟨front, back, hq, hins, hfront, hback⟩ := insert_splits n h
  rw [hq] at h
  obtain ⟨hpf, hpb, hcross⟩ := List.pairwise_append.mp h
  rw [hins, List.pairwise_append, List.pairwise_cons]
  refine ⟨hpf, ⟨hback, hpb⟩, fun m hm m' hm' => ?_⟩
  obtain rfl | hm' := List.mem_cons.mp hm'
  · exact BitVec.le_of_lt (hfront m hm)
  · exact hcross m hm m' hm'

/-- Settles O16: the position is `insertPos`, which splits a sorted queue into the smaller entries and the others. -/
theorem insertKeepsOrderNewestFirst : Obligations.InsertKeepsOrderNewestFirst := by
  unfold Obligations.InsertKeepsOrderNewestFirst
  intro e n h
  obtain ⟨hbefore, hafter⟩ := take_countP_lt e.nodeFreq (e.nodeFreq n) h
  exact ⟨_, rfl, List.countP_le_length, hbefore, hafter, rfl, insert_pairwise_le n h⟩

/-- Settles O17: the first entry of a sorted queue is no larger than any after it. -/
theorem extractMinTakesFirst : Obligations.ExtractMinTakesFirst := by
  unfold Obligations.ExtractMinTakesFirst
  refine ⟨fun e => extractMin_nil, fun e n rest hq => ⟨extractMin_cons hq, fun hsorted => ?_⟩⟩
  rw [hq, List.pairwise_cons] at hsorted
  exact hsorted.1

/-! ## peek_size (R78) -/

/-- RDREG 3 answers QSIZE in every state and leaves the engine alone (46_system.md R121). -/
theorem exec_rdreg_qsize (s : State) :
    exec (.rdreg 3#8) s = .next (s.complete s.engine (BitVec.ofNat 32 s.engine.qsize) []) := by
  rw [exec_eq_perform]
  exact perform_ok ((checks_eq_none_iff _ _).mpr ⟨rfl, rfl⟩) rfl

theorem loadEffect_answers_qsize {e e' : Engine} {d : Data} {out : List Byte} (h : loadEffect e = .ok e' d out) :
    d = BitVec.ofNat 32 e'.qsize := by
  unfold loadEffect at h
  split at h
  · cases h
  · cases h; rfl

theorem mergeEffect_answers_qsize {e e' : Engine} {d : Data} {out : List Byte} (h : mergeEffect e = .ok e' d out) :
    d = BitVec.ofNat 32 e'.qsize := by
  unfold mergeEffect at h
  split at h
  · cases h
  split at h
  · cases h
  split at h
  · cases h
  split at h
  next => cases h; rfl
  next => cases h

theorem buildEffect_answers_qsize {e e' : Engine} {d : Data} {out : List Byte} (h : buildEffect e = .ok e' d out) :
    d = BitVec.ofNat 32 e'.qsize := by
  unfold buildEffect at h
  split at h
  · cases h
  split at h
  · cases h
  split at h
  next => cases h; rfl
  next => cases h

/-- Settles O19: a command that completed was ended by its own rule, and those of LOAD, MERGE and BUILD answer
QSIZE. -/
theorem peekSizeIsAnswered : Obligations.PeekSizeIsAnswered := by
  unfold Obligations.PeekSizeIsAnswered
  refine ⟨fun s => ⟨_, exec_rdreg_qsize s, completed_complete _ _ _ _, rfl⟩, fun i s t d out hi hexec hc => ?_⟩
  have ho := ownEffect_of_completed hexec hc
  obtain rfl | rfl | rfl : i = .load ∨ i = .merge ∨ i = .build := by simpa using hi
  · exact ⟨loadEffect_answers_qsize ho, output_nil (by simp [Emits]) ho⟩
  · exact ⟨mergeEffect_answers_qsize ho, output_nil (by simp [Emits]) ho⟩
  · exact ⟨buildEffect_answers_qsize ho, output_nil (by simp [Emits]) ho⟩

/-! ## RDQ (R80) -/

theorem encode_rdq (d : BitVec 8) : encode (.rdq d) = 0xC000#16 ||| d.setWidth 16 := rfl

/-- RDQ answers its word in every state and leaves the engine alone. -/
theorem exec_rdq (d : BitVec 8) (s : State) :
    exec (.rdq d) s = .next (s.complete s.engine (s.engine.queueWord d) []) := by
  rw [exec_eq_perform]
  exact perform_ok ((checks_eq_none_iff _ _).mpr ⟨rfl, rfl⟩) rfl

theorem queueWord_of_lt (e : Engine) {d : BitVec 8} (h : d.toNat < e.queue.length) :
    e.queueWord d = 0x80000000#32 ||| e.queue[d.toNat].setWidth 32 := by
  simp [Engine.queueWord, h]

theorem queueWord_of_le (e : Engine) {d : BitVec 8} (h : e.queue.length ≤ d.toNat) : e.queueWord d = 0#32 := by
  simp [Engine.queueWord, h]

/-- The fields of RDQ's word for a position in use: the mark in bit 31, the id in bits 8:0, zeros between. -/
theorem markedId_fields (n : NodeId) :
    (0x80000000#32 ||| n.setWidth 32).extractLsb' 31 1 = 1#1 ∧
    (0x80000000#32 ||| n.setWidth 32).extractLsb' 9 22 = 0#22 ∧
    (0x80000000#32 ||| n.setWidth 32).extractLsb' 0 9 = n := by
  have hhigh (start len : Nat) (h : 9 ≤ start) : (n.setWidth 32).extractLsb' start len = 0#len := by
    ext i hi
    simp [BitVec.getLsbD_of_ge n (start + i) (by omega)]
  have hlow : (n.setWidth 32).extractLsb' 0 9 = n := by
    rw [BitVec.extractLsb'_setWidth_of_le (by decide), BitVec.extractLsb'_eq_self]
  simp only [BitVec.extractLsb'_or, hlow, hhigh 31 1 (by decide), hhigh 9 22 (by decide)]
  exact ⟨rfl, rfl, BitVec.zero_or⟩

/-- Settles O20: RDQ answers `queueWord` in every state. -/
theorem rdqReadsPosition : Obligations.RdqReadsPosition := by
  unfold Obligations.RdqReadsPosition
  refine ⟨encode_rdq, fun d s => ⟨_, _, exec_rdq d s, completed_complete _ _ _ _, rfl, fun h => ?_,
    queueWord_of_le s.engine⟩⟩
  rw [queueWord_of_lt s.engine h]
  exact markedId_fields _

/-! ## LOAD (R79) -/

/-- LOAD's loop as one write: Q and NODE change and nothing else. -/
theorem loadLeaves_eq (e : Engine) :
    e.loadLeaves = { e with queue := e.loadLeaves.queue, node := e.loadLeaves.node } := by
  obtain ⟨hfreq, htotal, hnext, hcode, hbuf, hphase, herr, hcmd⟩ := loadLeaves_frame e
  rw [← hfreq, ← htotal, ← hnext, ← hcode, ← hbuf, ← hphase, ← herr, ← hcmd]

/-- From an empty queue LOAD's loop makes one entry per symbol that occurs. -/
theorem loadLeaves_qsize {e : Engine} (h : e.NotLoaded) : e.loadLeaves.qsize = e.distinct := by
  rw [Engine.qsize, (loadLeaves_queue_perm h).length_eq, List.length_map, occurring_length]

/-- LOAD makes the leaf of every symbol that occurs, and no other leaf is valid. -/
theorem loadLeaves_leaf {e : Engine} (h : e.NotLoaded) (x : Symbol) :
    e.loadLeaves.nodeAt (leafId x) = if 0#32 < e.freqOf x then some (leafNode (e.freqOf x)) else none := by
  simp [loadLeaves_nodeAt h]

/-- No internal node is valid after LOAD. -/
theorem loadLeaves_internal {e : Engine} (h : e.NotLoaded) {n : NodeId} (hn : 256#9 ≤ n) :
    e.loadLeaves.nodeAt n = none := by
  obtain ⟨-, -, hnext, -⟩ := loadLeaves_frame e
  obtain ⟨-, hfree⟩ := loadLeaves_internalsMatch h
  exact hfree n (by rwa [hnext, h.next_eq])

/-- Before LOAD the queue is empty, so the leaves fit: LOAD completes with the engine its loop makes, in QUEUED. -/
theorem exec_load {s : State} (h : s.engine.NotLoaded) (hphase : s.engine.phase = .accum) :
    exec .load s = .next (s.complete { s.engine.loadLeaves with phase := .queued }
      (BitVec.ofNat 32 s.engine.distinct) []) := by
  have hchecks : checks .load s.engine.phase = none := (checks_eq_none_iff _ _).mpr ⟨by rw [hphase]; rfl, rfl⟩
  have hroom : ¬ Config.queueCap < s.engine.qsize + s.engine.occurring.length := by
    rw [Nat.not_lt, occurring_length, Engine.qsize, h.queue_eq, List.length_nil, Nat.zero_add]
    exact distinct_le s.engine
  rw [exec_eq_perform, ← loadLeaves_qsize h]
  exact perform_ok hchecks (if_neg hroom)

/-- Settles O18: LOAD leaves the engine `loadLeaves` makes of an engine not yet loaded. -/
theorem loadFillsQueue : Obligations.LoadFillsQueue := by
  unfold Obligations.LoadFillsQueue
  refine ⟨rfl, fun s hinv hphase => ?_⟩
  have hload : s.engine.NotLoaded := inv_stage hinv hphase (by decide)
  obtain ⟨htotal, -, -⟩ := hinv
  obtain ⟨hsorted, -, -⟩ := loadLeaves_queueSorted hload htotal
  exact ⟨_, exec_load hload hphase, completed_complete _ _ _ _, rfl, loadLeaves_qsize hload,
    fun n => mem_loadLeaves_queue hload, hsorted, loadLeaves_leaf hload, fun n => loadLeaves_internal hload,
    congrArg (fun e : Engine => { e with phase := .queued }) (loadLeaves_eq s.engine)⟩

/-! ## The closed form of the order (R82) -/

/-- A sound engine is as LOAD finds it or has a tree, in FAULT too. -/
theorem inv_notLoaded_or_treeInv {e : Engine} (h : e.Inv) : e.NotLoaded ∨ e.TreeInv := by
  have hstage {p : Phase} (hp : e.StageInv p) : e.NotLoaded ∨ e.TreeInv := by
    cases p with
    | accum => exact .inl hp
    | queued | coded => exact .inr hp.1
    | fault => exact hp.elim
  obtain ⟨-, -, hp | ⟨-, hp | hp | hp⟩⟩ := h <;> exact hstage hp

/-- In every sound state the queue has the order of R82: before LOAD it is empty. -/
theorem inv_queue_sorted {e : Engine} (h : e.Inv) : e.queue.Pairwise e.before := by
  obtain hload | htree := inv_notLoaded_or_treeInv h
  · rw [hload.queue_eq]
    exact .nil
  · exact htree.queueSorted.1

/-- The order of R82 is strict. -/
theorem before_asymm {e : Engine} {m n : NodeId} (h : e.before m n) : ¬ e.before n m := by
  simp only [Engine.before, BitVec.lt_def, ← BitVec.toNat_inj] at h ⊢
  omega

/-- Two lists in the order of R82 with the same members are the same list. -/
theorem eq_of_pairwise_before {e : Engine} {l l' : List NodeId} (h : l.Pairwise e.before)
    (h' : l'.Pairwise e.before) (hmem : ∀ n, n ∈ l ↔ n ∈ l') : l = l' :=
  have : Std.Asymm e.before := ⟨fun _ _ => before_asymm⟩
  List.Pairwise.eq_of_mem_iff h h' hmem

/-- Settles O21: the order is that of item 8, and it reads the node memory only. -/
theorem queueOrderHasClosedForm : Obligations.QueueOrderHasClosedForm := by
  unfold Obligations.QueueOrderHasClosedForm
  refine ⟨fun e => inv_queue_sorted, fun e e' he he' hnode hmem => ?_⟩
  have hsorted' : e'.queue.Pairwise e.before :=
    pairwise_before_congr (fun n _ => nodeFreq_congr hnode n) (inv_queue_sorted he')
  exact eq_of_pairwise_before (inv_queue_sorted he) hsorted' hmem

end Sys2Proof.Machine
end

section
/-! PROOFS. The tree builder (42_tree_builder.md): one merge (R85, R86), the loop (R87), the finished tree (R90, R91),
and the reads of the node memory (R88, R89). -/

namespace Sys2Proof.Machine

/-! ## One MERGE (R85, R86) -/

/-- The order of R82 is one of ascending frequency. -/
theorem nodeFreq_le_of_before {e : Engine} {m n : NodeId} (h : e.before m n) : e.nodeFreq m ≤ e.nodeFreq n := by
  obtain hlt | ⟨heq, -⟩ := h
  · exact BitVec.le_of_lt hlt
  · exact BitVec.le_of_eq heq

/-- Engines that agree on the elements a merge leaves alone differ in Q, NODE and NEXT only. -/
theorem eq_of_merge_frame {e e' : Engine} (h : e'.freq = e.freq ∧ e'.total = e.total ∧ e'.code = e.code ∧
    e'.buf = e.buf ∧ e'.phase = e.phase ∧ e'.err = e.err ∧ e'.errCmd = e.errCmd) :
    e' = { e with queue := e'.queue, node := e'.node, next := e'.next } := by
  obtain ⟨hfreq, htotal, hcode, hbuf, hphase, herr, hcmd⟩ := h
  rw [← hfreq, ← htotal, ← hcode, ← hbuf, ← hphase, ← herr, ← hcmd]

theorem checks_merge_queued : checks .merge .queued = none := (checks_eq_none_iff _ _).mpr ⟨rfl, rfl⟩

/-- MERGE on an empty queue raises before it extracts anything. -/
theorem exec_merge_nil {s : State} (hphase : s.engine.phase = .queued) (hq : s.engine.queue = []) :
    exec .merge s = .next (s.raise .emptyAlphabet (encode .merge)) := by
  rw [exec_eq_perform]
  exact perform_raise (hphase ▸ checks_merge_queued) (by simp [ownEffect, mergeEffect, Engine.qsize, hq])

/-- MERGE on one node raises before it extracts anything. -/
theorem exec_merge_singleton {s : State} {root : NodeId} (hphase : s.engine.phase = .queued)
    (hq : s.engine.queue = [root]) : exec .merge s = .next (s.raise .emptyStructure (encode .merge)) := by
  rw [exec_eq_perform]
  exact perform_raise (hphase ▸ checks_merge_queued) (by simp [ownEffect, mergeEffect, Engine.qsize, hq])

theorem joined_qsize (e : Engine) (a b : NodeId) (rest : List NodeId) :
    (e.joined a b rest).qsize = rest.length + 1 :=
  joinNodes_qsize _ a b

theorem mergeEffect_cons_cons {e : Engine} {a b : NodeId} {rest : List NodeId} (hq : e.queue = a :: b :: rest)
    (hroom : e.next ≠ 511#9) :
    mergeEffect e = .ok (e.joined a b rest) (BitVec.ofNat 32 (rest.length + 1)) [] := by
  have hroom' : ¬ e.next = Config.noNode := hroom
  have hsize : e.qsize = rest.length + 2 := congrArg List.length hq
  have hm : e.mergeStep = .ok (e.joined a b rest) := mergeStep_cons_cons hq
  rw [mergeEffect, if_neg (by omega), if_neg (by omega), if_neg hroom', hm, ← joined_qsize e a b]

/-- MERGE on two nodes or more, with an entry for the new node, completes with the two first nodes joined. -/
theorem exec_merge_cons_cons {s : State} {a b : NodeId} {rest : List NodeId} (hphase : s.engine.phase = .queued)
    (hq : s.engine.queue = a :: b :: rest) (hroom : s.engine.next ≠ 511#9) :
    exec .merge s = .next (s.complete (s.engine.joined a b rest) (BitVec.ofNat 32 (rest.length + 1)) []) := by
  rw [exec_eq_perform]
  exact perform_ok (hphase ▸ checks_merge_queued) (mergeEffect_cons_cons hq hroom)

/-- The new node stands in the rest of the queue after the smaller nodes and before its equals (R75). -/
theorem joined_queue_splits {e : Engine} {a b : NodeId} {rest : List NodeId} (h : e.TreeInv)
    (hq : e.queue = a :: b :: rest) :
    ∃ before after, rest = before ++ after ∧ (e.joined a b rest).queue = before ++ e.next :: after ∧
      (∀ m ∈ before, e.nodeFreq m < e.nodeFreq a + e.nodeFreq b) ∧
      ∀ m ∈ after, e.nodeFreq a + e.nodeFreq b ≤ e.nodeFreq m := by
  obtain ⟨c, hjoin, hcq⟩ := joinNodes_eq_insert { e with queue := rest } a b
  have hins : e.joined a b rest = c.insert e.next := hjoin
  have hrest : c.queue = rest := hcq
  have hsame : ∀ n, c.nodeFreq n = (e.joined a b rest).nodeFreq n := fun n => by rw [hins, insert_nodeFreq]
  have hnew : c.nodeFreq e.next = e.nodeFreq a + e.nodeFreq b := by
    rw [hsame, nodeFreq_of_nodeAt (joined_nodeAt_next h hq)]
  have hold : ∀ n ∈ rest, c.nodeFreq n = e.nodeFreq n := fun n hn => by
    obtain ⟨r, hr, -⟩ := nodeAt_of_mem_queue h.treeShape (n := n) (by simp [hq, hn])
    rw [hsame, joined_nodeFreq_of_valid h hq hr]
  have hsorted : rest.Pairwise e.before := by
    obtain ⟨hall, -⟩ := h.queueSorted
    rw [hq] at hall
    exact hall.of_cons.of_cons
  obtain ⟨before, after, hsplit, hqueue, hbefore, hafter⟩ := insert_splits (e := c) e.next
    (hrest ▸ (pairwise_before_congr hold hsorted).imp nodeFreq_le_of_before)
  rw [hrest] at hsplit
  rw [hnew] at hbefore hafter
  refine ⟨before, after, hsplit, hins ▸ hqueue, fun m hm => ?_, fun m hm => ?_⟩
  · rw [← hold m (by simp [hsplit, hm])]
    exact hbefore m hm
  · rw [← hold m (by simp [hsplit, hm])]
    exact hafter m hm

/-- Settles O22: MERGE leaves the engine `joined` makes, whose node memory and queue the invariant fixes. -/
theorem mergeJoinsTwoSmallest : Obligations.MergeJoinsTwoSmallest := by
  unfold Obligations.MergeJoinsTwoSmallest
  refine ⟨rfl, fun s a b rest hinv hphase hq => ?_⟩
  obtain ⟨h, -⟩ : s.engine.StageInv .queued := inv_stage hinv hphase (by decide)
  obtain ⟨-, hroom, -⟩ := next_is_free h hq
  obtain ⟨hab, -, -, ra, rb, hra, -, hrb, -⟩ := merged_pair h hq
  have hadd := (merged_freq h hq).1
  have hnew := joined_nodeAt_next h hq
  have hsplits := joined_queue_splits h hq
  rw [nodeFreq_of_nodeAt hra, nodeFreq_of_nodeAt hrb] at hadd hnew hsplits
  refine ⟨_, ra, rb, exec_merge_cons_cons hphase hq hroom, completed_complete _ _ _ _, hra, hrb, ?_, ?_, hnew, hadd,
    fun n hna hnb hn => ?_, joined_next_toNat h hq, hsplits, eq_of_merge_frame (joinNodes_frame _ a b)⟩
  · rw [complete_engine, joined_nodeAt_of_valid h hq hra]
    simp [labelled, hab]
  · rw [complete_engine, joined_nodeAt_of_valid h hq hrb]
    simp [labelled]
  · rw [complete_engine, joined_nodeAt_other h hq hn]
    cases s.engine.nodeAt n with
    | none => rfl
    | some r => rw [Option.map_some, labelled_other hna hnb]

/-! ## BUILD (R87) -/

theorem checks_build_queued : checks .build .queued = none := (checks_eq_none_iff _ _).mpr ⟨rfl, rfl⟩

/-- BUILD on an empty queue raises. -/
theorem exec_build_nil {s : State} (hphase : s.engine.phase = .queued) (hq : s.engine.queue = []) :
    exec .build s = .next (s.raise .emptyAlphabet (encode .build)) := by
  rw [exec_eq_perform]
  exact perform_raise (hphase ▸ checks_build_queued) (by simp [ownEffect, buildEffect, Engine.qsize, hq])

/-- BUILD on one node or more, with an entry for every new node, completes with what its loop leaves. -/
theorem exec_build_of_buildLoop {s : State} {e : Engine} (hphase : s.engine.phase = .queued)
    (hpos : s.engine.qsize ≠ 0)
    (hroom : ¬ (1 < s.engine.qsize ∧ Config.nNode < s.engine.next.toNat + (s.engine.qsize - 1)))
    (hloop : Engine.buildLoop (s.engine.qsize - 1) s.engine = .ok e) (hone : e.qsize = 1) :
    exec .build s = .next (s.complete e 1#32 []) := by
  have ho : buildEffect s.engine = .ok e 1#32 [] := by
    rw [buildEffect, if_neg hpos, if_neg hroom, hloop]
    simp only [hone]
  rw [exec_eq_perform]
  exact perform_ok (hphase ▸ checks_build_queued) ho

/-- BUILD on one node is done. -/
theorem exec_build_singleton {s : State} {root : NodeId} (hphase : s.engine.phase = .queued)
    (hq : s.engine.queue = [root]) : exec .build s = .next (s.complete s.engine 1#32 []) := by
  have hone : s.engine.qsize = 1 := congrArg List.length hq
  exact exec_build_of_buildLoop hphase (by omega) (by omega) (buildLoop_of_qsize_le_one hone.le _) hone

/-- On a tree with a node in Q, BUILD's loop ends with one node, and BUILD completes with what it leaves. -/
theorem exec_build_of_treeInv {s : State} (h : s.engine.TreeInv) (hphase : s.engine.phase = .queued)
    (hpos : s.engine.qsize ≠ 0) :
    ∃ e, Engine.buildLoop (s.engine.qsize - 1) s.engine = .ok e ∧ e.qsize = 1 ∧
      e.next.toNat = s.engine.next.toNat + (s.engine.qsize - 1) ∧
      exec .build s = .next (s.complete e 1#32 []) := by
  obtain ⟨e, hloop, hone, hnext⟩ := buildLoop_ends (e := s.engine) (turns := s.engine.qsize - 1) (by omega)
  have hle := next_add_qsize_le h.countsMatch
  refine ⟨e, hloop, hone, ?_, exec_build_of_buildLoop hphase hpos ?_ hloop hone⟩
  · rw [hnext, BitVec.toNat_add, BitVec.toNat_ofNat]
    omega
  · simp only [Config.nNode]
    omega

/-- Settles O23: on an empty queue and on one node neither command's rule comes to a merge. -/
theorem builderOnFewNodes : Obligations.BuilderOnFewNodes := by
  unfold Obligations.BuilderOnFewNodes
  intro s hphase
  refine ⟨fun hq => ⟨?_, ?_⟩, fun root hq => ⟨?_, ?_⟩⟩
  · exact ⟨_, exec_merge_nil hphase hq, raised_raise s _ _⟩
  · exact ⟨_, exec_build_nil hphase hq, raised_raise s _ _⟩
  · exact ⟨_, exec_merge_singleton hphase hq, raised_raise s _ _⟩
  · exact ⟨_, exec_build_singleton hphase hq, completed_complete _ _ _ _, rfl⟩

/-- Settles O25: a MERGE that completes is the first turn of BUILD's loop. -/
theorem buildIsRepeatedMerge : Obligations.BuildIsRepeatedMerge := by
  unfold Obligations.BuildIsRepeatedMerge
  intro s t hinv hmerge hphase'
  have raise_absurd (k : ErrKind) : t ≠ s.raise k (encode .merge) := by
    rintro rfl
    simp at hphase'
  obtain ⟨k, ht⟩ | ⟨hlegal, -⟩ := exec_raises_or_commits hmerge
  · exact absurd ht (raise_absurd k)
  have hphase : s.engine.phase = .queued := by simpa [legalIn] using hlegal
  obtain ⟨h, -⟩ : s.engine.StageInv .queued := inv_stage hinv hphase (by decide)
  match hq : s.engine.queue with
  | [] =>
    rw [exec_merge_nil hphase hq, Host.Outcome.next.injEq] at hmerge
    exact absurd hmerge.symm (raise_absurd _)
  | [root] =>
    rw [exec_merge_singleton hphase hq, Host.Outcome.next.injEq] at hmerge
    exact absurd hmerge.symm (raise_absurd _)
  | a :: b :: rest =>
    obtain ⟨-, hroom, -⟩ := next_is_free h hq
    rw [exec_merge_cons_cons hphase hq hroom, Host.Outcome.next.injEq] at hmerge
    have hm : s.engine.mergeStep = .ok t.engine := hmerge ▸ mergeStep_cons_cons hq
    obtain ⟨h2, hsize, -⟩ := mergeStep_counts hm
    obtain ⟨e, hloop, -, -, hbuild⟩ := exec_build_of_treeInv h hphase (by omega)
    obtain ⟨e', hloop', -, -, hbuild'⟩ := exec_build_of_treeInv (treeInv_mergeStep h hm) hphase' (by omega)
    have hturns : s.engine.qsize - 1 = t.engine.qsize - 1 + 1 := by omega
    rw [hturns, buildLoop_succ hm, hloop', Except.ok.injEq] at hloop
    exact ⟨_, _, hbuild, hbuild', hloop.symm, completed_complete _ _ _ _, completed_complete _ _ _ _⟩

/-! ## What the loop keeps of the node memory (R87) -/

/-- `e.Grows e'`: the node memory of e' is that of e with more nodes from NEXT on and more labels. -/
def Engine.Grows (e e' : Engine) : Prop :=
  e.next ≤ e'.next ∧
  (∀ n : NodeId, n < e.next → (e'.nodeAt n).map (fun r => (r.freq, r.left, r.right)) =
    (e.nodeAt n).map (fun r => (r.freq, r.left, r.right))) ∧
  ∀ (n : NodeId) (b : Bit), (e.nodeAt n).bind Node.label = some b → (e'.nodeAt n).bind Node.label = some b

theorem grows_refl (e : Engine) : e.Grows e :=
  ⟨BitVec.le_of_eq rfl, fun _ _ => rfl, fun _ _ h => h⟩

theorem grows_trans {e e' e'' : Engine} (h : e.Grows e') (h' : e'.Grows e'') : e.Grows e'' := by
  obtain ⟨hnext, hnode, hlabel⟩ := h
  obtain ⟨hnext', hnode', hlabel'⟩ := h'
  refine ⟨BitVec.le_trans hnext hnext', fun n hn => ?_, fun n b hb => hlabel' n b (hlabel n b hb)⟩
  exact (hnode' n (Nat.lt_of_lt_of_le hn hnext)).trans (hnode n hn)

/-- A merge writes the entry NEXT and two labels. -/
theorem grows_mergeStep {e e' : Engine} (h : e.TreeInv) (hm : e.mergeStep = .ok e') : e.Grows e' := by
  obtain ⟨a, b, rest, hq, hjoin⟩ := mergeStep_ok (mergeStep_counts hm).1
  obtain rfl : e.joined a b rest = e' := Except.ok.inj (hjoin.symm.trans hm)
  refine ⟨?_, fun n hn => ?_, fun n x => joined_label h hq⟩
  · rw [BitVec.le_def, joined_next_toNat h hq]
    omega
  · rw [joined_nodeAt_other h hq (BitVec.ne_of_lt hn), Option.map_map]
    simp [Function.comp_def]

theorem buildLoop_keeps_tree {turns : Nat} {e e' : Engine} (h : e.TreeInv)
    (hloop : Engine.buildLoop turns e = .ok e') : e'.TreeInv ∧ e.Grows e' := by
  refine buildLoop_induction (P := fun x => x.TreeInv ∧ e.Grows x) ?_ ⟨h, grows_refl e⟩ hloop
  rintro x x' ⟨hx, hgrows⟩ hm
  exact ⟨treeInv_mergeStep hx hm, grows_trans hgrows (grows_mergeStep hx hm)⟩

/-! ## The finished tree (R91) -/

/-- A child carries the label of the edge to it (item 6). -/
theorem label_of_child {e : Engine} (h : e.TreeInv) {n c : NodeId} {r : Node} {x : Bit}
    (hn : e.nodeAt n = some r) (hc : r.child x = some c) : (e.nodeAt c).bind Node.label = some x := by
  obtain ⟨hinternal, -, -⟩ := child_of_nodeAt h hn hc
  have hint := h.internalsMatch
  obtain ⟨r', hr', a, ha, b, hb, -, -, -, hla, hlb, -⟩ :=
    hint.1 n (mem_internalIds.mpr ⟨hinternal, lt_next_of_nodeAt hint hn⟩)
  obtain rfl : r = r' := Option.some.inj (hn.symm.trans hr')
  cases x with
  | false =>
    obtain rfl : a = c := Option.some.inj (ha.symm.trans hc)
    exact hla
  | true =>
    obtain rfl : b = c := Option.some.inj (hb.symm.trans hc)
    exact hlb

/-- The valid nodes without a label are those in Q: every other one is a child. -/
theorem unlabelled_iff_mem_queue {e : Engine} (h : e.TreeInv) (n : NodeId) :
    (e.nodeAt n).map Node.label = some none ↔ n ∈ e.queue := by
  refine ⟨fun hlabel => by_contra fun hq => ?_, h.treeShape.1 n⟩
  obtain ⟨r, hr, hnone⟩ := Option.map_eq_some_iff.mp hlabel
  obtain ⟨p, rp, x, hp, hc, -⟩ := exists_parent h (by simp [hr]) hq
  have hx := label_of_child h hp hc
  simp [hr, hnone] at hx

/-- The node made last is in Q: a parent would have a larger id. -/
theorem last_mem_queue {e : Engine} (h : e.TreeInv) {n : NodeId} (h256 : 256 ≤ n.toNat)
    (hlast : n.toNat + 1 = e.next.toNat) : n ∈ e.queue := by
  have hint := h.internalsMatch
  obtain ⟨r, hr⟩ := nodeAt_of_mem_internalIds hint (n := n)
    (mem_internalIds.mpr ⟨h256, BitVec.lt_def.mpr (by omega)⟩)
  by_contra hq
  obtain ⟨p, rp, x, hp, -, hlt⟩ := exists_parent h (by simp [hr]) hq
  have hpn := lt_next_of_nodeAt hint hp
  rw [BitVec.lt_def] at hlt hpn
  omega

/-- With two symbols or more, the root is the node made last. -/
theorem root_is_last {e : Engine} (h : e.TreeInv) {root : NodeId} (hq : e.queue = [root]) (h2 : 2 ≤ e.distinct) :
    root.toNat + 1 = e.next.toNat ∧ root.toNat = 256 + e.distinct - 2 := by
  obtain ⟨h256, hcount, -⟩ := h.countsMatch
  have hlt := e.next.isLt
  rw [Engine.qsize, hq, List.length_singleton] at hcount
  have hlast : (BitVec.ofNat 9 (e.next.toNat - 1)).toNat = e.next.toNat - 1 := by
    rw [BitVec.toNat_ofNat]
    omega
  have hmem := last_mem_queue h (n := BitVec.ofNat 9 (e.next.toNat - 1)) (by omega) (by omega)
  rw [hq, List.mem_singleton] at hmem
  rw [← hmem]
  omega

theorem root_nodeFreq {e : Engine} (h : e.TreeInv) {root : NodeId} (hq : e.queue = [root]) :
    e.nodeFreq root = e.total := by
  obtain ⟨-, hsum, -⟩ := h.queueSorted
  exact BitVec.eq_of_toNat_eq (by simpa [hq] using hsum)

/-- Settles O24: the loop keeps the invariant and only adds to the node memory; at its end the invariant says the
rest. -/
theorem buildFinishesTree : Obligations.BuildFinishesTree := by
  unfold Obligations.BuildFinishesTree
  refine ⟨rfl, fun s hinv hphase hne => ?_⟩
  obtain ⟨h, -⟩ : s.engine.StageInv .queued := inv_stage hinv hphase (by decide)
  obtain ⟨e, hloop, hone, hnext, hexec⟩ := exec_build_of_treeInv h hphase (mt List.length_eq_zero_iff.mp hne)
  obtain ⟨htree, -, hnode, hlabel⟩ := buildLoop_keeps_tree h hloop
  obtain ⟨root, hroot⟩ := List.length_eq_one_iff.mp hone
  obtain ⟨hwhole, hfree⟩ := htree.internalsMatch
  refine ⟨_, root, hexec, completed_complete _ _ _ _, hroot, hnext, hnode, hlabel, fun n hn hn' => ?_, hfree,
    fun n => ?_, ?_⟩
  · have h256 : 256 ≤ n.toNat := h.countsMatch.1.trans (BitVec.le_def.mp hn)
    exact hwhole n (mem_internalIds.mpr ⟨h256, hn'⟩)
  · rw [complete_engine, unlabelled_iff_mem_queue htree, hroot, List.mem_singleton]
  · rw [← hroot]
    exact eq_of_merge_frame (buildLoop_frame hloop)

/-- Settles O26: both phases have the items of a tree, and its one node in Q is the root. -/
theorem finishedTreeHasAllNodes : Obligations.FinishedTreeHasAllNodes := by
  unfold Obligations.FinishedTreeHasAllNodes
  intro e root hinv hphase hq
  have h : e.TreeInv := by
    obtain hp | hp := hphase
    · exact (inv_stage hinv hp (by decide)).1
    · exact (inv_stage hinv hp (by decide)).1
  have hroot := (unlabelled_iff_mem_queue h root).mpr (by simp [hq])
  obtain ⟨r, hr, -⟩ := Option.map_eq_some_iff.mp hroot
  exact ⟨root_nodeFreq h hq, hroot, root_is_last h hq, fun n => ⟨exists_follow h hq n, fun ⟨path, hpath⟩ =>
    nodeAt_of_follow h (by simp [hr]) hpath⟩⟩

/-! ## Reading the node memory (R88, R89) -/

theorem encode_rdnode (n : NodeId) : encode (.rdnode n) = 0xD000#16 ||| n.setWidth 16 := rfl

theorem encode_rdnfrq (n : NodeId) : encode (.rdnfrq n) = 0xE000#16 ||| n.setWidth 16 := rfl

/-- RDNODE answers its word in every state and leaves the engine alone. -/
theorem exec_rdnode {n : NodeId} (hn : n ≠ 511#9) (s : State) :
    exec (.rdnode n) s = .next (s.complete s.engine (s.engine.nodeWord n) []) := by
  rw [exec_eq_perform]
  exact perform_ok ((checks_eq_none_iff _ _).mpr ⟨rfl, decide_eq_true hn⟩) rfl

/-- RDNFRQ answers the frequency in every state and leaves the engine alone. -/
theorem exec_rdnfrq {n : NodeId} (hn : n ≠ 511#9) (s : State) :
    exec (.rdnfrq n) s = .next (s.complete s.engine (s.engine.nodeFreqWord n) []) := by
  rw [exec_eq_perform]
  exact perform_ok ((checks_eq_none_iff _ _).mpr ⟨rfl, decide_eq_true hn⟩) rfl

/-- A field placed at bit k is read back there. -/
theorem extract_field_same {w k : Nat} (x : BitVec w) (h : k + w ≤ 32) :
    (x.setWidth 32 <<< k).extractLsb' k w = x := by
  ext i hi
  have hlt : k + i < 32 := by omega
  simp [hlt, BitVec.getLsbD_eq_getElem hi]

/-- A field placed at bit k leaves the bits below it and those past it 0. -/
theorem extract_field_other {w k start len : Nat} (x : BitVec w) (h : start + len ≤ k ∨ k + w ≤ start) :
    (x.setWidth 32 <<< k).extractLsb' start len = 0#len := by
  ext i hi
  obtain hbelow | habove := h
  · have h1 : start + i < k := by omega
    simp [h1]
  · simp [BitVec.getLsbD_of_ge x (start + i - k) (by omega)]

/-- The fields of RDNODE's word for a valid entry. -/
theorem pack_fields (r : Node) :
    r.pack.extractLsb' 0 1 = 1#1 ∧ r.pack.extractLsb' 1 1 = BitVec.ofBool r.left.isSome ∧
    r.pack.extractLsb' 2 1 = BitVec.ofBool r.right.isSome ∧ r.pack.extractLsb' 3 1 = BitVec.ofBool r.label.isSome ∧
    r.pack.extractLsb' 4 1 = BitVec.ofBool (r.label.getD false) ∧ r.pack.extractLsb' 5 9 = r.left.getD 0#9 ∧
    r.pack.extractLsb' 14 9 = r.right.getD 0#9 ∧ r.pack.extractLsb' 23 9 = 0#9 := by
  have hvalid (start len : Nat) (h : 1 ≤ start) : (1#32).extractLsb' start len = 0#len :=
    extract_field_other (k := 0) 1#1 (.inr h)
  have hbit : (1#32).extractLsb' 0 1 = 1#1 := rfl
  simp (disch := omega) only [Node.pack, BitVec.extractLsb'_or, extract_field_same, extract_field_other, hvalid, hbit,
    BitVec.zero_or, BitVec.or_zero, and_self]

/-- Settles O27: RDNODE answers `nodeWord`, and the operand 511 is refused before it. -/
theorem rdnodePacksRecord : Obligations.RdnodePacksRecord := by
  unfold Obligations.RdnodePacksRecord
  refine ⟨encode_rdnode, fun n s hn => ⟨_, _, exec_rdnode hn s, completed_complete _ _ _ _, rfl, fun hnone => ?_,
    fun r hr => ?_⟩, fun s => ⟨_, exec_of_operand_out_of_range rfl s, raised_raise s _ _⟩⟩
  · simp [Engine.nodeWord, hnone]
  · have hword : s.engine.nodeWord n = r.pack := by simp [Engine.nodeWord, hr]
    rw [hword]
    exact pack_fields r

/-- Before LOAD no node is valid (item 3). -/
theorem nodeAt_of_notLoaded {e : Engine} (h : e.NotLoaded) (n : NodeId) : e.nodeAt n = none := by
  obtain ⟨-, -, hnode, -⟩ := h
  exact (nodeAt_congr (e' := Engine.reset) hnode n).trans (reset_nodeAt n)

/-- A valid node's frequency is not 0 (item 8). -/
theorem inv_freq_ne_zero {e : Engine} (h : e.Inv) {n : NodeId} {r : Node} (hr : e.nodeAt n = some r) :
    r.freq ≠ 0#32 := by
  obtain hload | htree := inv_notLoaded_or_treeInv h
  · simp [nodeAt_of_notLoaded hload] at hr
  · obtain ⟨-, -, hbound⟩ := htree.queueSorted
    exact (BitVec.ne_of_lt (hbound n r hr).1).symm

theorem nodeFreqWord_of_none {e : Engine} {n : NodeId} (h : e.nodeAt n = none) : e.nodeFreqWord n = 0#32 := by
  simp [Engine.nodeFreqWord, h]

theorem nodeFreqWord_of_some {e : Engine} {n : NodeId} {r : Node} (h : e.nodeAt n = some r) :
    e.nodeFreqWord n = r.freq := by
  simp [Engine.nodeFreqWord, h]

/-- In a sound state RDNFRQ's 0 means "no node" (R89). -/
theorem nodeFreqWord_eq_zero_iff {e : Engine} (h : e.Inv) (n : NodeId) :
    e.nodeFreqWord n = 0#32 ↔ e.nodeAt n = none := by
  refine ⟨fun hzero => ?_, nodeFreqWord_of_none⟩
  cases hr : e.nodeAt n with
  | none => rfl
  | some r => exact absurd ((nodeFreqWord_of_some hr).symm.trans hzero) (inv_freq_ne_zero h hr)

/-- Settles O28: RDNFRQ answers `nodeFreqWord`, and the operand 511 is refused before it. -/
theorem rdnfrqReadsFrequency : Obligations.RdnfrqReadsFrequency := by
  unfold Obligations.RdnfrqReadsFrequency
  exact ⟨encode_rdnfrq, fun n s hn => ⟨_, _, exec_rdnfrq hn s, completed_complete _ _ _ _, rfl, nodeFreqWord_of_none,
    fun _ => nodeFreqWord_of_some, fun hinv => nodeFreqWord_eq_zero_iff hinv n⟩,
    fun s => ⟨_, exec_of_operand_out_of_range rfl s, raised_raise s _ _⟩⟩

end Sys2Proof.Machine
end

section
/-! PROOFS. The code table (43_code_table.md): what GEN writes and what it refuses (R95 to R97), the codes of a sound
table (R99 items a, b, c, f, g), and what RDCODE answers (R98). -/

namespace Sys2Proof.Machine

/-! ## Edges of a tree -/

theorem isLeaf_eq_false_iff {n : NodeId} : isLeaf n = false ↔ 256 ≤ n.toNat := by
  simp [isLeaf, BitVec.le_def]

theorem isLeaf_of_lt {n : NodeId} (h : n.toNat < 256) : isLeaf n = true := by
  rw [← Bool.not_eq_false, isLeaf_eq_false_iff]
  omega

/-- An internal node of a tree has a child on each edge (item 6). -/
theorem exists_child {e : Engine} (h : e.TreeInv) {n : NodeId} {r : Node} (hr : e.nodeAt n = some r)
    (hi : isLeaf n = false) (x : Bit) : ∃ c, r.child x = some c := by
  have hint := h.internalsMatch
  obtain ⟨r', hr', a, ha, b, hb, -⟩ :=
    hint.1 n (mem_internalIds.mpr ⟨isLeaf_eq_false_iff.mp hi, lt_next_of_nodeAt hint hr⟩)
  obtain rfl : r = r' := Option.some.inj (hr.symm.trans hr')
  cases x with
  | false => exact ⟨a, ha⟩
  | true => exact ⟨b, hb⟩

theorem mem_childrenOf {e : Engine} {n c : NodeId} :
    c ∈ e.childrenOf n ↔ ∃ r x, e.nodeAt n = some r ∧ r.child x = some c := by
  unfold Engine.childrenOf
  cases e.nodeAt n with
  | none => simp
  | some r => simp [Node.child]

/-- A node with a child was given out as an internal id. -/
theorem mem_internalIds_of_mem_childrenOf {e : Engine} (h : e.TreeInv) {n c : NodeId} (hc : c ∈ e.childrenOf n) :
    n ∈ e.internalIds := by
  obtain ⟨r, x, hr, hx⟩ := mem_childrenOf.mp hc
  exact mem_internalIds.mpr ⟨(child_of_nodeAt h hr hx).1, lt_next_of_nodeAt h.internalsMatch hr⟩

/-- A node is the child of at most one node (item 7). -/
theorem parent_unique {e : Engine} (h : e.TreeInv) {p p' c : NodeId} (hp : c ∈ e.childrenOf p)
    (hp' : c ∈ e.childrenOf p') : p = p' := by
  obtain ⟨-, hnodup, -⟩ := h.treeShape
  obtain ⟨-, hdisjoint⟩ := List.nodup_flatMap.mp hnodup.of_append_right
  have : Std.Symm (Function.onFun List.Disjoint e.childrenOf) := ⟨fun _ _ hd => hd.symm⟩
  by_contra hne
  exact hdisjoint.forall (mem_internalIds_of_mem_childrenOf h hp) (mem_internalIds_of_mem_childrenOf h hp') hne hp hp'

/-- A path with a last edge comes from the node before it. -/
theorem follow_snoc_eq_some {e : Engine} {n c : NodeId} {q : List Bit} {x : Bit} (h : e.follow n (q ++ [x]) = some c) :
    ∃ p r, e.follow n q = some p ∧ e.nodeAt p = some r ∧ r.child x = some c := by
  induction q generalizing n with
  | nil =>
    obtain ⟨r, c', hr, hc, hnil⟩ := follow_cons_eq_some.mp h
    obtain rfl : c' = c := Option.some.inj hnil
    exact ⟨n, r, rfl, hr, hc⟩
  | cons y q ih =>
    obtain ⟨r, c', hr, hc, hrest⟩ := follow_cons_eq_some.mp h
    obtain ⟨p, r', hq, hp, hx⟩ := ih hrest
    exact ⟨p, r', follow_cons_eq_some.mpr ⟨r, c', hr, hc, hq⟩, hp, hx⟩

/-- A node in Q is nobody's child: a child carries a label. -/
theorem mem_queue_ne_child {e : Engine} (h : e.TreeInv) {n p : NodeId} {r : Node} {x : Bit} (hq : n ∈ e.queue)
    (hp : e.nodeAt p = some r) : r.child x ≠ some n := by
  intro hc
  obtain ⟨rn, hrn, hnone⟩ := nodeAt_of_mem_queue h.treeShape hq
  have hx := label_of_child h hp hc
  simp [hrn, hnone] at hx

/-- Only one path leads from a node of Q to a node: the last edge is the node's label, the node before it the one
parent. -/
theorem follow_unique {e : Engine} (h : e.TreeInv) {root m : NodeId} (hroot : root ∈ e.queue) {q q' : List Bit}
    (hq : e.follow root q = some m) (hq' : e.follow root q' = some m) : q = q' := by
  induction q using List.reverseRecOn generalizing q' m with
  | nil =>
    obtain rfl : root = m := Option.some.inj hq
    obtain rfl | ⟨p', x', rfl⟩ := List.eq_nil_or_concat' q'
    · rfl
    · obtain ⟨p, r, -, hp, hc⟩ := follow_snoc_eq_some hq'
      exact absurd hc (mem_queue_ne_child h hroot hp)
  | append_singleton q x ih =>
    obtain ⟨p, r, hfollow, hp, hc⟩ := follow_snoc_eq_some hq
    obtain rfl | ⟨q', x', rfl⟩ := List.eq_nil_or_concat' q'
    · obtain rfl : root = m := Option.some.inj hq'
      exact absurd hc (mem_queue_ne_child h hroot hp)
    · obtain ⟨p', r', hfollow', hp', hc'⟩ := follow_snoc_eq_some hq'
      obtain rfl := parent_unique h (mem_childrenOf.mpr ⟨r, x, hp, hc⟩) (mem_childrenOf.mpr ⟨r', x', hp', hc'⟩)
      obtain rfl : x = x' := Option.some.inj ((label_of_child h hp hc).symm.trans (label_of_child h hp' hc'))
      rw [ih hfollow hfollow']

/-! ## The table GEN makes of a finished tree (R95 to R97) -/

/-- The walk of a tree does not fail: both children of an internal node are there, and ids fall faster than the fuel. -/
theorem exists_walk {e : Engine} (h : e.TreeInv) {fuel : Nat} {n : NodeId} (hn : (e.nodeAt n).isSome = true)
    (hfuel : n.toNat < 256 + fuel) (path : List Bit) (t : CodeTable) : ∃ t', e.walk (fuel + 1) n path t = some t' := by
  induction fuel generalizing n path t with
  | zero =>
    obtain ⟨r, hr⟩ := Option.isSome_iff_exists.mp hn
    exact ⟨_, walk_leaf hr (isLeaf_of_lt hfuel) 0 path t⟩
  | succ fuel ih =>
    obtain ⟨r, hr⟩ := Option.isSome_iff_exists.mp hn
    cases hleaf : isLeaf n with
    | true => exact ⟨_, walk_leaf hr hleaf _ path t⟩
    | false =>
      have hchild (x : Bit) : ∃ c, r.child x = some c ∧ ∀ path t, ∃ t', e.walk (fuel + 1) c path t = some t' := by
        obtain ⟨c, hc⟩ := exists_child h hr hleaf x
        obtain ⟨-, hlt, hvalid⟩ := child_of_nodeAt h hr hc
        rw [BitVec.lt_def] at hlt
        exact ⟨c, hc, ih hvalid (by omega)⟩
      obtain ⟨a, ha, hwalk⟩ := hchild false
      obtain ⟨b, hb, hwalk'⟩ := hchild true
      obtain ⟨u, hu⟩ := hwalk (path ++ [false]) t
      obtain ⟨t', ht'⟩ := hwalk' (path ++ [true]) u
      exact ⟨t', by rw [walk_internal hr hleaf ha hb, hu, Option.bind_some, ht']⟩

theorem exists_tableFrom {e : Engine} (h : e.TreeInv) {root : NodeId} (hq : e.queue = [root]) :
    ∃ t, e.tableFrom root = some t := by
  unfold Engine.tableFrom
  split
  · exact ⟨_, rfl⟩
  · obtain ⟨r, hr, -⟩ := nodeAt_of_mem_queue h.treeShape (n := root) (by simp [hq])
    exact exists_walk h (fuel := 510) (by simp [hr]) (root.isLt.trans (by decide)) [] emptyTable

/-- A root that is no leaf and is invalid or lacks a child has no table (60_exceptions.md R134). -/
theorem tableFrom_eq_none {e : Engine} {root : NodeId} (hi : isLeaf root = false)
    (hbad : e.nodeAt root = none ∨ ∃ r, e.nodeAt root = some r ∧ (r.left = none ∨ r.right = none)) :
    e.tableFrom root = none := by
  rw [Engine.tableFrom, hi, if_neg Bool.false_ne_true, Engine.walk]
  obtain hnone | ⟨r, hr, hleft | hright⟩ := hbad
  · simp [hnone]
  · simp [hr, hi, hleft]
  · cases hleft : r.left with
    | none => simp [hr, hi, hleft]
    | some a => simp [hr, hi, hleft, hright]

/-- CODE as a list reads each symbol's entry in ascending order. -/
theorem table_toList (t : CodeTable) : t.toList = allSymbols.map t.entry := by
  refine List.ext_getElem (by simp [allSymbols]) fun k h1 h2 => ?_
  have hk : k < 256 := by simpa using h1
  simp [allSymbols, CodeTable.entry, Nat.mod_eq_of_lt hk]

/-- A table with a code for exactly the symbols counted has n0 codes. -/
theorem used_eq_distinct {e : Engine} {t : CodeTable} (h : ∀ s, t.entry s ≠ [] ↔ 0#32 < e.freqOf s) :
    t.used = e.distinct := by
  unfold CodeTable.used Engine.distinct
  rw [table_toList, freq_toList, List.countP_map, List.countP_map]
  refine List.countP_congr fun s _ => ?_
  simpa [List.length_pos_iff] using h s

/-! ## GEN (R97) -/

theorem checks_gen_queued : checks .gen .queued = none := (checks_eq_none_iff _ _).mpr ⟨rfl, rfl⟩

/-- GEN in QUEUED raises what its own rule raises. -/
theorem exec_gen_raise {s : State} {k : ErrKind} (hphase : s.engine.phase = .queued)
    (ho : genEffect s.engine = .raise k) : exec .gen s = .next (s.raise k (encode .gen)) := by
  rw [exec_eq_perform]
  exact perform_raise (hphase ▸ checks_gen_queued) ho

/-- GEN on one node completes with the table of its tree. -/
theorem exec_gen_singleton {s : State} {root : NodeId} {t : CodeTable} (hphase : s.engine.phase = .queued)
    (hq : s.engine.queue = [root]) (ht : s.engine.tableFrom root = some t) :
    exec .gen s =
      .next (s.complete { s.engine with code := t, phase := .coded } (BitVec.ofNat 32 t.used) []) := by
  rw [exec_eq_perform]
  exact perform_ok (hphase ▸ checks_gen_queued) (by simp only [ownEffect, genEffect, hq, ht])

/-- Settles O29: the walk of a finished tree ends, and every entry of its table is the code of its symbol in the
tree. -/
theorem genWritesTreePaths : Obligations.GenWritesTreePaths := by
  unfold Obligations.GenWritesTreePaths
  refine ⟨rfl, fun s root hinv hphase hq => ?_⟩
  obtain ⟨h, -⟩ : s.engine.StageInv .queued := inv_stage hinv hphase (by decide)
  obtain ⟨t, ht⟩ := exists_tableFrom h hq
  have hentry := tableFrom_entry h.leavesMatch ht
  have hcounted (x : Symbol) : t.entry x ≠ [] ↔ 0#32 < s.engine.freqOf x := codeOfTree_ne_nil_iff h hq (hentry x)
  refine ⟨_, exec_gen_singleton hphase hq ht, ?_, hcounted, fun x hx => ?_, fun hi x hx => ?_, rfl⟩
  · rw [used_eq_distinct hcounted]
    exact completed_complete _ _ _ _
  · obtain ⟨q, -, hcode⟩ | ⟨hnone, -⟩ := hentry x
    · rwa [hx, isLeaf_leafId, if_pos rfl] at hcode
    · exact absurd (congrArg some hx) (hnone [])
  · have hinternal : isLeaf root = false := isLeaf_eq_false_iff.mpr (BitVec.le_def.mp hi)
    obtain ⟨q, hfollow, hcode⟩ | ⟨-, hcode⟩ := hentry x
    · obtain rfl : t.entry x = q := by simpa [hinternal] using hcode
      exact hfollow
    · exact absurd hcode ((hcounted x).mpr hx)

/-- Settles O31: GEN's rule looks at how many nodes Q holds before it walks. -/
theorem genRefusesUnfinishedTree : Obligations.GenRefusesUnfinishedTree := by
  unfold Obligations.GenRefusesUnfinishedTree
  intro s hphase
  refine ⟨fun hq => ⟨_, exec_gen_raise hphase (by rw [genEffect, hq]), raised_raise s _ _⟩, fun h2 => ?_⟩
  match hq : s.engine.queue, h2 with
  | _ :: _ :: _, _ => exact ⟨_, exec_gen_raise hphase (by rw [genEffect, hq]), raised_raise s _ _⟩

/-- Settles O32: such a root has no table. -/
theorem genReportsMalformedRoot : Obligations.GenReportsMalformedRoot := by
  unfold Obligations.GenReportsMalformedRoot
  intro s root hphase hq hi hbad
  have hnone := tableFrom_eq_none (isLeaf_eq_false_iff.mpr (BitVec.le_def.mp hi)) hbad
  exact ⟨_, exec_gen_raise hphase (by simp only [genEffect, hq, hnone]), raised_raise s _ _⟩

/-! ## The codes of a sound table (R99) -/

/-- A command keeps the invariant. -/
theorem exec_keeps_inv {i : Instr} {s t : State} (h : exec i s = .next t) (hs : s.engine.Inv) : t.engine.Inv := by
  obtain ⟨k, rfl⟩ | ⟨hlegal, hc⟩ := exec_raises_or_commits h
  · exact inv_raise _ _ _ hs
  · exact inv_commit hlegal hc hs

/-- In CODED, CODE is the table of the tree under the one node in Q (item 9). -/
theorem code_of_coded {e : Engine} (h : e.Inv) (hp : e.phase = .coded) :
    ∃ root, e.queue = [root] ∧ ∀ s, e.CodeOfTree root s (e.codeOf s) := by
  obtain ⟨htree, ⟨hone, htable, -⟩, -⟩ : e.StageInv .coded := inv_stage h hp (by decide)
  obtain ⟨root, hq⟩ := List.length_eq_one_iff.mp hone
  exact ⟨root, hq, tableFrom_entry htree.leavesMatch (htable root (by simp [hq]))⟩

section
variable {e : Engine} (h : e.TreeInv) {root : NodeId} (hq : e.queue = [root])
include h hq

/-- With two symbols or more the root is internal. -/
theorem root_internal (h2 : 2 ≤ e.distinct) : isLeaf root = false := by
  obtain ⟨-, hroot⟩ := root_is_last h hq h2
  exact isLeaf_eq_false_iff.mpr (by omega)

/-- The root of one symbol's tree is its leaf: no internal id was given out. -/
theorem root_leaf (h1 : e.distinct = 1) : isLeaf root = true := by
  obtain ⟨h256, hcount, -⟩ := h.countsMatch
  rw [Engine.qsize, hq, List.length_singleton] at hcount
  obtain ⟨r, hr, -⟩ := nodeAt_of_mem_queue h.treeShape (n := root) (by simp [hq])
  have hlt := lt_next_of_nodeAt h.internalsMatch hr
  rw [BitVec.lt_def] at hlt
  exact isLeaf_of_lt (by omega)

/-- With two symbols or more a path from the root has at most n0 - 1 edges, one per internal node. -/
theorem codeOfTree_length_le (h2 : 2 ≤ e.distinct) {s : Symbol} {c : List Bit} (hc : e.CodeOfTree root s c) :
    c.length ≤ e.distinct - 1 := by
  obtain ⟨q, hfollow, hcode⟩ | ⟨-, rfl⟩ := hc
  · obtain rfl : c = q := by simpa [root_internal h hq h2] using hcode
    obtain ⟨-, hroot⟩ := root_is_last h hq h2
    obtain rfl | hlen := follow_length h hfollow
    · simp
    · omega
  · simp

/-- With one symbol its code is "0" (R96). -/
theorem codeOfTree_lone (h1 : e.distinct = 1) {s : Symbol} {c : List Bit} (hc : e.CodeOfTree root s c)
    (hne : c ≠ []) : c = [false] := by
  obtain ⟨q, -, hcode⟩ | ⟨-, hnil⟩ := hc
  · rwa [root_leaf h hq h1, if_pos rfl] at hcode
  · exact absurd hnil hne

end

/-- Settles O30: the table is sound, and a code is a path in its tree. -/
theorem codesArePrefixFreeAndShort : Obligations.CodesArePrefixFreeAndShort := by
  unfold Obligations.CodesArePrefixFreeAndShort
  intro s t hinv hexec hphase
  have ht := exec_keeps_inv hexec hinv
  obtain ⟨htree, ⟨-, -, hcounted, hprefix, -⟩, -⟩ : t.engine.StageInv .coded := inv_stage ht hphase (by decide)
  obtain ⟨root, hq, hcode⟩ := code_of_coded ht hphase
  exact ⟨hcounted, hprefix, fun h2 x => codeOfTree_length_le htree hq h2 (hcode x),
    fun h1 x => codeOfTree_lone htree hq h1 (hcode x)⟩

/-! ## The tree is full (R99 item g) -/

/-- A sequence longer than there are internal ids up to n leads from n to a leaf, by a first part of it. -/
theorem exists_leaf_of_bits {e : Engine} (h : e.TreeInv) {bits : List Bit} {n : NodeId}
    (hn : (e.nodeAt n).isSome = true) (hlt : n.toNat < 256 + bits.length) :
    ∃ q s, q <+: bits ∧ e.follow n q = some (leafId s) := by
  induction bits generalizing n with
  | nil => exact ⟨[], symbolOf n, List.nil_prefix, by rw [follow_nil, leafId_symbolOf (isLeaf_of_lt hlt)]⟩
  | cons x bits ih =>
    obtain ⟨r, hr⟩ := Option.isSome_iff_exists.mp hn
    cases hleaf : isLeaf n with
    | true => exact ⟨[], symbolOf n, List.nil_prefix, by rw [follow_nil, leafId_symbolOf hleaf]⟩
    | false =>
      obtain ⟨c, hc⟩ := exists_child h hr hleaf x
      obtain ⟨-, hcn, hvalid⟩ := child_of_nodeAt h hr hc
      rw [BitVec.lt_def] at hcn
      rw [List.length_cons] at hlt
      obtain ⟨q, s, hprefix, hfollow⟩ := ih hvalid (by omega)
      exact ⟨x :: q, s, List.cons_prefix_cons.mpr ⟨rfl, hprefix⟩, follow_cons_eq_some.mpr ⟨r, c, hr, hc, hfollow⟩⟩

/-- In a tree of two symbols or more, the code of a symbol is the path to its leaf. -/
theorem codeOfTree_eq_path {e : Engine} (h : e.TreeInv) {root : NodeId} (hq : e.queue = [root])
    (hi : isLeaf root = false) {s : Symbol} {c q : List Bit} (hc : e.CodeOfTree root s c)
    (hfollow : e.follow root q = some (leafId s)) : c = q := by
  obtain ⟨q', hfollow', hcode⟩ | ⟨hnone, -⟩ := hc
  · rw [hi, if_neg Bool.false_ne_true] at hcode
    rw [hcode, follow_unique h (by simp [hq]) hfollow' hfollow]
  · exact absurd hfollow (hnone q)

/-- With two symbols or more some code is a first part of any 255 bits: the root's id is at most 510. -/
theorem exists_code_prefix {e : Engine} (hinv : e.Inv) (hp : e.phase = .coded) (h2 : 2 ≤ e.distinct) {bits : List Bit}
    (hlen : bits.length = 255) : ∃ x, e.codeOf x ≠ [] ∧ e.codeOf x <+: bits := by
  obtain ⟨h, ⟨-, -, hcounted, -⟩, -⟩ : e.StageInv .coded := inv_stage hinv hp (by decide)
  obtain ⟨root, hq, hcode⟩ := code_of_coded hinv hp
  obtain ⟨r, hr, -⟩ := nodeAt_of_mem_queue h.treeShape (n := root) (by simp [hq])
  have hroot := (root_is_last h hq h2).1
  have hnext := e.next.isLt
  obtain ⟨q, x, hprefix, hfollow⟩ := exists_leaf_of_bits h (bits := bits) (n := root) (by simp [hr]) (by omega)
  obtain rfl := codeOfTree_eq_path h hq (root_internal h hq h2) (hcode x) hfollow
  exact ⟨x, (hcounted x).mpr ((freq_pos_iff_follow h hq x).mpr ⟨_, hfollow⟩), hprefix⟩

/-- Settles O43: two codes that are first parts of one sequence are comparable, and a full buffer would start with a
code. -/
theorem fullTreeMatchesEverySequence : Obligations.FullTreeMatchesEverySequence := by
  unfold Obligations.FullTreeMatchesEverySequence
  intro e hinv hp h2
  obtain ⟨-, ⟨-, -, -, hfree, -⟩, hbuf, hunmatched⟩ : e.StageInv .coded := inv_stage hinv hp (by decide)
  refine ⟨fun bits hlen => ?_, ?_⟩
  · obtain ⟨x, hx, hprefix⟩ := exists_code_prefix hinv hp h2 hlen
    refine ⟨x, ⟨hx, hprefix⟩, fun y hy hprefix' => by_contra fun hne => ?_⟩
    obtain hxy | hyx := List.prefix_or_prefix_of_prefix hprefix hprefix'
    · exact hfree x y (Ne.symm hne) hx hy hxy
    · exact hfree y x hne hy hx hyx
  · refine Nat.lt_of_le_of_ne hbuf fun hfull => ?_
    obtain ⟨x, hx, hprefix⟩ := exists_code_prefix hinv hp h2 hfull
    exact hunmatched x hx hprefix

/-! ## RDCODE (R98) -/

theorem encode_rdcode (d : Symbol) : encode (.rdcode d) = 0xF000#16 ||| d.setWidth 16 := rfl

/-- RDCODE answers the code's length in every state, emits its characters and leaves the engine alone. -/
theorem exec_rdcode (d : Symbol) (s : State) :
    exec (.rdcode d) s = .next (s.complete s.engine (BitVec.ofNat 32 (s.engine.codeOf d).length)
      ((s.engine.codeOf d).map bitChar)) := by
  rw [exec_eq_perform]
  exact perform_ok ((checks_eq_none_iff _ _).mpr ⟨rfl, rfl⟩) rfl

/-- Before GEN no symbol has a code (10_state.md R39 items 3 and 9). -/
theorem codeOf_before_gen {e : Engine} (h : e.Inv) (hp : e.phase = .accum ∨ e.phase = .queued) (d : Symbol) :
    e.codeOf d = [] := by
  have hcode : e.code = Engine.reset.code := by
    obtain hp | hp := hp
    · obtain ⟨-, -, -, hcode, -⟩ : e.StageInv .accum := inv_stage h hp (by decide)
      exact hcode
    · obtain ⟨-, hcode, -⟩ : e.StageInv .queued := inv_stage h hp (by decide)
      exact hcode
  rw [codeOf_congr hcode, reset_codeOf]

/-- Settles O34: RDCODE completes in every phase with the characters of the code, of which there are none before
GEN. -/
theorem rdcodeEmitsCode : Obligations.RdcodeEmitsCode := by
  unfold Obligations.RdcodeEmitsCode
  refine ⟨encode_rdcode, fun d s => ⟨_, exec_rdcode d s, rfl, completed_complete _ _ _ _⟩, fun d s hinv hp => ?_⟩
  have hexec := exec_rdcode d s
  rw [codeOf_before_gen hinv hp] at hexec
  exact ⟨_, hexec, completed_complete _ _ _ _⟩

end Sys2Proof.Machine
end

section
/-! PROOFS. The more frequent symbol never has the longer code (43_code_table.md R99 item d): merge_step takes nodes of
ascending frequency, so the nodes of a finished tree lie by frequency, the larger nearer the root. -/

namespace Sys2Proof.Machine

/-! ## Merges take ascending frequencies (42_tree_builder.md R85) -/

/-- The children of a node are no larger than those of any node made later, nor than the entries left in Q. -/
def Engine.MergesAscend (e : Engine) : Prop :=
  ∀ m c : NodeId, c ∈ e.childrenOf m →
    (∀ n d : NodeId, m < n → d ∈ e.childrenOf n → e.nodeFreq c ≤ e.nodeFreq d) ∧
    ∀ q ∈ e.queue, e.nodeFreq c ≤ e.nodeFreq q

theorem nodeAt_of_mem_childrenOf {e : Engine} (h : e.TreeInv) {n c : NodeId} (hc : c ∈ e.childrenOf n) :
    ∃ r, e.nodeAt c = some r := by
  obtain ⟨r, x, hr, hx⟩ := mem_childrenOf.mp hc
  exact Option.isSome_iff_exists.mp (child_of_nodeAt h hr hx).2.2

/-- LOAD makes leaves only, so there is nothing to order yet. -/
theorem mergesAscend_loadLeaves {e : Engine} (h : e.NotLoaded) (htotal : e.TotalIsSum) : e.loadLeaves.MergesAscend := by
  intro m c hc
  have hm := mem_internalIds_of_mem_childrenOf (treeInv_loadLeaves h htotal) hc
  simp [loadLeaves_internalIds h] at hm

section
variable {e : Engine} {a b : NodeId} {rest : List NodeId} (h : e.TreeInv) (hq : e.queue = a :: b :: rest)
include h hq

/-- After a merge the children are those from before and, of the new node, the two merged. -/
theorem mem_joined_childrenOf {n c : NodeId} (hc : c ∈ (e.joined a b rest).childrenOf n) :
    (n = e.next ∧ c ∈ [a, b]) ∨ (n < e.next ∧ c ∈ e.childrenOf n) := by
  by_cases hn : n = e.next
  · subst hn
    exact .inl ⟨rfl, by simpa [Engine.childrenOf, joined_nodeAt_next h hq] using hc⟩
  · have hold : c ∈ e.childrenOf n := by
      cases hr : e.nodeAt n with
      | none => simp [Engine.childrenOf, joined_nodeAt_other h hq hn, hr] at hc
      | some r => simpa [Engine.childrenOf, joined_nodeAt_of_valid h hq hr, hr] using hc
    exact .inr ⟨(mem_internalIds.mp (mem_internalIds_of_mem_childrenOf h hold)).2, hold⟩

/-- A merge leaves the frequencies of children as they were. -/
theorem joined_nodeFreq_of_child {n c : NodeId} (hc : c ∈ e.childrenOf n) :
    (e.joined a b rest).nodeFreq c = e.nodeFreq c := by
  obtain ⟨r, hr⟩ := nodeAt_of_mem_childrenOf h hc
  exact joined_nodeFreq_of_valid h hq hr

/-- A merge leaves the frequencies of the entries of Q as they were. -/
theorem joined_nodeFreq_of_mem_queue {n : NodeId} (hn : n ∈ e.queue) :
    (e.joined a b rest).nodeFreq n = e.nodeFreq n := by
  obtain ⟨r, hr, -⟩ := nodeAt_of_mem_queue h.treeShape hn
  exact joined_nodeFreq_of_valid h hq hr

/-- The two nodes a merge takes are no larger than any entry it leaves in Q: those behind them were no smaller, and the
new node has their sum. -/
theorem merged_nodeFreq_le {c q : NodeId} (hc : c ∈ [a, b]) (hqueue : q ∈ (e.joined a b rest).queue) :
    e.nodeFreq c ≤ (e.joined a b rest).nodeFreq q := by
  have hperm : (e.joined a b rest).queue.Perm (e.next :: rest) := joinNodes_queue_perm _ a b
  obtain rfl | hrest := List.mem_cons.mp (hperm.mem_iff.mp hqueue)
  · have hsum := (merged_freq h hq).1
    rw [nodeFreq_of_nodeAt (joined_nodeAt_next h hq), BitVec.le_def, hsum]
    obtain rfl | rfl : c = a ∨ c = b := by simpa using hc
    · exact Nat.le_add_right _ _
    · exact Nat.le_add_left _ _
  · have hsorted := h.queueSorted.1
    rw [hq] at hsorted
    rw [joined_nodeFreq_of_mem_queue h hq (by simp [hq, hrest])]
    exact nodeFreq_le_of_before ((List.pairwise_append (l₁ := [a, b]).mp hsorted).2.2 c hc q hrest)

/-- A merge keeps the order: it takes the two smallest nodes of Q, which no earlier child exceeds. -/
theorem mergesAscend_joined (ho : e.MergesAscend) : (e.joined a b rest).MergesAscend := by
  have hpair {x : NodeId} (hx : x ∈ [a, b]) : x ∈ e.queue := by
    rw [hq]
    exact List.mem_append_left rest hx
  intro m c hc
  obtain ⟨rfl, hab⟩ | ⟨-, hold⟩ := mem_joined_childrenOf h hq hc
  · rw [joined_nodeFreq_of_mem_queue h hq (hpair hab)]
    refine ⟨fun n d hlt hd => ?_, fun q => merged_nodeFreq_le h hq hab⟩
    obtain ⟨rfl, -⟩ | ⟨hn, -⟩ := mem_joined_childrenOf h hq hd
    · exact absurd hlt (BitVec.lt_irrefl _)
    · exact absurd hlt (BitVec.lt_asymm hn)
  · obtain ⟨hlater, hqueue⟩ := ho m c hold
    rw [joined_nodeFreq_of_child h hq hold]
    refine ⟨fun n d hlt hd => ?_, fun q hmem => ?_⟩
    · obtain ⟨-, hab⟩ | ⟨-, hdold⟩ := mem_joined_childrenOf h hq hd
      · rw [joined_nodeFreq_of_mem_queue h hq (hpair hab)]
        exact hqueue d (hpair hab)
      · rw [joined_nodeFreq_of_child h hq hdold]
        exact hlater n d hlt hdold
    · exact BitVec.le_trans (hqueue a (hpair (by simp))) (merged_nodeFreq_le h hq (by simp) hmem)

end

theorem mergesAscend_mergeStep {e e' : Engine} (h : e.TreeInv) (hm : e.mergeStep = .ok e') (ho : e.MergesAscend) :
    e'.MergesAscend := by
  obtain ⟨a, b, rest, hq, hjoin⟩ := mergeStep_ok (mergeStep_counts hm).1
  obtain rfl : e.joined a b rest = e' := Except.ok.inj (hjoin.symm.trans hm)
  exact mergesAscend_joined h hq ho

theorem mergesAscend_buildLoop {turns : Nat} {e e' : Engine} (h : e.TreeInv)
    (hloop : Engine.buildLoop turns e = .ok e') (ho : e.MergesAscend) : e'.MergesAscend := by
  refine (buildLoop_induction (P := fun x => x.TreeInv ∧ x.MergesAscend) ?_ ⟨h, ho⟩ hloop).2
  rintro x x' ⟨hx, hxo⟩ hm
  exact ⟨treeInv_mergeStep hx hm, mergesAscend_mergeStep hx hm hxo⟩

/-! ## Every run makes its tree by such merges -/

/-- A sound engine whose tree, once there is one, was made by merges of ascending frequency. -/
def Engine.OrderedInv (e : Engine) : Prop :=
  e.Inv ∧ (e.phase = .queued ∨ e.phase = .coded → e.MergesAscend)

theorem orderedInv_raise (e : Engine) (k : ErrKind) (w : CmdWord) (h : e.OrderedInv) : (e.raise k w).OrderedInv :=
  ⟨inv_raise e k w h.1, by simp⟩

theorem orderedInv_commit {i : Instr} {e e' : Engine} (hlegal : legalIn i e.phase = true) (hc : Commit i e e')
    (h : e.OrderedInv) : e'.OrderedInv := by
  obtain ⟨hinv, horder⟩ := h
  refine ⟨inv_commit hlegal hc hinv, fun hp' => ?_⟩
  have hqueued (hp : e.phase = .queued) : e.TreeInv ∧ e.MergesAscend :=
    ⟨(inv_stage hinv hp (by decide)).1, horder (.inl hp)⟩
  have hcoded (hp : e.phase = .coded) : e.MergesAscend := horder (.inr hp)
  cases hc with
  | clr => simp [Engine.reset] at hp'
  | acc d room =>
    have hp : e.phase = .accum := by simpa [legalIn] using hlegal
    simp [hp] at hp'
  | load =>
    have hp : e.phase = .accum := by simpa [legalIn] using hlegal
    exact mergesAscend_loadLeaves (inv_stage hinv hp (by decide)) hinv.1
  | merge hm =>
    obtain ⟨htree, ho⟩ := hqueued (by simpa [legalIn] using hlegal)
    exact mergesAscend_mergeStep htree hm ho
  | build hb =>
    obtain ⟨htree, ho⟩ := hqueued (by simpa [legalIn] using hlegal)
    exact mergesAscend_buildLoop htree hb ho
  | gen hq ht => exact (hqueued (by simpa [legalIn] using hlegal)).2
  | keepBit d room hmatch => exact hcoded (by simpa [legalIn] using hlegal)
  | emptyBuffer d => exact hcoded (by simpa [legalIn] using hlegal)
  | keep => exact horder hp'

/-- What every step keeps holds wherever a run leads. -/
theorem run_preserves {P : Engine → Prop} (hstep : ∀ {s t : State}, P s.engine → step s = .next t → P t.engine)
    {k : Nat} {s v : State} (hs : P s.engine) (h : Host.Core.run core k s = .next v) : P v.engine := by
  induction k generalizing s with
  | zero =>
    cases h
    exact hs
  | succ k ih =>
    simp only [Host.Core.run] at h
    split at h
    next t ht => exact ih (hstep hs ht) h
    next => cases h
    next => cases h

/-! ## Larger nodes lie nearer the root -/

/-- A node's frequency is that of a child and of the child beside it (item 6). -/
theorem nodeFreq_eq_add_sibling {e : Engine} (h : e.TreeInv) {n c : NodeId} (hc : c ∈ e.childrenOf n) :
    ∃ d ∈ e.childrenOf n, (e.nodeFreq n).toNat = (e.nodeFreq c).toNat + (e.nodeFreq d).toNat := by
  obtain ⟨r, hr, a, ha, b, hb, -, -, -, -, -, hsum⟩ :=
    h.internalsMatch.1 n (mem_internalIds_of_mem_childrenOf h hc)
  have hchildren : e.childrenOf n = [a, b] := by
    rw [Engine.childrenOf, Option.mem_def.mp hr]
    simp [Option.mem_def.mp ha, Option.mem_def.mp hb]
  rw [hchildren] at hc ⊢
  rw [nodeFreq_of_nodeAt hr, hsum]
  obtain rfl | rfl : c = a ∨ c = b := by simpa using hc
  · exact ⟨b, by simp, rfl⟩
  · exact ⟨a, by simp, Nat.add_comm _ _⟩

/-- Where a child is smaller than another node's child, its parent is the smaller one, or the two are siblings. -/
theorem parent_eq_or_nodeFreq_lt {e : Engine} (h : e.TreeInv) (ho : e.MergesAscend) {p p' c c' : NodeId}
    (hc : c ∈ e.childrenOf p) (hc' : c' ∈ e.childrenOf p') (hlt : e.nodeFreq c < e.nodeFreq c') :
    p = p' ∨ e.nodeFreq p < e.nodeFreq p' := by
  obtain hpp | rfl | hpp := BitVec.lt_trichotomy p p'
  · obtain ⟨d, hd, hsum⟩ := nodeFreq_eq_add_sibling h hc
    obtain ⟨d', hd', hsum'⟩ := nodeFreq_eq_add_sibling h hc'
    have hle := (ho p d hd).1 p' d' hpp hd'
    rw [BitVec.lt_def] at hlt
    rw [BitVec.le_def] at hle
    exact .inr (BitVec.lt_def.mpr (by omega))
  · exact .inl rfl
  · exact absurd hlt (BitVec.not_lt.mpr ((ho p' c' hc').1 p c hpp hc))

/-- Of two nodes the larger one is no farther from the root. -/
theorem path_length_le_of_nodeFreq_lt {e : Engine} (h : e.TreeInv) (ho : e.MergesAscend) {root : NodeId}
    (hq : e.queue = [root]) {n m : NodeId} {q q' : List Bit} (hn : e.follow root q = some n)
    (hm : e.follow root q' = some m) (hlt : e.nodeFreq n < e.nodeFreq m) : q'.length ≤ q.length := by
  obtain ⟨rroot, hroot, -⟩ := nodeAt_of_mem_queue h.treeShape (n := root) (by simp [hq])
  induction q using List.reverseRecOn generalizing n m q' with
  | nil =>
    obtain rfl : root = n := Option.some.inj hn
    obtain ⟨r, hr⟩ := Option.isSome_iff_exists.mp (nodeAt_of_follow h (by simp [hroot]) hm)
    have hle := (h.queueSorted.2.2 m r hr).2
    rw [← root_nodeFreq h hq, ← nodeFreq_of_nodeAt hr] at hle
    exact absurd hlt (BitVec.not_lt.mpr hle)
  | append_singleton q x ih =>
    obtain rfl | ⟨q', x', rfl⟩ := List.eq_nil_or_concat' q'
    · simp
    · obtain ⟨p, r, hfollow, hp, hc⟩ := follow_snoc_eq_some hn
      obtain ⟨p', r', hfollow', hp', hc'⟩ := follow_snoc_eq_some hm
      have hle : q'.length ≤ q.length := by
        obtain rfl | hpp := parent_eq_or_nodeFreq_lt h ho (mem_childrenOf.mpr ⟨r, x, hp, hc⟩)
          (mem_childrenOf.mpr ⟨r', x', hp', hc'⟩) hlt
        · exact (congrArg List.length (follow_unique h (by simp [hq]) hfollow' hfollow)).le
        · exact ih hfollow hfollow' hpp
      simpa using hle

/-- The leaf of a counted symbol has the symbol's frequency (item 4). -/
theorem nodeFreq_leafId {e : Engine} (h : e.LeavesMatch) {s : Symbol} (hs : 0#32 < e.freqOf s) :
    e.nodeFreq (leafId s) = e.freqOf s := by
  obtain ⟨r, hr, hfreq, -⟩ := h.1 s hs
  rw [nodeFreq_of_nodeAt hr, hfreq]

/-- Of two counted symbols the more frequent has no longer a code. -/
theorem codeOfTree_length_le_of_freqOf_lt {e : Engine} (h : e.TreeInv) (ho : e.MergesAscend) {root : NodeId}
    (hq : e.queue = [root]) {x y : Symbol} {c c' : List Bit} (hc : e.CodeOfTree root x c)
    (hc' : e.CodeOfTree root y c') (hy : 0#32 < e.freqOf y) (hxy : e.freqOf y < e.freqOf x) :
    c.length ≤ c'.length := by
  have hx : 0#32 < e.freqOf x := BitVec.lt_trans hy hxy
  obtain ⟨q, hfollow, rfl⟩ | ⟨-, rfl⟩ := hc
  · obtain ⟨q', hfollow', rfl⟩ | ⟨hnone, -⟩ := hc'
    · split
      · exact le_rfl
      · refine path_length_le_of_nodeFreq_lt h ho hq hfollow' hfollow ?_
        rwa [nodeFreq_leafId h.leavesMatch hx, nodeFreq_leafId h.leavesMatch hy]
    · obtain ⟨q', hfollow'⟩ := (freq_pos_iff_follow h hq y).mp hy
      exact absurd hfollow' (hnone q')
  · simp

/-- Settles O35: every step keeps the order of the merges, and in CODED the codes are paths of the tree they made. -/
theorem frequentSymbolsHaveShorterCodes : Obligations.FrequentSymbolsHaveShorterCodes := by
  unfold Obligations.FrequentSymbolsHaveShorterCodes
  intro s v words hinv hphase hrun hcoded x y hy hxy
  have hstart : s.engine.OrderedInv := ⟨hinv, by simp [hphase]⟩
  obtain ⟨hv, horder⟩ := run_preserves (s := { s with cmdStream := words })
    (step_preserves orderedInv_raise orderedInv_commit) hstart hrun
  obtain ⟨htree, -⟩ : v.engine.StageInv .coded := inv_stage hv hcoded (by decide)
  obtain ⟨root, hq, hcode⟩ := code_of_coded hv hcoded
  exact codeOfTree_length_le_of_freqOf_lt htree (horder (.inr hcoded)) hq (hcode x) (hcode y) hy hxy

end Sys2Proof.Machine
end

section
/-! PROOFS. The encoder (44_encoder.md): what ENC answers in every phase (R105), and that it has no state (R107). -/

namespace Sys2Proof.Machine

/-- Step 4 of 30_encoding.md R59: a command that is not legal in the phase raises IllegalCommand. -/
theorem exec_of_illegal_phase {i : Instr} {s : State} (h : legalIn i s.engine.phase = false) :
    exec i s = .next (s.raise .illegalCommand (encode i)) := by
  rw [exec_eq_perform]
  apply perform_of_checks
  cases hc : checks i s.engine.phase with
  | none =>
    obtain ⟨hlegal, -⟩ := (checks_eq_none_iff i _).mp hc
    simp [h] at hlegal
  | some k => rw [checks_eq_some hc]

/-! ## ENC (R105) -/

theorem encode_enc (d : Symbol) : encode (.enc d) = 0x7000#16 ||| d.setWidth 16 := rfl

theorem checks_enc_coded (d : Symbol) : checks (.enc d) .coded = none := (checks_eq_none_iff _ _).mpr ⟨rfl, rfl⟩

/-- ENC of a symbol with a code answers the code's length, emits its characters and leaves the engine alone. -/
theorem exec_enc_of_code {d : Symbol} {s : State} (hphase : s.engine.phase = .coded)
    (hcode : s.engine.codeOf d ≠ []) :
    exec (.enc d) s = .next (s.complete s.engine (BitVec.ofNat 32 (s.engine.codeOf d).length)
      ((s.engine.codeOf d).map bitChar)) := by
  rw [exec_eq_perform]
  exact perform_ok (hphase ▸ checks_enc_coded d) (if_neg (mt List.length_eq_zero_iff.mp hcode))

/-- ENC of a symbol without a code raises UnknownSymbol. -/
theorem exec_enc_of_no_code {d : Symbol} {s : State} (hphase : s.engine.phase = .coded)
    (hcode : s.engine.codeOf d = []) :
    exec (.enc d) s = .next (s.raise .unknownSymbol (encode (.enc d))) := by
  rw [exec_eq_perform]
  exact perform_raise (hphase ▸ checks_enc_coded d) (if_pos (List.length_eq_zero_iff.mpr hcode))

theorem legalIn_enc_eq_false {d : Symbol} {p : Phase} (h : p ≠ .coded) : legalIn (.enc d) p = false :=
  beq_eq_false_iff_ne.mpr h

/-- Settles O36: in CODED the code decides between completing and raising; in every other phase ENC is not legal. -/
theorem encEmitsCode : Obligations.EncEmitsCode := by
  unfold Obligations.EncEmitsCode
  refine ⟨encode_enc, fun d s hphase hcode => ?_, fun d s hphase hcode => ?_, fun d s hphase => ?_⟩
  · exact ⟨_, exec_enc_of_code hphase hcode, rfl, completed_complete _ _ _ _⟩
  · exact ⟨_, exec_enc_of_no_code hphase hcode, raised_raise s _ _⟩
  · exact ⟨_, exec_of_illegal_phase (legalIn_enc_eq_false hphase), raised_raise s _ _⟩

/-! ## The encoder has no state (R107) -/

/-- Settles O37: the code of the operand says whether ENC completes or raises and what it sends, and neither writes
BUF or CODE. -/
theorem encoderIsStateless : Obligations.EncoderIsStateless := by
  unfold Obligations.EncoderIsStateless
  intro d s s' t t' hphase hphase' hsame hexec hexec'
  by_cases hcode : s.engine.codeOf d = []
  · rw [exec_enc_of_no_code hphase hcode] at hexec
    rw [exec_enc_of_no_code hphase' (hsame ▸ hcode)] at hexec'
    cases hexec
    cases hexec'
    exact ⟨⟨_, rfl, rfl⟩, raise_buf _ _ _, raise_code _ _ _, absurd hcode⟩
  · rw [exec_enc_of_code hphase hcode] at hexec
    rw [exec_enc_of_code hphase' (hsame ▸ hcode), ← hsame] at hexec'
    cases hexec
    cases hexec'
    exact ⟨⟨_, rfl, rfl⟩, rfl, rfl, fun _ => rfl⟩

end Sys2Proof.Machine
end

section
/-! PROOFS. The decoder (45_decoder.md): what DEC and DECEND answer (R110 to R112, R114, R115), that decoding undoes
encoding and that every input gets its table (R113). -/

namespace Sys2Proof.Machine

/-! ## The match (R110) and the bit characters (R115) -/

/-- The match answers the smallest symbol whose code is the sequence. -/
theorem matchCode_of_least {e : Engine} {b : List Bit} {x : Symbol} (hb : b ≠ []) (hx : e.codeOf x = b)
    (hmin : ∀ y : Symbol, y < x → e.codeOf y ≠ b) : e.matchCode b = some x := by
  cases hm : e.matchCode b with
  | none =>
    obtain hnil | hnone := matchCode_eq_none_iff.mp hm
    · exact absurd hnil hb
    · exact absurd hx (hnone x)
  | some z =>
    obtain ⟨-, hz, hzmin⟩ := matchCode_eq_some hm
    obtain hlt | rfl | hlt := BitVec.lt_trichotomy z x
    · exact absurd hz (hmin z hlt)
    · rfl
    · exact absurd hx (hzmin x hlt)

@[simp] theorem bitOfChar_bitChar (x : Bit) : bitOfChar (bitChar x) = some x := by
  cases x <;> rfl

theorem bitOfChar_of_ne {d : Byte} (h0 : d ≠ 0x30#8) (h1 : d ≠ 0x31#8) : bitOfChar d = none := by
  rw [bitOfChar, if_neg h0, if_neg h1]

/-! ## DEC (R111, R114, R115) -/

theorem encode_dec (d : Byte) : encode (.dec d) = 0x8000#16 ||| d.setWidth 16 := rfl

theorem checks_dec_coded (d : Byte) : checks (.dec d) .coded = none := (checks_eq_none_iff _ _).mpr ⟨rfl, rfl⟩

/-- DEC of a bit character with room in the buffer takes the bit. -/
theorem decEffect_bitChar {e : Engine} (room : e.buf.length ≠ 255) (x : Bit) :
    decEffect (bitChar x) e = decodeBit x e := by
  have room' : ¬ e.bufLen = Config.maxLen := room
  rw [decEffect, bitOfChar_bitChar]
  exact if_neg room'

/-- On a match DEC emits the symbol and empties the buffer. -/
theorem exec_dec_of_match {s : State} {x : Bit} {b : Symbol} (hphase : s.engine.phase = .coded)
    (room : s.engine.buf.length ≠ 255) (hmatch : s.engine.matchCode (s.engine.buf ++ [x]) = some b) :
    exec (.dec (bitChar x)) s = .next (s.complete { s.engine with buf := [] } 1#32 [b]) := by
  rw [exec_eq_perform]
  refine perform_ok (hphase ▸ checks_dec_coded _) ((decEffect_bitChar room x).trans ?_)
  rw [decodeBit, hmatch]

/-- Where the buffer is no code yet DEC keeps the bit. -/
theorem exec_dec_of_no_match {s : State} {x : Bit} (hphase : s.engine.phase = .coded)
    (room : s.engine.buf.length ≠ 255) (hmatch : s.engine.matchCode (s.engine.buf ++ [x]) = none) :
    exec (.dec (bitChar x)) s = .next (s.complete { s.engine with buf := s.engine.buf ++ [x] } 0#32 []) := by
  rw [exec_eq_perform]
  refine perform_ok (hphase ▸ checks_dec_coded _) ((decEffect_bitChar room x).trans ?_)
  rw [decodeBit, hmatch]

/-- DEC's own rule raises on a byte that is no bit character and on a full buffer. -/
theorem decEffect_raise {d : Byte} {e : Engine} (h : bitOfChar d = none ∨ e.buf.length = 255) :
    decEffect d e = .raise .invalidEncoding := by
  unfold decEffect
  split
  next => rfl
  next x hx =>
    obtain hnone | full := h
    · simp [hx] at hnone
    · exact if_pos full

/-- Settles O38: the bit is taken, and `matchCode` decides whether it completes a code. -/
theorem decTakesOneBit : Obligations.DecTakesOneBit := by
  unfold Obligations.DecTakesOneBit
  refine ⟨encode_dec, fun s d bit hd hphase room => ?_⟩
  obtain rfl : d = bitChar bit := by
    obtain ⟨rfl, rfl⟩ | ⟨rfl, rfl⟩ : (d = 0x30#8 ∧ bit = false) ∨ (d = 0x31#8 ∧ bit = true) := by
      simpa using hd
    · rfl
    · rfl
  refine ⟨fun x hx hmin => ?_, fun hnone => ?_⟩
  · have hmatch := matchCode_of_least (by simp) hx hmin
    exact ⟨_, exec_dec_of_match hphase room hmatch, completed_complete _ _ _ _, rfl⟩
  · have hmatch := matchCode_eq_none_iff.mpr (.inr hnone)
    exact ⟨_, exec_dec_of_no_match hphase room hmatch, completed_complete _ _ _ _, rfl⟩

/-- Settles O39: both cases raise before the bit is taken, and a raise leaves BUF alone. -/
theorem decRefusesBadCharacterAndFullBuffer : Obligations.DecRefusesBadCharacterAndFullBuffer := by
  unfold Obligations.DecRefusesBadCharacterAndFullBuffer
  intro d s hphase h
  have ho : decEffect d s.engine = .raise .invalidEncoding :=
    decEffect_raise (h.imp_left fun ⟨h0, h1⟩ => bitOfChar_of_ne h0 h1)
  have hraise : exec (.dec d) s = .next (s.raise .invalidEncoding (encode (.dec d))) := by
    rw [exec_eq_perform]
    exact perform_raise (hphase ▸ checks_dec_coded d) ho
  exact ⟨_, hraise, raised_raise s _ _, raise_buf _ _ _⟩

/-! ## DECEND (R112) -/

theorem checks_decend_coded : checks .decend .coded = none := (checks_eq_none_iff _ _).mpr ⟨rfl, rfl⟩

/-- DECEND on an empty buffer completes and leaves the engine alone. -/
theorem exec_decend_of_nil {s : State} (hphase : s.engine.phase = .coded) (hbuf : s.engine.buf = []) :
    exec .decend s = .next (s.complete s.engine 0#32 []) := by
  rw [exec_eq_perform]
  exact perform_ok (hphase ▸ checks_decend_coded) (if_pos (List.length_eq_zero_iff.mpr hbuf))

/-- DECEND with bits left over raises InvalidEncoding. -/
theorem exec_decend_of_ne_nil {s : State} (hphase : s.engine.phase = .coded) (hbuf : s.engine.buf ≠ []) :
    exec .decend s = .next (s.raise .invalidEncoding (encode .decend)) := by
  rw [exec_eq_perform]
  exact perform_raise (hphase ▸ checks_decend_coded) (if_neg (mt List.length_eq_zero_iff.mp hbuf))

/-- Settles O40: in CODED the buffer decides between completing and raising; in every other phase DECEND is not
legal. -/
theorem decendEndsSequence : Obligations.DecendEndsSequence := by
  unfold Obligations.DecendEndsSequence
  refine ⟨rfl, fun s hphase hbuf => ?_, fun s hphase hbuf => ?_, fun s hphase => ?_⟩
  · exact ⟨_, exec_decend_of_nil hphase hbuf, completed_complete _ _ _ _, rfl⟩
  · exact ⟨_, exec_decend_of_ne_nil hphase hbuf, raised_raise s _ _, rfl⟩
  · have hillegal : legalIn .decend s.engine.phase = false := beq_eq_false_iff_ne.mpr hphase
    exact ⟨_, exec_of_illegal_phase hillegal, raised_raise s _ _⟩

/-! ## The match where no code begins another (R99 item b) -/

/-- A first part of the code of b that is itself a code is the code of b. -/
theorem eq_of_code_prefix {e : Engine} (h : e.CodesPrefixFree) {x b : Symbol} (hx : e.codeOf x ≠ [])
    (hprefix : e.codeOf x <+: e.codeOf b) : x = b := by
  have hb : e.codeOf b ≠ [] := by
    intro hnil
    rw [hnil, List.prefix_nil] at hprefix
    exact hx hprefix
  exact by_contra fun hne => h x b hne hx hb hprefix

/-- The code of b matches b and no other symbol. -/
theorem matchCode_codeOf {e : Engine} (h : e.CodesPrefixFree) {b : Symbol} (hb : e.codeOf b ≠ []) :
    e.matchCode (e.codeOf b) = some b := by
  refine matchCode_of_least hb rfl fun y hlt hy => ?_
  obtain rfl : y = b := eq_of_code_prefix h (hy ▸ hb) (hy ▸ List.prefix_refl (e.codeOf y))
  exact BitVec.lt_irrefl y hlt

/-- A first part of a code that leaves some of it out matches nothing. -/
theorem matchCode_proper_prefix {e : Engine} (h : e.CodesPrefixFree) {b : Symbol} {front rest : List Bit}
    (hcode : e.codeOf b = front ++ rest) (hrest : rest ≠ []) : e.matchCode front = none := by
  refine matchCode_eq_none_iff.mpr (or_iff_not_imp_left.mpr fun hfront x hx => hrest ?_)
  obtain rfl : x = b := eq_of_code_prefix h (hx ▸ hfront) (hx ▸ hcode ▸ List.prefix_append front rest)
  simpa [hx] using hcode

/-! ## Decoding undoes encoding (R113) -/

/-- `Sends bytes evs`: the output elements among evs are the bytes in order, and every response among them has
status 0. -/
def Sends (bytes : List Byte) (evs : List Event) : Prop :=
  (⟨Engine.reset, [], evs⟩ : State).outStream = bytes ∧ ∀ r, .rsp r ∈ evs → r.status = 0#4

/-- The commands that hand a sequence of bits to the decoder (20_memory.md R45). -/
def decWords (bits : List Bit) : List CmdWord := bits.map (fun x => encode (.dec (bitChar x)))

theorem decWords_append (bits bits' : List Bit) : decWords (bits ++ bits') = decWords bits ++ decWords bits' :=
  List.map_append

theorem sends_nil : Sends [] [] := ⟨rfl, by simp⟩

theorem sends_append {bytes bytes' : List Byte} {evs evs' : List Event} (h : Sends bytes evs)
    (h' : Sends bytes' evs') : Sends (bytes ++ bytes') (evs ++ evs') := by
  obtain ⟨hout, hrsp⟩ := h
  obtain ⟨hout', hrsp'⟩ := h'
  refine ⟨by rw [← hout, ← hout']; exact List.filterMap_append, fun r hr => ?_⟩
  exact (List.mem_append.mp hr).elim (hrsp r) (hrsp' r)

/-- A response with status 0 alone. -/
theorem sends_ok (d : Data) : Sends [] [.rsp ⟨0#4, d⟩] := ⟨rfl, by simp⟩

/-- One output element and a response with status 0. -/
theorem sends_emit (b : Byte) (d : Data) : Sends [b] [.out b, .rsp ⟨0#4, d⟩] := ⟨rfl, by simp⟩

section
variable {e : Engine} (hphase : e.phase = .coded) (htable : e.TableInv)
include hphase htable

/-- With the first bits of the code of b in the buffer, the rest of the code emits b and empties the buffer. -/
theorem run_dec_code (words : List CmdWord) (k : Nat) {b : Byte} {front rest : List Bit} (hrest : rest ≠ [])
    (hcode : e.codeOf b = front ++ rest) (sent : List Event) :
    ∃ evs, Sends [b] evs ∧
      Host.Core.run core (rest.length + k) ⟨{ e with buf := front }, decWords rest ++ words, sent⟩ =
        Host.Core.run core k ⟨{ e with buf := [] }, words, sent ++ evs⟩ := by
  obtain ⟨-, -, -, hfree, hlength⟩ := htable
  induction rest generalizing front sent with
  | nil => exact absurd rfl hrest
  | cons x rest ih =>
    have room : front.length ≠ 255 := by
      have hle := hlength b
      rw [hcode, List.length_append, List.length_cons] at hle
      omega
    rw [List.length_cons, Nat.add_right_comm]
    cases rest with
    | nil =>
      have hmatch : e.matchCode (front ++ [x]) = some b := hcode ▸ matchCode_codeOf hfree (by simp [hcode])
      have hdec := exec_dec_of_match (s := ⟨{ e with buf := front }, words, sent⟩) hphase room hmatch
      refine ⟨_, sends_emit b 1#32, ?_⟩
      rw [List.length_nil, Nat.zero_add]
      exact run_present hdec k
    | cons y rest =>
      have hcode' : e.codeOf b = (front ++ [x]) ++ y :: rest := by simp [hcode]
      have hmatch : e.matchCode (front ++ [x]) = none := matchCode_proper_prefix hfree hcode' (by simp)
      obtain ⟨evs, hevs, hrun⟩ := ih (by simp) hcode' (sent ++ [.rsp ⟨0#4, 0#32⟩])
      have hdec := exec_dec_of_no_match (s := ⟨{ e with buf := front }, decWords (y :: rest) ++ words, sent⟩) hphase
        room hmatch
      refine ⟨.rsp ⟨0#4, 0#32⟩ :: evs, sends_append (sends_ok 0#32) hevs, ?_⟩
      rw [List.append_cons]
      exact (run_present hdec _).trans hrun

/-- From an empty buffer the codes of a list of bytes, one after the other, emit the bytes. -/
theorem run_dec_codes (words : List CmdWord) (k : Nat) {bytes : List Byte} (hcoded : ∀ b ∈ bytes, e.codeOf b ≠ [])
    (sent : List Event) :
    ∃ evs, Sends bytes evs ∧
      Host.Core.run core ((bytes.flatMap e.codeOf).length + k)
          ⟨{ e with buf := [] }, decWords (bytes.flatMap e.codeOf) ++ words, sent⟩ =
        Host.Core.run core k ⟨{ e with buf := [] }, words, sent ++ evs⟩ := by
  induction bytes generalizing sent with
  | nil => exact ⟨[], sends_nil, by simp [decWords]⟩
  | cons b bytes ih =>
    rw [List.forall_mem_cons] at hcoded
    obtain ⟨hb, hbytes⟩ := hcoded
    obtain ⟨evs, hevs, hrun⟩ := run_dec_code hphase htable (decWords (bytes.flatMap e.codeOf) ++ words)
      ((bytes.flatMap e.codeOf).length + k) hb (List.nil_append _).symm sent
    obtain ⟨evs', hevs', hrun'⟩ := ih hbytes (sent ++ evs)
    refine ⟨evs ++ evs', sends_append hevs hevs', ?_⟩
    rw [List.flatMap_cons, List.length_append, Nat.add_assoc, decWords_append, List.append_assoc, hrun, hrun',
      List.append_assoc]

end

/-- Settles O41: no code begins another, so each symbol is emitted where its code ends and not before, and DECEND finds
the buffer empty. -/
theorem decodingUndoesEncoding : Obligations.DecodingUndoesEncoding := by
  unfold Obligations.DecodingUndoesEncoding
  rintro ⟨e, stream, sent⟩ bytes hinv hphase hbuf hcoded bits rfl
  obtain ⟨-, htable, -⟩ : e.StageInv .coded := inv_stage hinv hphase (by decide)
  have hempty : { e with buf := [] } = e := congrArg (fun l => { e with buf := l }) hbuf.symm
  obtain ⟨evs, hevs, hrun⟩ := run_dec_codes hphase htable [encode .decend] 1 hcoded sent
  rw [hempty] at hrun
  have hend := run_present (exec_decend_of_nil (s := ⟨e, [], sent ++ evs⟩) hphase hbuf) 0
  obtain ⟨hout, hrsp⟩ := sends_append hevs (sends_ok 0#32)
  rw [List.append_nil] at hout
  exact ⟨_, hrun.trans hend, rfl, rfl, _, List.append_assoc _ _ _, hout, hrsp⟩

/-! ## Every input gets its table (R113, 70_reset_and_hazards.md R163) -/

/-- From a sound engine in ACCUM that has counted some symbol, LOAD, BUILD and GEN complete and reach CODED. -/
theorem run_load_build_gen {e : Engine} (hinv : e.Inv) (hphase : e.phase = .accum) {b : Symbol}
    (hb : 0#32 < e.freqOf b) (sent : List Event) :
    ∃ t : State, Host.Core.run core 3 ⟨e, [encode .load, encode .build, encode .gen], sent⟩ = .next t ∧
      t.engine.phase = .coded ∧ t.engine.buf = [] ∧ t.engine.freq = e.freq ∧
      ∃ evs, t.sent = sent ++ evs ∧ ∀ r, .rsp r ∈ evs → r.status = 0#4 := by
  have hnot : e.NotLoaded := inv_stage hinv hphase (by decide)
  have hload := exec_load (s := ⟨e, [encode .build, encode .gen], sent⟩) hnot hphase
  obtain ⟨htree, -, hbuf⟩ := inv_stage (exec_keeps_inv hload hinv) (p := .queued) rfl (by decide)
  have hne : e.loadLeaves.queue ≠ [] := List.ne_nil_of_mem ((mem_loadLeaves_queue hnot).mpr ⟨b, rfl, hb⟩)
  obtain ⟨e', hloop, hone, -, hbuild⟩ := exec_build_of_treeInv
    (s := ⟨{ e.loadLeaves with phase := .queued }, [encode .gen],
      sent ++ [.rsp ⟨0#4, BitVec.ofNat 32 e.distinct⟩]⟩)
    htree rfl (mt List.length_eq_zero_iff.mp hne)
  obtain ⟨hfreq, -, -, hbuf', hphase', -⟩ := buildLoop_frame hloop
  obtain ⟨htree', -⟩ := buildLoop_keeps_tree htree hloop
  obtain ⟨root, hq⟩ := List.length_eq_one_iff.mp hone
  obtain ⟨t, ht⟩ := exists_tableFrom htree' hq
  have hgen := exec_gen_singleton
    (s := ⟨e', [], sent ++ [.rsp ⟨0#4, BitVec.ofNat 32 e.distinct⟩] ++ [.rsp ⟨0#4, 1#32⟩]⟩) hphase' hq ht
  refine ⟨_, (run_present hload 2).trans ((run_present hbuild 1).trans (run_present hgen 0)), rfl, hbuf'.trans hbuf,
    hfreq.trans (loadLeaves_frame e).1, _, by simp only [List.append_assoc, complete_sent]; rfl, by simp⟩

/-- Settles O42: the counted bytes leave a sound engine in ACCUM, from which LOAD, BUILD and GEN reach CODED; there
item 9 says which symbols have a code. -/
theorem everyInputGetsItsTable : Obligations.EveryInputGetsItsTable := by
  unfold Obligations.EveryInputGetsItsTable
  rintro ⟨e, stream, sent⟩ bytes rfl hne hlen
  have room : Engine.reset.total.toNat + bytes.length ≤ 2 ^ 32 - 1 := by simpa [Engine.reset] using hlen
  have hcount (x : Symbol) : 0#32 < (Engine.reset.countAll bytes).freqOf x ↔ x ∈ bytes := by
    rw [BitVec.lt_def, countAll_freqOf_toNat totalIsSum_reset room, reset_freqOf, ← List.count_pos_iff]
    simp
  obtain ⟨evs, hevs, hacc⟩ := run_acc [encode .load, encode .build, encode .gen] 3 bytes
    ⟨Engine.reset, stream, sent⟩ rfl room
  have hcounted : (Engine.reset.countAll bytes).Inv := by
    obtain ⟨evs, -, h⟩ := run_acc [] 0 bytes ⟨Engine.reset, stream, sent⟩ rfl room
    exact run_preserves (step_preserves inv_raise inv_commit) inv_reset h
  obtain ⟨b, hb⟩ := List.exists_mem_of_ne_nil bytes hne
  obtain ⟨t, hrun, hphase, hbuf, hfreq, evs', hsent, hevs'⟩ :=
    run_load_build_gen hcounted (countAll_phase _ _) ((hcount b).mpr hb) (sent ++ evs)
  have hinv : t.engine.Inv := run_preserves (step_preserves inv_raise inv_commit) hcounted hrun
  obtain ⟨-, ⟨-, -, hcode, -⟩, -⟩ : t.engine.StageInv .coded := inv_stage hinv hphase (by decide)
  refine ⟨t, hacc.trans hrun, hphase, hbuf, hinv, fun x => ?_, evs ++ evs', by rw [hsent, List.append_assoc],
    fun r hr => (List.mem_append.mp hr).elim (hevs r) (hevs' r)⟩
  rw [hcode, freqOf_congr hfreq, hcount]

end Sys2Proof.Machine
end

section
/-! PROOFS. The sequencer (46_system.md): CLR (R120), RDREG (R121), the reserved opcode (R122) and the phase table
(R123). -/

namespace Sys2Proof.Machine

/-! ## The phase table (R123) -/

/-- The three rows of the phase table that name one phase each: outside that phase their commands are not legal. -/
theorem legalIn_eq_false_of_out_of_phase {i : Instr} {p : Phase}
    (h : (p ≠ .accum ∧ (i = .load ∨ ∃ d, i = .acc d)) ∨ (p ≠ .queued ∧ i ∈ [.merge, .build, .gen]) ∨
      (p ≠ .coded ∧ (i = .decend ∨ (∃ d, i = .enc d) ∨ ∃ d, i = .dec d))) : legalIn i p = false := by
  obtain ⟨hp, hi⟩ | ⟨hp, hi⟩ | ⟨hp, hi⟩ := h
  · obtain rfl | ⟨d, rfl⟩ := hi <;> exact beq_eq_false_iff_ne.mpr hp
  · obtain rfl | rfl | rfl : i = .merge ∨ i = .build ∨ i = .gen := by simpa using hi
    all_goals exact beq_eq_false_iff_ne.mpr hp
  · obtain rfl | ⟨d, rfl⟩ | ⟨d, rfl⟩ := hi <;> exact beq_eq_false_iff_ne.mpr hp

/-- Settles O44: the command is not legal in the phase, so its checks raise before its own rule is looked at. -/
theorem outOfPhaseCommandsRaise : Obligations.OutOfPhaseCommandsRaise := by
  unfold Obligations.OutOfPhaseCommandsRaise
  intro i s h
  exact ⟨_, exec_of_illegal_phase (legalIn_eq_false_of_out_of_phase h), raised_raise s _ _⟩

/-! ## The reserved opcode (R122) -/

/-- Settles O5: the word is refused at its opcode, before PHASE is looked at. -/
theorem reservedOpcodeRaises : Obligations.ReservedOpcodeRaises := by
  unfold Obligations.ReservedOpcodeRaises
  refine ⟨fun s w hop => ?_, _, step_present_error (decode_of_opcode_zero (by decide)), rfl, rfl, rfl, rfl⟩
  have hd : decode w = .error .reservedOpcode :=
    decode_of_opcode_zero ((opField_toNat w).symm.trans (congrArg BitVec.toNat hop))
  exact ⟨hd, _, step_present_error hd, raised_raise s _ _⟩

/-! ## CLR (R120) -/

/-- Settles O9: CLR completes with the reset engine, which is also what hardware reset writes. -/
theorem clrStartsNewRun : Obligations.ClrStartsNewRun := by
  unfold Obligations.ClrStartsNewRun
  exact ⟨rfl, fun s => ⟨_, exec_clr s, completed_complete _ _ _ _, rfl, rfl⟩⟩

/-! ## RDREG (R121) -/

theorem encode_rdreg (d : BitVec 8) : encode (.rdreg d) = 0xA000#16 ||| d.setWidth 16 := rfl

/-- The value of CFG (10_state.md R32). -/
theorem cfgRegister_eq : cfgRegister = 0xFF200100#32 := by decide

/-- RDREG of a register answers its value in every state and leaves the engine alone. -/
theorem exec_rdreg {d : BitVec 8} {v : Data} {s : State} (hd : d ≤ 6#8) (hv : s.engine.regValue d = some v) :
    exec (.rdreg d) s = .next (s.complete s.engine v []) := by
  rw [exec_eq_perform]
  exact perform_ok ((checks_eq_none_iff _ _).mpr ⟨rfl, decide_eq_true hd⟩) (by simp [ownEffect, rdregEffect, hv])

/-- Settles O11: the pairs listed are the registers and their values, and a number above 6 is an operand out of
range. -/
theorem rdregReadsRegister : Obligations.RdregReadsRegister := by
  unfold Obligations.RdregReadsRegister
  refine ⟨encode_rdreg, by decide, by decide, by decide, fun s d v h => ?_, fun s d hd => ?_⟩
  · obtain ⟨hd, hv⟩ : d ≤ 6#8 ∧ s.engine.regValue d = some v := by
      rw [← cfgRegister_eq] at h
      simp only [List.mem_cons, Prod.mk.injEq, List.not_mem_nil, or_false] at h
      obtain ⟨rfl, rfl⟩ | ⟨rfl, rfl⟩ | ⟨rfl, rfl⟩ | ⟨rfl, rfl⟩ | ⟨rfl, rfl⟩ | ⟨rfl, rfl⟩ | ⟨rfl, rfl⟩ := h
      all_goals exact ⟨by decide, rfl⟩
    exact ⟨_, exec_rdreg hd hv, completed_complete _ _ _ _, rfl⟩
  · have hrange : operandInRange (.rdreg d) = false := operandInRange_eq_false_iff.mpr (.inl ⟨d, rfl, hd⟩)
    exact ⟨_, exec_of_operand_out_of_range hrange s, raised_raise s _ _⟩

end Sys2Proof.Machine
end

section
/-! PROOFS. Errors (60_exceptions.md): what each kind is raised on (R131 to R138), and what FAULT still answers
(R142 to R146). -/

namespace Sys2Proof.Machine

/-! ## What a command raises on (R131 to R138) -/

theorem ErrKind.code_injective : Function.Injective ErrKind.code := by
  intro k k' h
  cases k <;> cases k' <;> simp [ErrKind.code] at h ⊢

/-- `Cause i e k`: the command i may raise k on the engine e. One constructor per condition of the spec; the first two
are those of the checks, the others those of the commands' own rules. -/
inductive Cause : Instr → Engine → ErrKind → Prop where
  | illegalPhase {i : Instr} {e : Engine} (h : legalIn i e.phase = false) : Cause i e .illegalCommand
  | operandOutOfRange {i : Instr} {e : Engine} (h : operandInRange i = false) : Cause i e .illegalCommand
  | accFull (d : Symbol) {e : Engine} (h : e.total = Config.freqMax) : Cause (.acc d) e .counterOverflow
  | mergeEmpty {e : Engine} (h : e.queue = []) : Cause .merge e .emptyAlphabet
  | mergeLone {e : Engine} (h : e.queue.length = 1) : Cause .merge e .emptyStructure
  | buildEmpty {e : Engine} (h : e.queue = []) : Cause .build e .emptyAlphabet
  | genEmpty {e : Engine} (h : e.queue = []) : Cause .gen e .emptyAlphabet
  | genUnfinished {e : Engine} (h : 2 ≤ e.queue.length) : Cause .gen e .illegalCommand
  | genMalformed {e : Engine} {root : NodeId} (hq : e.queue = [root]) (ht : e.tableFrom root = none) :
      Cause .gen e .malformedTree
  | encUnknown (d : Symbol) {e : Engine} (h : e.codeOf d = []) : Cause (.enc d) e .unknownSymbol
  | decBadCharacter {d : Byte} (e : Engine) (h : d ≠ 0x30#8 ∧ d ≠ 0x31#8) : Cause (.dec d) e .invalidEncoding
  | decFullBuffer (d : Byte) {e : Engine} (h : e.buf.length = 255) : Cause (.dec d) e .invalidEncoding
  | decendBitsLeft {e : Engine} (h : e.buf ≠ []) : Cause .decend e .invalidEncoding

theorem mergeEffect_cause {e : Engine} {k : ErrKind} (h : mergeEffect e = .raise k) : Cause .merge e k := by
  unfold mergeEffect at h
  split at h
  next h0 => cases h; exact .mergeEmpty (List.length_eq_zero_iff.mp h0)
  next h0 =>
    split at h
    next h1 => cases h; exact .mergeLone h1
    next h1 =>
      obtain ⟨a, b, rest, -, hm⟩ := mergeStep_ok (e := e) (by omega)
      split at h
      · cases h
      · rw [hm] at h
        cases h

/-- BUILD's loop does not run out of nodes, so it raises on the empty queue only. -/
theorem buildEffect_cause {e : Engine} {k : ErrKind} (h : buildEffect e = .raise k) : Cause .build e k := by
  unfold buildEffect at h
  split at h
  next h0 => cases h; exact .buildEmpty (List.length_eq_zero_iff.mp h0)
  next h0 =>
    obtain ⟨e', hb, -⟩ := buildLoop_ends (turns := e.qsize - 1) (e := e) (by omega)
    split at h
    · cases h
    · rw [hb] at h
      cases h

theorem genEffect_cause {e : Engine} {k : ErrKind} (h : genEffect e = .raise k) : Cause .gen e k := by
  unfold genEffect at h
  split at h
  next hq => cases h; exact .genEmpty hq
  next root hq =>
    split at h
    next => cases h
    next ht => cases h; exact .genMalformed hq ht
  next hq => cases h; exact .genUnfinished (by simp [hq])

theorem ne_of_bitOfChar_eq_none {d : Byte} (h : bitOfChar d = none) : d ≠ 0x30#8 ∧ d ≠ 0x31#8 := by
  constructor <;> rintro rfl <;> cases h

theorem decEffect_cause {d : Byte} {e : Engine} {k : ErrKind} (h : decEffect d e = .raise k) : Cause (.dec d) e k := by
  unfold decEffect at h
  split at h
  next hx => cases h; exact .decBadCharacter e (ne_of_bitOfChar_eq_none hx)
  next x _ =>
    split at h
    next full => cases h; exact .decFullBuffer d full
    next =>
      unfold decodeBit at h
      split at h <;> cases h

/-- RDREG raises by its own rule only where the operand check has raised before. -/
theorem rdregEffect_cause {d : BitVec 8} {e : Engine} {k : ErrKind} (h : rdregEffect d e = .raise k) :
    Cause (.rdreg d) e k := by
  unfold rdregEffect at h
  split at h
  next => cases h
  next hnone =>
    cases h
    refine .operandOutOfRange (operandInRange_eq_false_iff.mpr (.inl ⟨d, rfl, BitVec.not_le.mp fun hd => ?_⟩))
    obtain ⟨v, hv⟩ := regValue_isSome e hd
    simp [hnone] at hv

/-- Every command's own rule, where it raises, has the cause. -/
theorem ownEffect_cause {i : Instr} {e : Engine} {k : ErrKind} (h : ownEffect i e = .raise k) : Cause i e k := by
  cases i with
  | acc d =>
    simp only [ownEffect, accEffect] at h
    split at h
    next full => cases h; exact .accFull d full
    next => cases h
  | merge => exact mergeEffect_cause h
  | build => exact buildEffect_cause h
  | gen => exact genEffect_cause h
  | enc d =>
    simp only [ownEffect, encEffect] at h
    split at h
    next hcode => cases h; exact .encUnknown d (List.length_eq_zero_iff.mp hcode)
    next => cases h
  | dec d => exact decEffect_cause h
  | decend =>
    simp only [ownEffect, decendEffect] at h
    split at h
    next => cases h
    next hbuf => cases h; exact .decendBitsLeft (mt List.length_eq_zero_iff.mpr hbuf)
  | rdreg d => exact rdregEffect_cause h
  | load =>
    simp only [ownEffect, loadEffect] at h
    split at h <;> cases h
  | clr | rdfreq | rdq | rdnode | rdnfrq | rdcode => cases h

theorem cause_of_checks {i : Instr} {e : Engine} (h : checks i e.phase = some .illegalCommand) :
    Cause i e .illegalCommand := by
  cases hlegal : legalIn i e.phase with
  | false => exact .illegalPhase hlegal
  | true =>
    cases hrange : operandInRange i with
    | false => exact .operandOutOfRange hrange
    | true => simp [(checks_eq_none_iff i e.phase).mpr ⟨hlegal, hrange⟩] at h

/-- The status of a response is 0, or the code of a kind that has its cause; a command that is not legal in its phase
raises IllegalCommand only. -/
theorem status_has_cause {i : Instr} {s t : State} {r : Response} (h : exec i s = .next t)
    (hr : t.sent.getLast? = some (.rsp r)) :
    r.status = 0#4 ∨ ∃ k : ErrKind, r.status = k.code ∧ Cause i s.engine k ∧
      (k ≠ .illegalCommand → legalIn i s.engine.phase = true) := by
  obtain ⟨hc, rfl⟩ | ⟨hc, k, ho, rfl⟩ | ⟨-, e, d, out, -, rfl⟩ := exec_next h
  · obtain rfl : _ = r := by simpa using hr
    exact .inr ⟨_, rfl, cause_of_checks hc, absurd rfl⟩
  · obtain rfl : _ = r := by simpa using hr
    exact .inr ⟨k, rfl, ownEffect_cause ho, fun _ => ((checks_eq_none_iff i _).mp hc).1⟩
  · obtain rfl : _ = r := by simpa using hr
    exact .inl rfl

theorem ErrKind.code_le_seven (k : ErrKind) : k.code ≤ 7#4 := by cases k <;> decide

/-- Settles O47: a status other than 0 is the code of one kind, and each kind is raised on the causes listed. -/
theorem errorKindsHaveTheirCauses : Obligations.ErrorKindsHaveTheirCauses := by
  unfold Obligations.ErrorKindsHaveTheirCauses
  refine ⟨⟨rfl, rfl, rfl, rfl, rfl, rfl, rfl⟩, fun i s t r hexec hr => ?_⟩
  obtain h0 | ⟨k, hk, hcause, hlegal⟩ := status_has_cause hexec hr
  · simp [h0]
  · rw [hk]
    have kind {k' : ErrKind} (h : k.code = k'.code) : Cause i s.engine k' := ErrKind.code_injective h ▸ hcause
    refine ⟨k.code_le_seven, fun h => ?_, fun h => ?_, fun h => ?_, fun h => ?_, fun h => ?_, fun h => ?_,
      fun h => ?_, fun _ h6 => hlegal fun hill => h6 (congrArg ErrKind.code hill)⟩
    · cases kind (k' := .emptyAlphabet) h with
      | mergeEmpty hq | buildEmpty hq | genEmpty hq => exact ⟨by simp, hq⟩
    · cases kind (k' := .emptyStructure) h with
      | mergeLone hq => exact ⟨rfl, hq⟩
    · cases kind (k' := .malformedTree) h with
      | genMalformed hq ht => exact ⟨rfl, _, hq, ht⟩
    · cases kind (k' := .unknownSymbol) h with
      | encUnknown d hcode => exact ⟨d, rfl, hcode⟩
    · cases kind (k' := .invalidEncoding) h with
      | decBadCharacter _ hd => exact .inr ⟨_, rfl, .inl hd⟩
      | decFullBuffer d full => exact .inr ⟨d, rfl, .inr full⟩
      | decendBitsLeft hbuf => exact .inl ⟨rfl, hbuf⟩
    · cases kind (k' := .illegalCommand) h with
      | illegalPhase hp => exact .inl hp
      | operandOutOfRange ho => exact .inr (.inl ho)
      | genUnfinished hq => exact .inr (.inr ⟨rfl, hq⟩)
    · cases kind (k' := .counterOverflow) h with
      | accFull d full => exact ⟨d, rfl, full⟩

/-- Settles O33: MalformedTree is raised in QUEUED on one root without a table, and a sound tree has its table. -/
theorem genNeverFindsMalformedTree : Obligations.GenNeverFindsMalformedTree := by
  unfold Obligations.GenNeverFindsMalformedTree
  rintro s t hinv hexec ⟨-, hsent, -, -⟩
  have hlast : t.sent.getLast? = some (.rsp ⟨3#4, 0#32⟩) := by simp [hsent, ErrKind.code]
  obtain ⟨-, -, -, hmalformed, -, -, -, -, hlegal⟩ := errorKindsHaveTheirCauses.2 .gen s t _ hexec hlast
  obtain ⟨-, root, hq, hnone⟩ := hmalformed rfl
  have hp : s.engine.phase = .queued := by
    simpa [legalIn] using hlegal (by decide : (3#4 : Status) ≠ 0#4) (by decide : (3#4 : Status) ≠ 6#4)
  obtain ⟨htree, -⟩ : s.engine.StageInv .queued := inv_stage hinv hp (by decide)
  obtain ⟨table, ht⟩ := exists_tableFrom htree hq
  simp [hnone] at ht

/-! ## CLR, and the words of a sound state (R146) -/

theorem step_clr (s : State) : step (s.present 0x1000#16) = .next (s.complete Engine.reset 0#32 []) := by
  have hd : decode 0x1000#16 = .ok .clr := decode_encode .clr
  rw [step_present_ok hd, exec_clr]

/-- Settles O51: in a sound state no word stops the machine, and whatever it does ends in a response. -/
theorem everyWordIsAnswered : Obligations.EveryWordIsAnswered := by
  unfold Obligations.EveryWordIsAnswered
  refine ⟨fun s w hinv => ?_, fun s => ⟨_, step_clr s, completed_complete _ _ _ _⟩⟩
  obtain ⟨t, ht⟩ := everyWordHasOneResponse.2 s w hinv
  obtain ⟨e, d, out, rfl⟩ | ⟨k, rfl⟩ := step_present_next ht
  · exact ⟨_, ⟨0#4, d⟩, ht, by simp, rfl⟩
  · exact ⟨_, ⟨k.code, 0#32⟩, ht, by simp, rfl⟩

/-! ## What FAULT answers (R142, R144, R145) -/

/-- In FAULT step 3 of 30_encoding.md R59 refuses every command but CLR and the read-backs. -/
theorem checks_fault {i : Instr} (hclr : i ≠ .clr) (h : isReadBack i = false ∨ operandInRange i = false) :
    checks i .fault = some .illegalCommand := by
  unfold checks
  obtain hread | hrange := h
  · exact if_pos ⟨rfl, hclr, hread⟩
  · simp [hrange]

/-- A word that is neither CLR nor a read-back whose operand is in range raises IllegalCommand in FAULT. -/
theorem step_fault_refused {s : State} {w : CmdWord} (hp : s.engine.phase = .fault) (hw : w ≠ 0x1000#16)
    (h : ∀ i, decode w = .ok i → isReadBack i = false ∨ operandInRange i = false) :
    step (s.present w) = .next (s.raise .illegalCommand w) := by
  cases hd : decode w with
  | error x => exact step_present_error hd
  | ok i =>
    have hclr : i ≠ .clr := by
      rintro rfl
      exact hw (encode_of_decode hd).symm
    rw [step_present_ok hd, exec_eq_perform, perform_of_checks _ (hp ▸ checks_fault hclr (h i hd)),
      encode_of_decode hd]

/-- A read-back answers what its own rule reads. -/
theorem exec_readBack_of_ownEffect {i : Instr} (hread : isReadBack i = true) (hrange : operandInRange i = true)
    {s : State} {d : Data} {out : List Byte} (ho : ownEffect i s.engine = .ok s.engine d out) :
    exec i s = .next (s.complete s.engine d out) := by
  rw [exec_eq_perform]
  exact perform_ok ((checks_eq_none_iff i _).mpr ⟨legalIn_of_isReadBack hread _, hrange⟩) ho

/-- Everything a word can do in FAULT: CLR starts a new run, a read-back answers from the engine as it is, and every
other word is refused. In the last two cases the engine stays. -/
theorem step_in_fault {s : State} (hp : s.engine.phase = .fault) (w : CmdWord) :
    (w = 0x1000#16 ∧ step (s.present w) = .next (s.complete Engine.reset 0#32 [])) ∨
    (∃ i d out, decode w = .ok i ∧ isReadBack i = true ∧ ownEffect i s.engine = .ok s.engine d out ∧
      step (s.present w) = .next (s.complete s.engine d out)) ∨
    step (s.present w) = .next (s.raise .illegalCommand w) := by
  by_cases hw : w = 0x1000#16
  · exact .inl ⟨hw, hw ▸ step_clr s⟩
  by_cases hread : ∃ i, decode w = .ok i ∧ isReadBack i = true ∧ operandInRange i = true
  · obtain ⟨i, hd, hread, hrange⟩ := hread
    obtain ⟨d, out, ho⟩ := ownEffect_readBack hread hrange s.engine
    refine .inr (.inl ⟨i, d, out, hd, hread, ho, ?_⟩)
    rw [step_present_ok hd, exec_readBack_of_ownEffect hread hrange ho]
  · refine .inr (.inr (step_fault_refused hp hw fun i hd => ?_))
    by_contra hboth
    simp only [not_or, Bool.not_eq_false] at hboth
    exact hread ⟨i, hd, hboth⟩

/-- The one read-back that emits is RDCODE (30_encoding.md R62). -/
theorem readBack_emits {i : Instr} (hread : isReadBack i = true) (hi : Emits i) : ∃ d, i = .rdcode d := by
  obtain ⟨x, rfl⟩ | ⟨x, rfl⟩ | hcode := hi
  · cases hread
  · cases hread
  · exact hcode

/-- Settles O48: what is no CLR leaves the engine, and of what FAULT still performs only RDCODE emits. -/
theorem faultIsTerminal : Obligations.FaultIsTerminal := by
  unfold Obligations.FaultIsTerminal
  intro s t w hp hw h
  obtain ⟨hclr, -⟩ | ⟨i, d, out, hd, hread, ho, hstep⟩ | hstep := step_in_fault hp w
  · exact absurd hclr hw
  · obtain rfl : _ = t := by simpa [hstep] using h
    refine ⟨rfl, _, rfl, fun ⟨b, hb⟩ => ?_⟩
    have hout : out ≠ [] := by rintro rfl; simp at hb
    obtain ⟨x, rfl⟩ := readBack_emits hread (by_contra fun hi => hout (output_nil hi ho))
    exact ⟨x, hd⟩
  · obtain rfl : _ = t := by simpa [hstep] using h
    exact ⟨raise_of_fault hp _ _, _, rfl, fun ⟨b, hb⟩ => by simp at hb⟩

/-- Settles O50: only CLR writes anything in FAULT, and its response has status 0. -/
theorem onlyClrLeavesFault : Obligations.OnlyClrLeavesFault := by
  unfold Obligations.OnlyClrLeavesFault
  refine ⟨fun s t w hp h hleft => ?_, hardwareReset_engine, fun s t w r hp h hsent hr => ?_⟩
  · by_cases hw : w = 0x1000#16
    · obtain rfl : _ = t := by simpa [hw, step_clr] using h
      exact ⟨hw, rfl⟩
    · obtain ⟨hsame, -⟩ := faultIsTerminal s t w hp hw h
      exact absurd (hsame ▸ hp) hleft
  · by_cases hw : w = 0x1000#16
    · obtain rfl : _ = t := by simpa [hw, step_clr] using h
      obtain rfl : _ = r := by simpa using hsent
      exact absurd rfl hr
    · obtain ⟨hsame, -⟩ := faultIsTerminal s t w hp hw h
      rw [hsame]
      exact ⟨rfl, rfl⟩

/-- STATUS and ERRCMD are the only registers that show what a raise writes (10_state.md R33, R34). -/
theorem regValue_status (e : Engine) {d : BitVec 8} (h1 : d ≠ 1#8) (h6 : d ≠ 6#8) (p : Phase) (err : Option ErrKind)
    (cmd : CmdWord) : Engine.regValue { e with phase := p, err := err, errCmd := cmd } d = e.regValue d := by
  have hne1 : d.toNat ≠ 1 := fun h => h1 (BitVec.eq_of_toNat_eq h)
  have hne6 : d.toNat ≠ 6 := fun h => h6 (BitVec.eq_of_toNat_eq h)
  unfold Engine.regValue
  split
  case h_2 => contradiction
  case h_7 => contradiction
  all_goals rfl

/-- A read-back other than that of STATUS or ERRCMD answers the same before a raise and after it. -/
theorem ownEffect_readBack_status {i : Instr} (hread : isReadBack i = true) (h1 : i ≠ .rdreg 1#8)
    (h6 : i ≠ .rdreg 6#8) (e : Engine) (p : Phase) (err : Option ErrKind) (cmd : CmdWord) {e' : Engine} {d : Data}
    {out : List Byte}
    (h : ownEffect i { e with phase := p, err := err, errCmd := cmd } = .ok e' d out) :
    ownEffect i e = .ok e d out := by
  cases i with
  | rdreg n =>
    have hn1 : n ≠ 1#8 := fun hn => h1 (hn ▸ rfl)
    have hn6 : n ≠ 6#8 := fun hn => h6 (hn ▸ rfl)
    simp only [ownEffect, rdregEffect, regValue_status e hn1 hn6] at h ⊢
    split at h
    next => cases h; rfl
    next => cases h
  | rdfreq | rdq | rdnode | rdnfrq | rdcode => cases h; rfl
  | clr | acc | load | merge | build | gen | enc | dec | decend => cases hread

/-- Settles O49: CLR and the read-backs pass the checks in FAULT, every other word does not, and but for STATUS and
ERRCMD a read-back reads nothing that the raise into FAULT wrote. -/
theorem faultStillAnswers : Obligations.FaultStillAnswers := by
  unfold Obligations.FaultStillAnswers
  intro s hp
  refine ⟨⟨_, step_clr s, completed_complete _ _ _ _, rfl⟩, fun w i hd hread hrange => ?_, fun w hw h => ?_⟩
  · obtain ⟨d, out, ho⟩ := ownEffect_readBack hread hrange s.engine
    refine ⟨_, d, out, (step_present_ok hd).trans (exec_readBack_of_ownEffect hread hrange ho),
      completed_complete _ _ _ _, rfl, fun u h1 h6 hu => ?_⟩
    have hbefore : ownEffect i u.engine = .ok u.engine d out :=
      ownEffect_readBack_status hread h1 h6 u.engine _ _ _ (hu ▸ ho)
    exact ⟨_, exec_readBack_of_ownEffect hread hrange hbefore, completed_complete _ _ _ _⟩
  · exact ⟨_, step_fault_refused hp hw h, rfl, raise_of_fault hp _ _⟩

end Sys2Proof.Machine
end
